-- ==== Sys2Proof/Word.lean ====
section
/-! DEFINITION. The words of the machine: bytes, program words, data-space addresses, word addresses of program
memory, and the names of the 32 working registers. -/

namespace Sys2Proof

/-- A byte: a working register, an I/O register, a byte of SRAM (R7, R20). -/
abbrev Byte := BitVec 8

/-- A 16-bit word: an instruction word, a register pair, a pointer (R7, R23, R100). -/
abbrev Word := BitVec 16

/-- A data-space address (R62). -/
abbrev Addr := BitVec 16

/-- A word address of program memory, held in 22 bits; a member with a 16-bit program counter uses the low 16 (R25). -/
abbrev PcWord := BitVec 22

/-- The number of a working register, R0 to R31 (R20). -/
abbrev Reg := Fin 32

end Sys2Proof
end

