-- ==== Sys2Proof/Config.lean ====
section
/-! DEFINITION. What a member of the family fixes (the parameters of R6 and R346), as plain data that State carries and
no step changes, and the free values: what the environment or power-on decides and no rule states. -/

namespace Sys2Proof

/-- Width of the program counter: the source knows 16 and 22 bits (R6, R25). -/
inductive PcWidth where
  | pc16
  | pc22
deriving DecidableEq, Repr

/-- `PC_BITS` (R6). -/
def PcWidth.bits : PcWidth → Nat
  | .pc16 => 16
  | .pc22 => 22

/-- An optional part of the instruction set (R6). -/
inductive Feature where
  | jmpCall
  | ijmpIcall
  | movw
  | mul
  | lpmRd
  | pushPop
  | spm
  | extended
deriving DecidableEq, Repr

/-- The parameters of one member of the family (R6; R346 for the interrupt environment). Assumption 1. -/
structure Config where
  /-- `PC_BITS`. -/
  pcWidth : PcWidth
  /-- `FLASH_WORDS`: 16-bit words of program memory. -/
  flashWords : Nat
  /-- `HAS_JMP_CALL`. -/
  hasJmpCall : Bool
  /-- `HAS_IJMP_ICALL`. -/
  hasIjmpIcall : Bool
  /-- `HAS_MOVW`. -/
  hasMovw : Bool
  /-- `HAS_MUL`. -/
  hasMul : Bool
  /-- `HAS_LPM_RD`. -/
  hasLpmRd : Bool
  /-- `HAS_PUSH_POP`. -/
  hasPushPop : Bool
  /-- `HAS_SPM` (refused whatever it says, R334). -/
  hasSpm : Bool
  /-- `HAS_EXTENDED`: EICALL, EIJMP, ELPM, and the registers EIND and RAMPZ. -/
  hasExtended : Bool
  /-- `OCD_ATTACHED`: an on-chip debug system is present and active (R331). -/
  ocdAttached : Bool
  /-- `SP_BITS`, at most 16. -/
  spBits : Nat
  /-- `RAMSTART`: the lowest data address of SRAM (R63). -/
  ramStart : Nat
  /-- `RAMEND`: the highest data address of SRAM (R63). -/
  ramEnd : Nat
  /-- The extended I/O addresses ($0060 up to RAMSTART - 1) behind which there is a device (R63, R64). -/
  extendedIo : List Nat
  /-- The data addresses of I/O registers that the platform instantiates as plain storage (R66). Assumption 7. -/
  ioStorage : List Nat
  /-- `N_VECTORS`: vectors with the reset vector among them (R346). -/
  nVectors : Nat
  /-- `VECTOR_STRIDE`: words of a vector slot (R346). -/
  vectorStride : Nat
  /-- The requests that `ack` clears (R346: the environment decides). Assumption 10. -/
  ackClears : List Nat
  /-- `IRQ_ENTRY_CYCLES` (R354). -/
  irqEntryCycles : Nat
  /-- `RESET_PC` (R370). -/
  resetPc : PcWord
  /-- `RESET_SP` (R370, R373). -/
  resetSp : Word
deriving DecidableEq, Repr

/-- `PC_BITS` of a member (R6). -/
def Config.pcBits (c : Config) : Nat := c.pcWidth.bits

/-- Whether the member has an optional part (R6). -/
def Config.has (c : Config) : Feature → Bool
  | .jmpCall => c.hasJmpCall
  | .ijmpIcall => c.hasIjmpIcall
  | .movw => c.hasMovw
  | .mul => c.hasMul
  | .lpmRd => c.hasLpmRd
  | .pushPop => c.hasPushPop
  | .spm => c.hasSpm
  | .extended => c.hasExtended

/-- The default member AVR8-BS/pc16 (R6, D1). The sizes that R6 leaves OPEN (`FLASH_WORDS`, `RAMEND`) are the largest a
16-bit program counter and a 16-bit data address reach, and `RESET_SP` is `RAMEND` (R373).
DESIGN CHOICE, unsafe: assumptions 2, 4 and 29. -/
def Config.default : Config where
  pcWidth := .pc16
  flashWords := 65536
  hasJmpCall := true
  hasIjmpIcall := true
  hasMovw := true
  hasMul := true
  hasLpmRd := true
  hasPushPop := true
  hasSpm := false
  hasExtended := false
  ocdAttached := false
  spBits := 16
  ramStart := 0x60
  ramEnd := 0xFFFF
  extendedIo := []
  ioStorage := []
  nVectors := 1
  vectorStride := 2
  ackClears := []
  irqEntryCycles := 4
  resetPc := 0
  resetSp := 0xFFFF

/-- FREE VALUE: what the `n`-th read of a device register answers, at data address `a` (R66, U7: a draw of the
environment). Nothing is known of it. Assumption 7. -/
opaque Config.ioDraw (n : Nat) (a : Addr) : Byte

/-- FREE VALUE: what the byte at data address `a` holds from power-on until something writes it (R52, U3: one draw at
reset, then stable). Nothing is known of it. Assumption 6. -/
opaque Config.ramInit (a : Addr) : Byte

end Sys2Proof
end

