-- ==== Sys2Proof/Syntax.lean ====
section
/-! DEFINITION. The instructions: one constructor per row of spec/opcode_table.json, the 91 encodings first and then the
45 alias rows (pseudo-instructions, and LD/ST through Y or Z as displacement 0), which are other names for words of the
former (R103, R114, R123; assumption 19). Registers are numbers 0..31; which of them an instruction can name (R21) is
checked in Sys2Proof.WellFormed. -/

namespace Sys2Proof

inductive Instr where
  -- Arithmetic and compare (40_arithmetic.md).
  /-- ADD (R141). -/
  | add (d r : Reg)
  /-- ADC (R142). -/
  | adc (d r : Reg)
  /-- ADIW (R143): the pair R(d+1):Rd. -/
  | adiw (d : Reg) (k : BitVec 6)
  /-- SUB (R144). -/
  | sub (d r : Reg)
  /-- SUBI (R145). -/
  | subi (d : Reg) (k : Byte)
  /-- SBC (R146). -/
  | sbc (d r : Reg)
  /-- SBCI (R147). -/
  | sbci (d : Reg) (k : Byte)
  /-- SBIW (R148): the pair R(d+1):Rd. -/
  | sbiw (d : Reg) (k : BitVec 6)
  /-- INC (R149). -/
  | inc (d : Reg)
  /-- DEC (R150). -/
  | dec (d : Reg)
  /-- NEG (R151). -/
  | neg (d : Reg)
  /-- COM (R152). -/
  | com (d : Reg)
  /-- CP (R153). -/
  | cp (d r : Reg)
  /-- CPC (R154). -/
  | cpc (d r : Reg)
  /-- CPI (R155). -/
  | cpi (d : Reg) (k : Byte)
  -- Logic (41_logic.md).
  /-- AND (R171). -/
  | and (d r : Reg)
  /-- ANDI (R172). -/
  | andi (d : Reg) (k : Byte)
  /-- OR (R173). -/
  | or (d r : Reg)
  /-- ORI (R174). -/
  | ori (d : Reg) (k : Byte)
  /-- EOR (R175). -/
  | eor (d r : Reg)
  -- Shifts and bits (42_shift_bit.md).
  /-- ASR (R191). -/
  | asr (d : Reg)
  /-- LSR (R192). -/
  | lsr (d : Reg)
  /-- ROR (R193). -/
  | ror (d : Reg)
  /-- SWAP (R196). -/
  | swap (d : Reg)
  /-- BLD (R198). -/
  | bld (d : Reg) (b : BitVec 3)
  /-- BST (R199). -/
  | bst (d : Reg) (b : BitVec 3)
  /-- BSET (R200). -/
  | bset (s : BitVec 3)
  /-- BCLR (R201). -/
  | bclr (s : BitVec 3)
  /-- SBI (R204). -/
  | sbi (a : BitVec 5) (b : BitVec 3)
  /-- CBI (R205). -/
  | cbi (a : BitVec 5) (b : BitVec 3)
  -- Branches, jumps, calls, returns, skips (43_branch.md).
  /-- BRBS (R221). -/
  | brbs (s : BitVec 3) (k : BitVec 7)
  /-- BRBC (R222). -/
  | brbc (s : BitVec 3) (k : BitVec 7)
  /-- RJMP (R224). -/
  | rjmp (k : BitVec 12)
  /-- JMP (R225). -/
  | jmp (k : PcWord)
  /-- IJMP (R226). -/
  | ijmp
  /-- EIJMP (R227). -/
  | eijmp
  /-- RCALL (R228). -/
  | rcall (k : BitVec 12)
  /-- CALL (R229). -/
  | call (k : PcWord)
  /-- ICALL (R230). -/
  | icall
  /-- EICALL (R231). -/
  | eicall
  /-- RET (R232). -/
  | ret
  /-- RETI (R233). -/
  | reti
  /-- CPSE (R235). -/
  | cpse (d r : Reg)
  /-- SBRC (R236). -/
  | sbrc (r : Reg) (b : BitVec 3)
  /-- SBRS (R237). -/
  | sbrs (r : Reg) (b : BitVec 3)
  /-- SBIC (R238). -/
  | sbic (a : BitVec 5) (b : BitVec 3)
  /-- SBIS (R239). -/
  | sbis (a : BitVec 5) (b : BitVec 3)
  -- Data transfer (44_transfer.md).
  /-- MOV (R260). -/
  | mov (d r : Reg)
  /-- MOVW (R261): the pairs R(d+1):Rd and R(r+1):Rr. -/
  | movw (d r : Reg)
  /-- LDI (R262). -/
  | ldi (d : Reg) (k : Byte)
  /-- LD Rd,X (R265). -/
  | ldX (d : Reg)
  /-- LD Rd,X+ (R266). -/
  | ldXInc (d : Reg)
  /-- LD Rd,-X (R267). -/
  | ldXDec (d : Reg)
  /-- LD Rd,Y+ (R268). -/
  | ldYInc (d : Reg)
  /-- LD Rd,-Y (R269). -/
  | ldYDec (d : Reg)
  /-- LD Rd,Z+ (R270). -/
  | ldZInc (d : Reg)
  /-- LD Rd,-Z (R271). -/
  | ldZDec (d : Reg)
  /-- LDD Rd,Y+q (R272). -/
  | lddY (d : Reg) (q : BitVec 6)
  /-- LDD Rd,Z+q (R273). -/
  | lddZ (d : Reg) (q : BitVec 6)
  /-- LDS (R274). -/
  | lds (d : Reg) (k : Addr)
  /-- ST X,Rr (R277). -/
  | stX (r : Reg)
  /-- ST X+,Rr (R278). -/
  | stXInc (r : Reg)
  /-- ST -X,Rr (R279). -/
  | stXDec (r : Reg)
  /-- ST Y+,Rr (R280). -/
  | stYInc (r : Reg)
  /-- ST -Y,Rr (R281). -/
  | stYDec (r : Reg)
  /-- ST Z+,Rr (R282). -/
  | stZInc (r : Reg)
  /-- ST -Z,Rr (R283). -/
  | stZDec (r : Reg)
  /-- STD Y+q,Rr (R284). -/
  | stdY (q : BitVec 6) (r : Reg)
  /-- STD Z+q,Rr (R285). -/
  | stdZ (q : BitVec 6) (r : Reg)
  /-- STS (R286). -/
  | sts (k : Addr) (r : Reg)
  /-- LPM (R292). -/
  | lpm
  /-- LPM Rd,Z (R293). -/
  | lpmZ (d : Reg)
  /-- LPM Rd,Z+ (R294). -/
  | lpmZInc (d : Reg)
  /-- ELPM (R296). -/
  | elpm
  /-- ELPM Rd,Z (R297). -/
  | elpmZ (d : Reg)
  /-- ELPM Rd,Z+ (R298). -/
  | elpmZInc (d : Reg)
  /-- IN (R300). -/
  | inIo (d : Reg) (a : BitVec 6)
  /-- OUT (R301). -/
  | outIo (a : BitVec 6) (r : Reg)
  /-- PUSH (R302). -/
  | push (r : Reg)
  /-- POP (R303). -/
  | pop (d : Reg)
  -- Multiply (45_multiply.md).
  /-- MUL (R321). -/
  | mul (d r : Reg)
  /-- MULS (R322). -/
  | muls (d r : Reg)
  /-- MULSU (R323). -/
  | mulsu (d r : Reg)
  /-- FMUL (R324). -/
  | fmul (d r : Reg)
  /-- FMULS (R325). -/
  | fmuls (d r : Reg)
  /-- FMULSU (R326). -/
  | fmulsu (d r : Reg)
  -- System (46_system.md).
  /-- NOP (R330). -/
  | nop
  /-- BREAK (R331). -/
  | brk
  /-- SLEEP (R332). -/
  | sleep
  /-- WDR (R333). -/
  | wdr
  /-- SPM (R334). -/
  | spm
  -- Alias rows (R123, R114): other names for words of the instructions above.
  /-- R194: ADD Rd,Rd. -/
  | lsl (d : Reg)
  /-- R195: ADC Rd,Rd. -/
  | rol (d : Reg)
  /-- R176: AND Rd,Rd. -/
  | tst (d : Reg)
  /-- R177: EOR Rd,Rd. -/
  | clr (d : Reg)
  /-- R180: LDI Rd,$FF. -/
  | ser (d : Reg)
  /-- R178: ANDI Rd,$FF - K. -/
  | cbr (d : Reg) (k : Byte)
  /-- R179: ORI Rd,K. -/
  | sbr (d : Reg) (k : Byte)
  /-- R202: SEC, BSET 0. -/
  | sec
  /-- R202: SEZ, BSET 1. -/
  | sez
  /-- R202: SEN, BSET 2. -/
  | sen
  /-- R202: SEV, BSET 3. -/
  | sev
  /-- R202: SES, BSET 4. -/
  | ses
  /-- R202: SEH, BSET 5. -/
  | seh
  /-- R202: SET, BSET 6. -/
  | setT
  /-- R202: SEI, BSET 7. -/
  | sei
  /-- R203: CLC, BCLR 0. -/
  | clc
  /-- R203: CLZ, BCLR 1. -/
  | clz
  /-- R203: CLN, BCLR 2. -/
  | cln
  /-- R203: CLV, BCLR 3. -/
  | clv
  /-- R203: CLS, BCLR 4. -/
  | cls
  /-- R203: CLH, BCLR 5. -/
  | clh
  /-- R203: CLT, BCLR 6. -/
  | clt
  /-- R203: CLI, BCLR 7. -/
  | cli
  /-- R223: BRBS 0,k. -/
  | brcs (k : BitVec 7)
  /-- R223: BRBS 0,k. -/
  | brlo (k : BitVec 7)
  /-- R223: BRBC 0,k. -/
  | brcc (k : BitVec 7)
  /-- R223: BRBC 0,k. -/
  | brsh (k : BitVec 7)
  /-- R223: BRBS 1,k. -/
  | breq (k : BitVec 7)
  /-- R223: BRBC 1,k. -/
  | brne (k : BitVec 7)
  /-- R223: BRBS 2,k. -/
  | brmi (k : BitVec 7)
  /-- R223: BRBC 2,k. -/
  | brpl (k : BitVec 7)
  /-- R223: BRBS 3,k. -/
  | brvs (k : BitVec 7)
  /-- R223: BRBC 3,k. -/
  | brvc (k : BitVec 7)
  /-- R223: BRBS 4,k. -/
  | brlt (k : BitVec 7)
  /-- R223: BRBC 4,k. -/
  | brge (k : BitVec 7)
  /-- R223: BRBS 5,k. -/
  | brhs (k : BitVec 7)
  /-- R223: BRBC 5,k. -/
  | brhc (k : BitVec 7)
  /-- R223: BRBS 6,k. -/
  | brts (k : BitVec 7)
  /-- R223: BRBC 6,k. -/
  | brtc (k : BitVec 7)
  /-- R223: BRBS 7,k. -/
  | brie (k : BitVec 7)
  /-- R223: BRBC 7,k. -/
  | brid (k : BitVec 7)
  /-- R272: LD Rd,Y, LDD Rd,Y+0. -/
  | ldY (d : Reg)
  /-- R273: LD Rd,Z, LDD Rd,Z+0. -/
  | ldZ (d : Reg)
  /-- R284: ST Y,Rr, STD Y+0,Rr. -/
  | stY (r : Reg)
  /-- R285: ST Z,Rr, STD Z+0,Rr. -/
  | stZ (r : Reg)
deriving DecidableEq, Repr

end Sys2Proof
end

