-- ==== Sys2Proof/WellFormed.lean ====
section
/-! DEFINITION. Which registers an instruction can name (R21, R104): the checks that an instruction term must pass to
have an encoding. Ranges of constants, offsets, bit numbers and I/O numbers are the widths of their fields (R129). -/

namespace Sys2Proof

/-- The class "upper half", R16 to R31 (R21). -/
def Reg.isUpper (d : Reg) : Bool := decide (16 ≤ d.val)

/-- The class R16 to R23 (R21). -/
def Reg.isMid (d : Reg) : Bool := decide (16 ≤ d.val) && decide (d.val ≤ 23)

/-- The class "even": the low register of a pair of MOVW (R21). -/
def Reg.isEven (d : Reg) : Bool := decide (d.val % 2 = 0)

/-- The class "upper pairs": R24, R26, R28, R30 (R21). -/
def Reg.isUpperPair (d : Reg) : Bool := decide (24 ≤ d.val) && d.isEven

/-- The register operands are in the classes of R21. -/
def wellFormed : Instr → Bool
  | .adiw d _ | .sbiw d _ => d.isUpperPair
  | .movw d r => d.isEven && r.isEven
  | .muls d r => d.isUpper && r.isUpper
  | .mulsu d r | .fmul d r | .fmuls d r | .fmulsu d r => d.isMid && r.isMid
  | .andi d _ | .cpi d _ | .ldi d _ | .ori d _ | .sbci d _ | .subi d _ | .cbr d _ | .sbr d _ => d.isUpper
  | .ser d => d.isUpper
  | .add _ _ | .adc _ _ | .sub _ _ | .sbc _ _ | .inc _ | .dec _ | .neg _ | .com _ | .cp _ _ | .cpc _ _
  | .and _ _ | .or _ _ | .eor _ _ | .asr _ | .lsr _ | .ror _ | .swap _ | .bld _ _ | .bst _ _ | .bset _
  | .bclr _ | .sbi _ _ | .cbi _ _ | .brbs _ _ | .brbc _ _ | .rjmp _ | .jmp _ | .ijmp | .eijmp | .rcall _
  | .call _ | .icall | .eicall | .ret | .reti | .cpse _ _ | .sbrc _ _ | .sbrs _ _ | .sbic _ _ | .sbis _ _
  | .mov _ _ | .ldX _ | .ldXInc _ | .ldXDec _ | .ldYInc _ | .ldYDec _ | .ldZInc _ | .ldZDec _ | .lddY _ _
  | .lddZ _ _ | .lds _ _ | .stX _ | .stXInc _ | .stXDec _ | .stYInc _ | .stYDec _ | .stZInc _ | .stZDec _
  | .stdY _ _ | .stdZ _ _ | .sts _ _ | .lpm | .lpmZ _ | .lpmZInc _ | .elpm | .elpmZ _ | .elpmZInc _ | .inIo _ _
  | .outIo _ _ | .push _ | .pop _ | .mul _ _ | .nop | .brk | .sleep | .wdr | .spm | .lsl _ | .rol _ | .tst _
  | .clr _ | .sec | .sez | .sen | .sev | .ses | .seh | .setT | .sei | .clc | .clz | .cln | .clv | .cls | .clh
  | .clt | .cli | .brcs _ | .brlo _ | .brcc _ | .brsh _ | .breq _ | .brne _ | .brmi _ | .brpl _ | .brvs _
  | .brvc _ | .brlt _ | .brge _ | .brhs _ | .brhc _ | .brts _ | .brtc _ | .brie _ | .brid _ | .ldY _ | .ldZ _
  | .stY _ | .stZ _ => true

end Sys2Proof
end

