-- ==== Sys2Proof/Decode.lean ====
section
/-! DEFINITION. Instruction words (30_encoding.md): the fields, the 91 rows of the opcode map, the decoder over bytes of
program memory, the encoder, the length of an instruction, and which option an instruction needs. -/

namespace Sys2Proof

/-! Fields of the first word, collected left to right (R102). -/

/-- `ddddd`, bits 8..4: any register (R104). It is also the `rrrrr` of the formats with one register. -/
def fieldD (w : Word) : Reg := (w.extractLsb' 4 5).toFin

/-- `r` of format RR: bit 9 and bits 3..0 (R102, R104). -/
def fieldR (w : Word) : Reg := (w.extractLsb' 9 1 ++ w.extractLsb' 0 4).toFin

/-- `dddd` as R16 + field (R104). -/
def fieldUpperD (w : Word) : Reg := (0b1#1 ++ w.extractLsb' 4 4).toFin

/-- `rrrr` of MULS as R16 + field (R104). -/
def fieldUpperR (w : Word) : Reg := (0b1#1 ++ w.extractLsb' 0 4).toFin

/-- `ddd` as R16 + field, R16..R23 (R104). -/
def fieldMidD (w : Word) : Reg := (0b10#2 ++ w.extractLsb' 4 3).toFin

/-- `rrr` as R16 + field, R16..R23 (R104). -/
def fieldMidR (w : Word) : Reg := (0b10#2 ++ w.extractLsb' 0 3).toFin

/-- `dddd` of MOVW as 2 * field (R104). -/
def fieldPairD (w : Word) : Reg := (w.extractLsb' 4 4 ++ 0b0#1).toFin

/-- `rrrr` of MOVW as 2 * field (R104). -/
def fieldPairR (w : Word) : Reg := (w.extractLsb' 0 4 ++ 0b0#1).toFin

/-- `dd` of ADIW and SBIW as R24 + 2 * field (R104). -/
def fieldWordPair (w : Word) : Reg := (0b11#2 ++ w.extractLsb' 4 2 ++ 0b0#1).toFin

/-- `K8`, bits 11..8 and 3..0 (R105). -/
def fieldK8 (w : Word) : Byte := w.extractLsb' 8 4 ++ w.extractLsb' 0 4

/-- `K6`, bits 7..6 and 3..0 (R105). -/
def fieldK6 (w : Word) : BitVec 6 := w.extractLsb' 6 2 ++ w.extractLsb' 0 4

/-- The branch offset `k7`, bits 9..3 (R106). -/
def fieldK7 (w : Word) : BitVec 7 := w.extractLsb' 3 7

/-- The jump offset `k12`, bits 11..0 (R106). -/
def fieldK12 (w : Word) : BitVec 12 := w.extractLsb' 0 12

/-- The absolute word address of JMP and CALL: bits 8..4, bit 0, and the second word (R107). -/
def fieldK22 (w w2 : Word) : PcWord := w.extractLsb' 4 5 ++ w.extractLsb' 0 1 ++ w2

/-- `A` of IN and OUT, bits 10..9 and 3..0 (R108). -/
def fieldA6 (w : Word) : BitVec 6 := w.extractLsb' 9 2 ++ w.extractLsb' 0 4

/-- `A` of SBI, CBI, SBIC, SBIS, bits 7..3 (R108). -/
def fieldA5 (w : Word) : BitVec 5 := w.extractLsb' 3 5

/-- `b`, and `s` of BRBS and BRBC: bits 2..0 (R108). -/
def fieldB (w : Word) : BitVec 3 := w.extractLsb' 0 3

/-- `s` of BSET and BCLR, bits 6..4 (R108). -/
def fieldSreg (w : Word) : BitVec 3 := w.extractLsb' 4 3

/-- `q`, bit 13, bits 11..10 and bits 2..0 (R108). -/
def fieldQ (w : Word) : BitVec 6 := w.extractLsb' 13 1 ++ w.extractLsb' 10 2 ++ w.extractLsb' 0 3

/-- A row of the opcode map: the first word `w` is the row's when `w &&& mask = pat`; `make` reads the instruction from
the first word and, for a two-word instruction, the second (R103). -/
structure Row where
  pat : Word
  mask : Word
  make : Word → Word → Instr

/-- Region 0000 (R110). -/
def regionZero : List Row := [
  ⟨0x0000, 0xFFFF, fun _ _ => .nop⟩,
  ⟨0x0100, 0xFF00, fun w _ => .movw (fieldPairD w) (fieldPairR w)⟩,
  ⟨0x0200, 0xFF00, fun w _ => .muls (fieldUpperD w) (fieldUpperR w)⟩,
  ⟨0x0300, 0xFF88, fun w _ => .mulsu (fieldMidD w) (fieldMidR w)⟩,
  ⟨0x0308, 0xFF88, fun w _ => .fmul (fieldMidD w) (fieldMidR w)⟩,
  ⟨0x0380, 0xFF88, fun w _ => .fmuls (fieldMidD w) (fieldMidR w)⟩,
  ⟨0x0388, 0xFF88, fun w _ => .fmulsu (fieldMidD w) (fieldMidR w)⟩,
  ⟨0x0400, 0xFC00, fun w _ => .cpc (fieldD w) (fieldR w)⟩,
  ⟨0x0800, 0xFC00, fun w _ => .sbc (fieldD w) (fieldR w)⟩,
  ⟨0x0C00, 0xFC00, fun w _ => .add (fieldD w) (fieldR w)⟩]

/-- Region 0001 and 0010 (R111, R112). -/
def regionTwoRegs : List Row := [
  ⟨0x1000, 0xFC00, fun w _ => .cpse (fieldD w) (fieldR w)⟩,
  ⟨0x1400, 0xFC00, fun w _ => .cp (fieldD w) (fieldR w)⟩,
  ⟨0x1800, 0xFC00, fun w _ => .sub (fieldD w) (fieldR w)⟩,
  ⟨0x1C00, 0xFC00, fun w _ => .adc (fieldD w) (fieldR w)⟩,
  ⟨0x2000, 0xFC00, fun w _ => .and (fieldD w) (fieldR w)⟩,
  ⟨0x2400, 0xFC00, fun w _ => .eor (fieldD w) (fieldR w)⟩,
  ⟨0x2800, 0xFC00, fun w _ => .or (fieldD w) (fieldR w)⟩,
  ⟨0x2C00, 0xFC00, fun w _ => .mov (fieldD w) (fieldR w)⟩]

/-- Region 0011 to 0111 and 1110 (R113). -/
def regionImmediate : List Row := [
  ⟨0x3000, 0xF000, fun w _ => .cpi (fieldUpperD w) (fieldK8 w)⟩,
  ⟨0x4000, 0xF000, fun w _ => .sbci (fieldUpperD w) (fieldK8 w)⟩,
  ⟨0x5000, 0xF000, fun w _ => .subi (fieldUpperD w) (fieldK8 w)⟩,
  ⟨0x6000, 0xF000, fun w _ => .ori (fieldUpperD w) (fieldK8 w)⟩,
  ⟨0x7000, 0xF000, fun w _ => .andi (fieldUpperD w) (fieldK8 w)⟩,
  ⟨0xE000, 0xF000, fun w _ => .ldi (fieldUpperD w) (fieldK8 w)⟩]

/-- Region 10q0 (R114). -/
def regionDisplacement : List Row := [
  ⟨0x8008, 0xD208, fun w _ => .lddY (fieldD w) (fieldQ w)⟩,
  ⟨0x8000, 0xD208, fun w _ => .lddZ (fieldD w) (fieldQ w)⟩,
  ⟨0x8208, 0xD208, fun w _ => .stdY (fieldQ w) (fieldD w)⟩,
  ⟨0x8200, 0xD208, fun w _ => .stdZ (fieldQ w) (fieldD w)⟩]

/-- Region 1001 000 (R115; ELPM Rd,Z+ as the source prints it, C10, assumption 18). -/
def regionLoad : List Row := [
  ⟨0x9000, 0xFE0F, fun w w2 => .lds (fieldD w) w2⟩,
  ⟨0x9001, 0xFE0F, fun w _ => .ldZInc (fieldD w)⟩,
  ⟨0x9002, 0xFE0F, fun w _ => .ldZDec (fieldD w)⟩,
  ⟨0x9003, 0xFE0F, fun w _ => .elpmZInc (fieldD w)⟩,
  ⟨0x9004, 0xFE0F, fun w _ => .lpmZ (fieldD w)⟩,
  ⟨0x9005, 0xFE0F, fun w _ => .lpmZInc (fieldD w)⟩,
  ⟨0x9006, 0xFE0F, fun w _ => .elpmZ (fieldD w)⟩,
  ⟨0x9009, 0xFE0F, fun w _ => .ldYInc (fieldD w)⟩,
  ⟨0x900A, 0xFE0F, fun w _ => .ldYDec (fieldD w)⟩,
  ⟨0x900C, 0xFE0F, fun w _ => .ldX (fieldD w)⟩,
  ⟨0x900D, 0xFE0F, fun w _ => .ldXInc (fieldD w)⟩,
  ⟨0x900E, 0xFE0F, fun w _ => .ldXDec (fieldD w)⟩,
  ⟨0x900F, 0xFE0F, fun w _ => .pop (fieldD w)⟩]

/-- Region 1001 001 (R115). -/
def regionStore : List Row := [
  ⟨0x9200, 0xFE0F, fun w w2 => .sts w2 (fieldD w)⟩,
  ⟨0x9201, 0xFE0F, fun w _ => .stZInc (fieldD w)⟩,
  ⟨0x9202, 0xFE0F, fun w _ => .stZDec (fieldD w)⟩,
  ⟨0x9209, 0xFE0F, fun w _ => .stYInc (fieldD w)⟩,
  ⟨0x920A, 0xFE0F, fun w _ => .stYDec (fieldD w)⟩,
  ⟨0x920C, 0xFE0F, fun w _ => .stX (fieldD w)⟩,
  ⟨0x920D, 0xFE0F, fun w _ => .stXInc (fieldD w)⟩,
  ⟨0x920E, 0xFE0F, fun w _ => .stXDec (fieldD w)⟩,
  ⟨0x920F, 0xFE0F, fun w _ => .push (fieldD w)⟩]

/-- Region 1001 010d dddd oooo (R116). -/
def regionOneReg : List Row := [
  ⟨0x9400, 0xFE0F, fun w _ => .com (fieldD w)⟩,
  ⟨0x9401, 0xFE0F, fun w _ => .neg (fieldD w)⟩,
  ⟨0x9402, 0xFE0F, fun w _ => .swap (fieldD w)⟩,
  ⟨0x9403, 0xFE0F, fun w _ => .inc (fieldD w)⟩,
  ⟨0x9405, 0xFE0F, fun w _ => .asr (fieldD w)⟩,
  ⟨0x9406, 0xFE0F, fun w _ => .lsr (fieldD w)⟩,
  ⟨0x9407, 0xFE0F, fun w _ => .ror (fieldD w)⟩,
  ⟨0x940A, 0xFE0F, fun w _ => .dec (fieldD w)⟩]

/-- Region 1001 010x xxxx 100x (R117). -/
def regionFixed : List Row := [
  ⟨0x9408, 0xFF8F, fun w _ => .bset (fieldSreg w)⟩,
  ⟨0x9488, 0xFF8F, fun w _ => .bclr (fieldSreg w)⟩,
  ⟨0x9409, 0xFFFF, fun _ _ => .ijmp⟩,
  ⟨0x9419, 0xFFFF, fun _ _ => .eijmp⟩,
  ⟨0x9508, 0xFFFF, fun _ _ => .ret⟩,
  ⟨0x9518, 0xFFFF, fun _ _ => .reti⟩,
  ⟨0x9509, 0xFFFF, fun _ _ => .icall⟩,
  ⟨0x9519, 0xFFFF, fun _ _ => .eicall⟩,
  ⟨0x9588, 0xFFFF, fun _ _ => .sleep⟩,
  ⟨0x9598, 0xFFFF, fun _ _ => .brk⟩,
  ⟨0x95A8, 0xFFFF, fun _ _ => .wdr⟩,
  ⟨0x95C8, 0xFFFF, fun _ _ => .lpm⟩,
  ⟨0x95D8, 0xFFFF, fun _ _ => .elpm⟩,
  ⟨0x95E8, 0xFFFF, fun _ _ => .spm⟩]

/-- Region JMP, CALL, ADIW, SBIW, the I/O bits and MUL (R118 to R121). -/
def regionAbsolute : List Row := [
  ⟨0x940C, 0xFE0E, fun w w2 => .jmp (fieldK22 w w2)⟩,
  ⟨0x940E, 0xFE0E, fun w w2 => .call (fieldK22 w w2)⟩,
  ⟨0x9600, 0xFF00, fun w _ => .adiw (fieldWordPair w) (fieldK6 w)⟩,
  ⟨0x9700, 0xFF00, fun w _ => .sbiw (fieldWordPair w) (fieldK6 w)⟩,
  ⟨0x9800, 0xFF00, fun w _ => .cbi (fieldA5 w) (fieldB w)⟩,
  ⟨0x9900, 0xFF00, fun w _ => .sbic (fieldA5 w) (fieldB w)⟩,
  ⟨0x9A00, 0xFF00, fun w _ => .sbi (fieldA5 w) (fieldB w)⟩,
  ⟨0x9B00, 0xFF00, fun w _ => .sbis (fieldA5 w) (fieldB w)⟩,
  ⟨0x9C00, 0xFC00, fun w _ => .mul (fieldD w) (fieldR w)⟩]

/-- Region 1011, 1100, 1101 and 1111 (R122). -/
def regionHigh : List Row := [
  ⟨0xB000, 0xF800, fun w _ => .inIo (fieldD w) (fieldA6 w)⟩,
  ⟨0xB800, 0xF800, fun w _ => .outIo (fieldA6 w) (fieldD w)⟩,
  ⟨0xC000, 0xF000, fun w _ => .rjmp (fieldK12 w)⟩,
  ⟨0xD000, 0xF000, fun w _ => .rcall (fieldK12 w)⟩,
  ⟨0xF000, 0xFC00, fun w _ => .brbs (fieldB w) (fieldK7 w)⟩,
  ⟨0xF400, 0xFC00, fun w _ => .brbc (fieldB w) (fieldK7 w)⟩,
  ⟨0xF800, 0xFE08, fun w _ => .bld (fieldD w) (fieldB w)⟩,
  ⟨0xFA00, 0xFE08, fun w _ => .bst (fieldD w) (fieldB w)⟩,
  ⟨0xFC00, 0xFE08, fun w _ => .sbrc (fieldD w) (fieldB w)⟩,
  ⟨0xFE00, 0xFE08, fun w _ => .sbrs (fieldD w) (fieldB w)⟩]

/-- The 91 rows of the opcode map (R110 to R122). -/
def opcodeMap : List Row :=
  regionZero ++ regionTwoRegs ++ regionImmediate ++ regionDisplacement ++ regionLoad ++ regionStore ++ regionOneReg ++
    regionFixed ++ regionAbsolute ++ regionHigh

/-- Whether a first word is the row's (R103). -/
def Row.matches (row : Row) (w : Word) : Bool := w &&& row.mask == row.pat

/-- The instruction whose first word is `w` and whose second word, if it has one, is `w2`; none for an unassigned word
(R103, R124). Options play no part here (R125 is the machine's). -/
def decodeWord (w w2 : Word) : Option Instr := (opcodeMap.find? (fun row => row.matches w)).map (fun row => row.make w w2)

/-- The number of words of the instruction that begins with `w`, by its pattern alone (R101). -/
def wordCount (w : Word) : Nat :=
  if w &&& 0xFE0C = 0x940C then 2 else if w &&& 0xFC0F = 0x9000 then 2 else 1

/-- Why bytes are no instruction. -/
inductive DecodeError where
  /-- Fewer bytes than the instruction has. -/
  | truncated
  /-- The first word is the word of no instruction (R124). -/
  | unassigned (w : Word)
deriving DecidableEq, Repr

/-- The word that two bytes of program memory hold, the low byte at the lower address (R69). -/
def wordOfBytes (lo hi : Byte) : Word := hi ++ lo

/-- The bytes of a word in program memory, low byte first (R69). -/
def bytesOfWord (w : Word) : List Byte := [w.extractLsb' 0 8, w.extractLsb' 8 8]

/-- One word from the front of a list of bytes. -/
def takeWord : List Byte → Option (Word × List Byte)
  | lo :: hi :: rest => some (wordOfBytes lo hi, rest)
  | _ => none

/-- The instruction at the front of a list of bytes of program memory, and the bytes after it (R100, R103). -/
def decode (bytes : List Byte) : Except DecodeError (Instr × List Byte) :=
  match takeWord bytes with
  | none => .error .truncated
  | some (w, rest) =>
    if wordCount w = 2 then
      match takeWord rest with
      | none => .error .truncated
      | some (w2, rest2) =>
        match decodeWord w w2 with
        | none => .error (.unassigned w)
        | some i => .ok (i, rest2)
    else
      match decodeWord w 0 with
      | none => .error (.unassigned w)
      | some i => .ok (i, rest)

/-- The instruction the decoder reads from an instruction whose bits are `w`, bit 0 the least significant bit of the first
word and bits 31..16 the second word, every bit from `nbits` on being 0. -/
def decodeTableWord (nbits w : Nat) : Option Instr :=
  let v := w % 2 ^ nbits
  match decode (bytesOfWord (BitVec.ofNat 16 v) ++ bytesOfWord (BitVec.ofNat 16 (v / 65536))) with
  | .ok (i, _) => some i
  | .error _ => none

/-! The encoder, by the formats of R109. -/

/-- The low `n` bits of a register number: the field of the classes R16..R31 (4 bits) and R16..R23 (3 bits) (R104). -/
def Reg.lowField (d : Reg) (n : Nat) : BitVec n := BitVec.ofNat n d.val

/-- The register field of a pair of MOVW (R104). -/
def Reg.pairField (d : Reg) : BitVec 4 := BitVec.ofNat 4 (d.val / 2)

/-- The 5-bit register field (R104). -/
def Reg.field (d : Reg) : BitVec 5 := BitVec.ofFin d

/-- Format RR: `oooo oord dddd rrrr`. -/
def wordRR (op : BitVec 6) (d r : Reg) : Word :=
  op ++ r.field.extractLsb' 4 1 ++ d.field ++ r.field.extractLsb' 0 4

/-- Format RI: `oooo KKKK dddd KKKK`. -/
def wordRI (op : BitVec 4) (d : Reg) (k : Byte) : Word :=
  op ++ k.extractLsb' 4 4 ++ d.lowField 4 ++ k.extractLsb' 0 4

/-- Formats R1 and LS: `1001 0xxd dddd oooo`. -/
def wordR1 (op : BitVec 7) (d : Reg) (low : BitVec 4) : Word := op ++ d.field ++ low

/-- Format WI: `1001 011o KKdd KKKK`. -/
def wordWI (op : BitVec 8) (d : Reg) (k : BitVec 6) : Word :=
  op ++ k.extractLsb' 4 2 ++ BitVec.ofNat 2 (d.val / 2) ++ k.extractLsb' 0 4

/-- Format RB: `1111 1ood dddd 0bbb`. -/
def wordRB (op : BitVec 7) (d : Reg) (b : BitVec 3) : Word := op ++ d.field ++ 0b0#1 ++ b

/-- Format IO: `1011 oAAd dddd AAAA`. -/
def wordIO (op : BitVec 5) (d : Reg) (a : BitVec 6) : Word :=
  op ++ a.extractLsb' 4 2 ++ d.field ++ a.extractLsb' 0 4

/-- The first word of format ABS: `1001 010k kkkk 11ok`. -/
def wordABS (op : BitVec 3) (k : PcWord) : Word :=
  0b1001010#7 ++ k.extractLsb' 17 5 ++ op ++ k.extractLsb' 16 1

/-- Format LSQ: `10q0 qqod dddd yqqq`. -/
def wordLSQ (store y : BitVec 1) (d : Reg) (q : BitVec 6) : Word :=
  0b10#2 ++ q.extractLsb' 5 1 ++ 0b0#1 ++ q.extractLsb' 3 2 ++ store ++ d.field ++ y ++ q.extractLsb' 0 3

/-- Format M3: `0000 0011 oddd orrr`. -/
def wordM3 (hi lo : BitVec 1) (d r : Reg) : Word :=
  0b00000011#8 ++ hi ++ d.lowField 3 ++ lo ++ r.lowField 3

/-- The core instruction that a row of the table stands for: an alias row is another name for words of a core
instruction (R114, R123), a core instruction is itself. -/
def Instr.base : Instr → Instr
  | .lsl d => .add d d
  | .rol d => .adc d d
  | .tst d => .and d d
  | .clr d => .eor d d
  | .ser d => .ldi d 0xFF
  | .cbr d k => .andi d (0xFF - k)
  | .sbr d k => .ori d k
  | .sec => .bset 0
  | .sez => .bset 1
  | .sen => .bset 2
  | .sev => .bset 3
  | .ses => .bset 4
  | .seh => .bset 5
  | .setT => .bset 6
  | .sei => .bset 7
  | .clc => .bclr 0
  | .clz => .bclr 1
  | .cln => .bclr 2
  | .clv => .bclr 3
  | .cls => .bclr 4
  | .clh => .bclr 5
  | .clt => .bclr 6
  | .cli => .bclr 7
  | .brcs k => .brbs 0 k
  | .brlo k => .brbs 0 k
  | .brcc k => .brbc 0 k
  | .brsh k => .brbc 0 k
  | .breq k => .brbs 1 k
  | .brne k => .brbc 1 k
  | .brmi k => .brbs 2 k
  | .brpl k => .brbc 2 k
  | .brvs k => .brbs 3 k
  | .brvc k => .brbc 3 k
  | .brlt k => .brbs 4 k
  | .brge k => .brbc 4 k
  | .brhs k => .brbs 5 k
  | .brhc k => .brbc 5 k
  | .brts k => .brbs 6 k
  | .brtc k => .brbc 6 k
  | .brie k => .brbs 7 k
  | .brid k => .brbc 7 k
  | .ldY d => .lddY d 0
  | .ldZ d => .lddZ d 0
  | .stY r => .stdY 0 r
  | .stZ r => .stdZ 0 r
  | .add d r => .add d r
  | .adc d r => .adc d r
  | .adiw d k => .adiw d k
  | .sub d r => .sub d r
  | .subi d k => .subi d k
  | .sbc d r => .sbc d r
  | .sbci d k => .sbci d k
  | .sbiw d k => .sbiw d k
  | .inc d => .inc d
  | .dec d => .dec d
  | .neg d => .neg d
  | .com d => .com d
  | .cp d r => .cp d r
  | .cpc d r => .cpc d r
  | .cpi d k => .cpi d k
  | .and d r => .and d r
  | .andi d k => .andi d k
  | .or d r => .or d r
  | .ori d k => .ori d k
  | .eor d r => .eor d r
  | .asr d => .asr d
  | .lsr d => .lsr d
  | .ror d => .ror d
  | .swap d => .swap d
  | .bld d b => .bld d b
  | .bst d b => .bst d b
  | .bset s => .bset s
  | .bclr s => .bclr s
  | .sbi a b => .sbi a b
  | .cbi a b => .cbi a b
  | .brbs s k => .brbs s k
  | .brbc s k => .brbc s k
  | .rjmp k => .rjmp k
  | .jmp k => .jmp k
  | .ijmp => .ijmp
  | .eijmp => .eijmp
  | .rcall k => .rcall k
  | .call k => .call k
  | .icall => .icall
  | .eicall => .eicall
  | .ret => .ret
  | .reti => .reti
  | .cpse d r => .cpse d r
  | .sbrc r b => .sbrc r b
  | .sbrs r b => .sbrs r b
  | .sbic a b => .sbic a b
  | .sbis a b => .sbis a b
  | .mov d r => .mov d r
  | .movw d r => .movw d r
  | .ldi d k => .ldi d k
  | .ldX d => .ldX d
  | .ldXInc d => .ldXInc d
  | .ldXDec d => .ldXDec d
  | .ldYInc d => .ldYInc d
  | .ldYDec d => .ldYDec d
  | .ldZInc d => .ldZInc d
  | .ldZDec d => .ldZDec d
  | .lddY d q => .lddY d q
  | .lddZ d q => .lddZ d q
  | .lds d k => .lds d k
  | .stX r => .stX r
  | .stXInc r => .stXInc r
  | .stXDec r => .stXDec r
  | .stYInc r => .stYInc r
  | .stYDec r => .stYDec r
  | .stZInc r => .stZInc r
  | .stZDec r => .stZDec r
  | .stdY q r => .stdY q r
  | .stdZ q r => .stdZ q r
  | .sts k r => .sts k r
  | .lpm => .lpm
  | .lpmZ d => .lpmZ d
  | .lpmZInc d => .lpmZInc d
  | .elpm => .elpm
  | .elpmZ d => .elpmZ d
  | .elpmZInc d => .elpmZInc d
  | .inIo d a => .inIo d a
  | .outIo a r => .outIo a r
  | .push r => .push r
  | .pop d => .pop d
  | .mul d r => .mul d r
  | .muls d r => .muls d r
  | .mulsu d r => .mulsu d r
  | .fmul d r => .fmul d r
  | .fmuls d r => .fmuls d r
  | .fmulsu d r => .fmulsu d r
  | .nop => .nop
  | .brk => .brk
  | .sleep => .sleep
  | .wdr => .wdr
  | .spm => .spm

/-- The words of a core instruction; an alias row is encoded as its core instruction (`encode`). -/
def encodeCore : Instr → List Word
  | .add d r => [wordRR 0b000011#6 d r]
  | .adc d r => [wordRR 0b000111#6 d r]
  | .adiw d k => [wordWI 0b10010110#8 d k]
  | .sub d r => [wordRR 0b000110#6 d r]
  | .subi d k => [wordRI 0b0101#4 d k]
  | .sbc d r => [wordRR 0b000010#6 d r]
  | .sbci d k => [wordRI 0b0100#4 d k]
  | .sbiw d k => [wordWI 0b10010111#8 d k]
  | .inc d => [wordR1 0b1001010#7 d 0b0011#4]
  | .dec d => [wordR1 0b1001010#7 d 0b1010#4]
  | .neg d => [wordR1 0b1001010#7 d 0b0001#4]
  | .com d => [wordR1 0b1001010#7 d 0b0000#4]
  | .cp d r => [wordRR 0b000101#6 d r]
  | .cpc d r => [wordRR 0b000001#6 d r]
  | .cpi d k => [wordRI 0b0011#4 d k]
  | .and d r => [wordRR 0b001000#6 d r]
  | .andi d k => [wordRI 0b0111#4 d k]
  | .or d r => [wordRR 0b001010#6 d r]
  | .ori d k => [wordRI 0b0110#4 d k]
  | .eor d r => [wordRR 0b001001#6 d r]
  | .asr d => [wordR1 0b1001010#7 d 0b0101#4]
  | .lsr d => [wordR1 0b1001010#7 d 0b0110#4]
  | .ror d => [wordR1 0b1001010#7 d 0b0111#4]
  | .swap d => [wordR1 0b1001010#7 d 0b0010#4]
  | .bld d b => [wordRB 0b1111100#7 d b]
  | .bst d b => [wordRB 0b1111101#7 d b]
  | .bset s => [0b100101000#9 ++ s ++ 0b1000#4]
  | .bclr s => [0b100101001#9 ++ s ++ 0b1000#4]
  | .sbi a b => [0b10011010#8 ++ a ++ b]
  | .cbi a b => [0b10011000#8 ++ a ++ b]
  | .brbs s k => [0b111100#6 ++ k ++ s]
  | .brbc s k => [0b111101#6 ++ k ++ s]
  | .rjmp k => [0b1100#4 ++ k]
  | .jmp k => [wordABS 0b110#3 k, k.extractLsb' 0 16]
  | .ijmp => [0x9409]
  | .eijmp => [0x9419]
  | .rcall k => [0b1101#4 ++ k]
  | .call k => [wordABS 0b111#3 k, k.extractLsb' 0 16]
  | .icall => [0x9509]
  | .eicall => [0x9519]
  | .ret => [0x9508]
  | .reti => [0x9518]
  | .cpse d r => [wordRR 0b000100#6 d r]
  | .sbrc r b => [wordRB 0b1111110#7 r b]
  | .sbrs r b => [wordRB 0b1111111#7 r b]
  | .sbic a b => [0b10011001#8 ++ a ++ b]
  | .sbis a b => [0b10011011#8 ++ a ++ b]
  | .mov d r => [wordRR 0b001011#6 d r]
  | .movw d r => [0b00000001#8 ++ d.pairField ++ r.pairField]
  | .ldi d k => [wordRI 0b1110#4 d k]
  | .ldX d => [wordR1 0b1001000#7 d 0b1100#4]
  | .ldXInc d => [wordR1 0b1001000#7 d 0b1101#4]
  | .ldXDec d => [wordR1 0b1001000#7 d 0b1110#4]
  | .ldYInc d => [wordR1 0b1001000#7 d 0b1001#4]
  | .ldYDec d => [wordR1 0b1001000#7 d 0b1010#4]
  | .ldZInc d => [wordR1 0b1001000#7 d 0b0001#4]
  | .ldZDec d => [wordR1 0b1001000#7 d 0b0010#4]
  | .lddY d q => [wordLSQ 0b0#1 0b1#1 d q]
  | .lddZ d q => [wordLSQ 0b0#1 0b0#1 d q]
  | .lds d k => [wordR1 0b1001000#7 d 0b0000#4, k]
  | .stX r => [wordR1 0b1001001#7 r 0b1100#4]
  | .stXInc r => [wordR1 0b1001001#7 r 0b1101#4]
  | .stXDec r => [wordR1 0b1001001#7 r 0b1110#4]
  | .stYInc r => [wordR1 0b1001001#7 r 0b1001#4]
  | .stYDec r => [wordR1 0b1001001#7 r 0b1010#4]
  | .stZInc r => [wordR1 0b1001001#7 r 0b0001#4]
  | .stZDec r => [wordR1 0b1001001#7 r 0b0010#4]
  | .stdY q r => [wordLSQ 0b1#1 0b1#1 r q]
  | .stdZ q r => [wordLSQ 0b1#1 0b0#1 r q]
  | .sts k r => [wordR1 0b1001001#7 r 0b0000#4, k]
  | .lpm => [0x95C8]
  | .lpmZ d => [wordR1 0b1001000#7 d 0b0100#4]
  | .lpmZInc d => [wordR1 0b1001000#7 d 0b0101#4]
  | .elpm => [0x95D8]
  | .elpmZ d => [wordR1 0b1001000#7 d 0b0110#4]
  | .elpmZInc d => [wordR1 0b1001000#7 d 0b0011#4]
  | .inIo d a => [wordIO 0b10110#5 d a]
  | .outIo a r => [wordIO 0b10111#5 r a]
  | .push r => [wordR1 0b1001001#7 r 0b1111#4]
  | .pop d => [wordR1 0b1001000#7 d 0b1111#4]
  | .mul d r => [wordRR 0b100111#6 d r]
  | .muls d r => [0b00000010#8 ++ d.lowField 4 ++ r.lowField 4]
  | .mulsu d r => [wordM3 0b0#1 0b0#1 d r]
  | .fmul d r => [wordM3 0b0#1 0b1#1 d r]
  | .fmuls d r => [wordM3 0b1#1 0b0#1 d r]
  | .fmulsu d r => [wordM3 0b1#1 0b1#1 d r]
  | .nop => [0x0000]
  | .brk => [0x9598]
  | .sleep => [0x9588]
  | .wdr => [0x95A8]
  | .spm => [0x95E8]
  | .lsl _ | .rol _ | .tst _ | .clr _ | .ser _ | .cbr _ _ | .sbr _ _ | .sec | .sez | .sen | .sev | .ses | .seh
  | .setT | .sei | .clc | .clz | .cln | .clv | .cls | .clh | .clt | .cli | .brcs _ | .brlo _ | .brcc _
  | .brsh _ | .breq _ | .brne _ | .brmi _ | .brpl _ | .brvs _ | .brvc _ | .brlt _ | .brge _ | .brhs _ | .brhc _
  | .brts _ | .brtc _ | .brie _ | .brid _ | .ldY _ | .ldZ _ | .stY _ | .stZ _ => []

/-- The words of a well-formed instruction, the first word first (R100, R109). -/
def encode (i : Instr) : List Word := encodeCore i.base

/-- The bytes of an instruction in program memory (R69). -/
def encodeBytes (i : Instr) : List Byte := (encode i).flatMap bytesOfWord

/-- The first word of an instruction, which the model faults name (R340). -/
def firstWord (i : Instr) : Word := (encode i).headD 0

/-- The option a device must have for the instruction to exist (R6, R125). -/
def Instr.option : Instr → Option Feature
  | .jmp _ | .call _ => some .jmpCall
  | .ijmp | .icall => some .ijmpIcall
  | .movw _ _ => some .movw
  | .mul _ _ | .muls _ _ | .mulsu _ _ | .fmul _ _ | .fmuls _ _ | .fmulsu _ _ => some .mul
  | .lpmZ _ | .lpmZInc _ => some .lpmRd
  | .push _ | .pop _ => some .pushPop
  | .spm => some .spm
  | .eijmp | .eicall | .elpm | .elpmZ _ | .elpmZInc _ => some .extended
  | .add _ _ | .adc _ _ | .adiw _ _ | .sub _ _ | .subi _ _ | .sbc _ _ | .sbci _ _ | .sbiw _ _ | .inc _ | .dec _
  | .neg _ | .com _ | .cp _ _ | .cpc _ _ | .cpi _ _ | .and _ _ | .andi _ _ | .or _ _ | .ori _ _ | .eor _ _
  | .asr _ | .lsr _ | .ror _ | .swap _ | .bld _ _ | .bst _ _ | .bset _ | .bclr _ | .sbi _ _ | .cbi _ _
  | .brbs _ _ | .brbc _ _ | .rjmp _ | .rcall _ | .ret | .reti | .cpse _ _ | .sbrc _ _ | .sbrs _ _ | .sbic _ _
  | .sbis _ _ | .mov _ _ | .ldi _ _ | .ldX _ | .ldXInc _ | .ldXDec _ | .ldYInc _ | .ldYDec _ | .ldZInc _
  | .ldZDec _ | .lddY _ _ | .lddZ _ _ | .lds _ _ | .stX _ | .stXInc _ | .stXDec _ | .stYInc _ | .stYDec _
  | .stZInc _ | .stZDec _ | .stdY _ _ | .stdZ _ _ | .sts _ _ | .lpm | .inIo _ _ | .outIo _ _ | .nop | .brk
  | .sleep | .wdr | .lsl _ | .rol _ | .tst _ | .clr _ | .ser _ | .cbr _ _ | .sbr _ _ | .sec | .sez | .sen
  | .sev | .ses | .seh | .setT | .sei | .clc | .clz | .cln | .clv | .cls | .clh | .clt | .cli | .brcs _
  | .brlo _ | .brcc _ | .brsh _ | .breq _ | .brne _ | .brmi _ | .brpl _ | .brvs _ | .brvc _ | .brlt _ | .brge _
  | .brhs _ | .brhc _ | .brts _ | .brtc _ | .brie _ | .brid _ | .ldY _ | .ldZ _ | .stY _ | .stZ _ => none

/-- Whether a member has the instruction (R125). -/
def Config.hasInstr (c : Config) (i : Instr) : Bool :=
  match i.option with
  | none => true
  | some f => c.has f

end Sys2Proof
end

