-- ==== Sys2Proof/Machine/State.lean ====
section
/-! DEFINITION. The state of the machine, as plain data, the reasons a step can stop, and the machine after reset. -/

namespace Sys2Proof.Machine

/-- Bytes by address, listed with strictly rising addresses and without an entry that equals what an unlisted address
reads as (`Memory.wf`, Sys2Proof.Machine.Ops). -/
abbrev Memory := List Host.Cell

/-- What leaves the core, in program order (R66, R75). I/O register number A is the data address A + $20 (R63).
Assumption 8. -/
inductive OutEvent where
  /-- A device register was read, with the value the device gave. -/
  | ioRead (a : Addr) (v : Byte)
  /-- A device register was written (R66). -/
  | ioWrite (a : Addr) (v : Byte)
  /-- WDR was executed (R333). -/
  | wdr
  /-- Interrupt `n` was entered (R346, R350). -/
  | ack (n : Nat)
deriving DecidableEq, Repr

/-- What the environment does between two steps (R346, R332, R371). Assumption 9. -/
inductive EnvEvent where
  /-- Request `n` is raised and its individual enable bit is set. -/
  | raise (n : Nat)
  /-- Request `n` is withdrawn. -/
  | withdraw (n : Nat)
  /-- `SleepEnabled()` takes a value. -/
  | sleepEnabled (b : Bool)
  /-- A reset (power, pin or watchdog) is applied (R371, R357). -/
  | reset
deriving DecidableEq, Repr

/-- Why a step has no next state: the model faults of R340. No fault is a behaviour of the chip; each says that the spec
gives the situation no meaning, and a faulting step has no effect (R341). All are safe: the machine stops. -/
inductive Fault where
  /-- Raised by the fetch and by the meanings of optional instructions: `w`, fetched at `pc`, is the word of no
  instruction, or of one the member lacks, or is SPM (R124, R125, R334). Safe. -/
  | illegalEncoding (pc : PcWord) (w : Word)
  /-- Raised by the fetch and by a taken skip: word address `a` is outside program memory (R26, R61, R234). Safe. -/
  | fetchOutOfRange (a : PcWord)
  /-- Raised by LPM and ELPM: byte address `b` is outside program memory (R291). Safe. -/
  | progReadOutOfRange (b : Nat)
  /-- Raised by every data-space access, the stack's included: data address `a` holds nothing (R64). Safe. -/
  | unmappedAccess (a : Addr)
  /-- Raised by LD, ST, LPM and ELPM with a pointer update when the data register is in the pointer (R264). Safe. -/
  | undefinedOperands (pc : PcWord) (w : Word)
deriving DecidableEq, Repr

/-- Why a step is refused: situations outside the model. Both are safe: the machine stops. -/
inductive Refusal where
  /-- The instruction has no meaning in the model; raised by no arm of `exec` of this package. Safe. -/
  | notModelled (mnemonic : String)
  /-- Raised by BREAK at `pc` when a debug system is attached: the stopped state and what a debugger does in it are not in
  the source (R331, U6, R360). Assumption 16. Safe. -/
  | debugStop (pc : PcWord)
deriving DecidableEq, Repr

/-- The state (10_state.md, 20_memory.md; INVENTORY.md lists every field with its rule and its reset value). -/
structure State where
  /-- The member of the family (R6). No step changes it. -/
  cfg : Config
  /-- R0 to R31 (R20). -/
  regs : Vector Byte 32
  /-- The program counter, a word address (R25). -/
  pc : PcWord
  /-- The stack pointer, a data address (R27). -/
  sp : Word
  /-- The status register, bits 7..0 = I T H S V N Z C (R31). -/
  sreg : Byte
  /-- RAMPZ (R47). -/
  rampz : Byte
  /-- EIND (R48). -/
  eind : Byte
  /-- `irq_inhibit` (R51, R352). -/
  irqInhibit : Bool
  /-- `sleeping` (R51, R332). -/
  sleeping : Bool
  /-- SRAM, and the I/O registers that are plain storage, by data address (R62, R66). -/
  ram : Memory
  /-- Program memory, by program byte address (R61, R69). -/
  flash : Memory
  /-- The requests that are raised and individually enabled (R346). -/
  pending : List Nat
  /-- What `SleepEnabled()` answers (R332). -/
  sleepEnabled : Bool
  /-- What the environment does before each of the coming steps, the next step's first (the model's own; assumption 9). -/
  env : List (List EnvEvent)
  /-- What has left the core, oldest first (the model's own; assumption 8). -/
  events : List OutEvent
  /-- How many device reads have been answered by a free value (the model's own; assumption 7). -/
  ioDraws : Nat
  /-- Clock cycles of the run (R380, R381; the model's own; assumption 22). -/
  cycles : Nat
deriving DecidableEq, Repr

/-- What a step, or an instruction's meaning, answers. -/
abbrev Result := Host.Outcome State Fault Refusal

/-- The default member right after reset (R52, R370), program memory erased (R372). The values of R0..R31 and SP are
DESIGN CHOICE, unsafe: assumptions 3 and 4. -/
def State.reset : State where
  cfg := Config.default
  regs := Vector.replicate 32 0
  pc := Config.default.resetPc
  sp := Config.default.resetSp
  sreg := 0
  rampz := 0
  eind := 0
  irqInhibit := false
  sleeping := false
  ram := []
  flash := []
  pending := []
  sleepEnabled := true
  env := []
  events := []
  ioDraws := 0
  cycles := 0

end Sys2Proof.Machine
end

