-- ==== Sys2Proof/Machine/Flags.lean ====
section
/-! DEFINITION. The status register: its bits, and the flag formulas of every class of operation (10_state.md, section 5). -/

namespace Sys2Proof.Machine

/-- `v` with bit `i` set to `b` (and unchanged when there is no bit `i`). -/
def putBit {n : Nat} (v : BitVec n) (i : Nat) (b : Bool) : BitVec n :=
  if b then v ||| (1#n <<< i) else v &&& ~~~(1#n <<< i)

/-! Bit numbers of the flags in SREG (R31). -/

/-- Carry (R32). -/
abbrev bitC : Nat := 0
/-- Zero (R33). -/
abbrev bitZ : Nat := 1
/-- Negative (R34). -/
abbrev bitN : Nat := 2
/-- Two's-complement overflow (R35). -/
abbrev bitV : Nat := 3
/-- Sign (R36). -/
abbrev bitS : Nat := 4
/-- Half carry (R37). -/
abbrev bitH : Nat := 5
/-- Transfer (R38). -/
abbrev bitT : Nat := 6
/-- Global interrupt enable (R39). -/
abbrev bitI : Nat := 7

/-- Flag number `i` of the status register. -/
def State.flag (s : State) (i : Nat) : Bool := s.sreg.getLsbD i

/-- V, N, Z written, and S with them as N ^ V (R36). -/
def putSVNZ (sreg : Byte) (v n z : Bool) : Byte :=
  putBit (putBit (putBit (putBit sreg bitS (n ^^ v)) bitV v) bitN n) bitZ z

/-- S, V, N, Z and C written. -/
def putSVNZC (sreg : Byte) (v n z c : Bool) : Byte := putBit (putSVNZ sreg v n z) bitC c

/-- H, S, V, N, Z and C written. -/
def putHSVNZC (sreg : Byte) (h v n z c : Bool) : Byte := putBit (putSVNZC sreg v n z c) bitH h

/-- The carry out of bit `i` of an addition with result `r` (R40, the formula of H at bit 3 and of C at bit 7). -/
def carryAt (i : Nat) (a b r : Byte) : Bool :=
  (a.getLsbD i && b.getLsbD i) || (b.getLsbD i && !r.getLsbD i) || (!r.getLsbD i && a.getLsbD i)

/-- The borrow into bit `i` of a subtraction with result `r` (R41). -/
def borrowAt (i : Nat) (a b r : Byte) : Bool :=
  (!a.getLsbD i && b.getLsbD i) || (b.getLsbD i && r.getLsbD i) || (r.getLsbD i && !a.getLsbD i)

/-- V of an addition (R40). -/
def addOverflow (a b r : Byte) : Bool :=
  (a.getLsbD 7 && b.getLsbD 7 && !r.getLsbD 7) || (!a.getLsbD 7 && !b.getLsbD 7 && r.getLsbD 7)

/-- V of a subtraction (R41). -/
def subOverflow (a b r : Byte) : Bool :=
  (a.getLsbD 7 && !b.getLsbD 7 && !r.getLsbD 7) || (!a.getLsbD 7 && b.getLsbD 7 && r.getLsbD 7)

/-- The addition class (R40). -/
def addFlags (sreg a b r : Byte) : Byte :=
  putHSVNZC sreg (carryAt 3 a b r) (addOverflow a b r) (r.getLsbD 7) (r == 0) (carryAt 7 a b r)

/-- The subtraction class with a plain Z (R41). -/
def subFlags (sreg a b r : Byte) : Byte :=
  putHSVNZC sreg (borrowAt 3 a b r) (subOverflow a b r) (r.getLsbD 7) (r == 0) (borrowAt 7 a b r)

/-- The subtraction class with carry, where Z can only be cleared (R41: SBC, SBCI, CPC). -/
def subCarryFlags (sreg a b r : Byte) : Byte :=
  putHSVNZC sreg (borrowAt 3 a b r) (subOverflow a b r) (r.getLsbD 7) (r == 0 && sreg.getLsbD bitZ) (borrowAt 7 a b r)

/-- The logic class (R42). -/
def logicFlags (sreg r : Byte) : Byte := putSVNZ sreg false (r.getLsbD 7) (r == 0)

/-- COM: the logic class and C set (R42). -/
def comFlags (sreg r : Byte) : Byte := putSVNZC sreg false (r.getLsbD 7) (r == 0) true

/-- The right-shift class: `c` is the bit shifted out, V = N ^ C (R43). -/
def shiftFlags (sreg r : Byte) (c : Bool) : Byte := putSVNZC sreg (r.getLsbD 7 ^^ c) (r.getLsbD 7) (r == 0) c

/-- ADIW (R44). -/
def adiwFlags (sreg : Byte) (w r : Word) : Byte :=
  putSVNZC sreg (!w.getLsbD 15 && r.getLsbD 15) (r.getLsbD 15) (r == 0) (!r.getLsbD 15 && w.getLsbD 15)

/-- SBIW (R44). -/
def sbiwFlags (sreg : Byte) (w r : Word) : Byte :=
  putSVNZC sreg (w.getLsbD 15 && !r.getLsbD 15) (r.getLsbD 15) (r == 0) (r.getLsbD 15 && !w.getLsbD 15)

/-- INC (R45). -/
def incFlags (sreg r : Byte) : Byte := putSVNZ sreg (r == 0x80) (r.getLsbD 7) (r == 0)

/-- DEC (R45). -/
def decFlags (sreg r : Byte) : Byte := putSVNZ sreg (r == 0x7F) (r.getLsbD 7) (r == 0)

/-- The multiply instructions: Z from the 16 bits written, C the bit the rule names (R320, R324). -/
def mulFlags (sreg : Byte) (r : Word) (c : Bool) : Byte := putBit (putBit sreg bitZ (r == 0)) bitC c

end Sys2Proof.Machine
end

