-- ==== Sys2Proof/Machine/Ops.lean ====
section
/-! DEFINITION. The named operations over registers, memory, the I/O space, the data space, program memory, the stack and
the program counter; interrupt entry, the return from it, and reset. -/

namespace Sys2Proof.Machine

/-! Sparse memory. -/

/-- What the list holds at an address. -/
def Memory.lookup : Memory → Nat → Option Byte
  | [], _ => none
  | (k, v) :: m, a => if k = a then some v else Memory.lookup m a

/-- The list with `v` at address `a`, in its place. -/
def Memory.insert : Memory → Nat → Byte → Memory
  | [], a, v => [(a, v)]
  | (k, u) :: m, a, v =>
    if a < k then (a, v) :: (k, u) :: m
    else if a = k then (a, v) :: m
    else (k, u) :: Memory.insert m a v

/-- The list without address `a`. -/
def Memory.erase : Memory → Nat → Memory
  | [], _ => []
  | (k, u) :: m, a => if k = a then m else (k, u) :: Memory.erase m a

/-- The byte at an address, `dflt` where none is listed. -/
def Memory.read (dflt : Option Byte) (m : Memory) (a : Nat) : Option Byte :=
  match Memory.lookup m a with
  | some v => some v
  | none => dflt

/-- A write keeps the canonical form: writing what an unlisted address reads as removes the entry. -/
def Memory.write (dflt : Option Byte) (m : Memory) (a : Nat) (v : Byte) : Memory :=
  if dflt = some v then Memory.erase m a else Memory.insert m a v

/-- The canonical form: addresses strictly rising, no entry equal to what an unlisted address reads as. -/
def Memory.wf (dflt : Option Byte) (m : Memory) : Bool :=
  decide (m.Pairwise (fun x y => x.1 < y.1)) && m.all (fun cell => dflt != some cell.2)

/-- An unlisted data address: nothing has written it (R52, assumption 6). -/
def ramUnlisted : Option Byte := none

/-- An unlisted byte of program memory is erased (R52, R372). -/
def flashUnlisted : Option Byte := some 0xFF

/-! Registers. -/

/-- `x[i]` (R12). -/
def State.reg (s : State) (r : Reg) : Byte := s.regs[r.val]'r.isLt

/-- `x[i] <- v` (R12). -/
def State.setReg (s : State) (r : Reg) (v : Byte) : State := { s with regs := s.regs.set r.val v r.isLt }

/-- The pair `x[d+1:d]` (R12, R23). -/
def State.pair (s : State) (d : Reg) : Word := s.reg (d + 1) ++ s.reg d

/-- `x[d+1:d] <- v` (R12, R23). -/
def State.setPair (s : State) (d : Reg) (v : Word) : State :=
  (s.setReg d (v.extractLsb' 0 8)).setReg (d + 1) (v.extractLsb' 8 8)

/-- SREG replaced. -/
def State.setSreg (s : State) (v : Byte) : State := { s with sreg := v }

/-- A word address modulo `2^PC_BITS` (R26). -/
def wrapPc (c : Config) (a : PcWord) : PcWord :=
  match c.pcWidth with
  | .pc16 => (a.setWidth 16).setWidth 22
  | .pc22 => a

/-- `pc <- target`, modulo `2^PC_BITS` (R12, R26). -/
def State.setPc (s : State) (a : PcWord) : State := { s with pc := wrapPc s.cfg a }

/-- A stack pointer modulo `2^SP_BITS` (R27). -/
def wrapSp (c : Config) (v : Word) : Word := v &&& ((1#16 <<< c.spBits) - 1#16)

/-- `SP <- v`, modulo `2^SP_BITS` (R27). -/
def State.setSp (s : State) (v : Word) : State := { s with sp := wrapSp s.cfg v }

/-- `n` clock cycles go by (R380). -/
def State.tick (s : State) (n : Nat) : State := { s with cycles := s.cycles + n }

/-- `pc <- pc + n` (R16) and the instruction's cycles. -/
def State.advance (s : State) (words cycles : Nat) : State :=
  (s.setPc (s.pc + BitVec.ofNat 22 words)).tick cycles

/-- `pc <- target` and the instruction's cycles. -/
def State.jump (s : State) (target : PcWord) (cycles : Nat) : State := (s.setPc target).tick cycles

/-- An output event (R66). -/
def State.emit (s : State) (e : OutEvent) : State := { s with events := s.events ++ [e] }

/-! The I/O space. -/

/-- A core register that is visible in the I/O space (R67). -/
inductive CoreIo where
  | rampz
  | eind
  | spl
  | sph
  | sreg
deriving DecidableEq, Repr

/-- The core register with an I/O number; EIND and RAMPZ exist with HAS_EXTENDED (R67). -/
def coreIo (c : Config) (a : BitVec 6) : Option CoreIo :=
  if a = 0x3F then some .sreg
  else if a = 0x3E then some .sph
  else if a = 0x3D then some .spl
  else if a = 0x3C ∧ c.hasExtended then some .eind
  else if a = 0x3B ∧ c.hasExtended then some .rampz
  else none

/-- The value of a core register, all 8 bits (R67). -/
def coreIoRead (s : State) : CoreIo → Byte
  | .rampz => s.rampz
  | .eind => s.eind
  | .spl => s.sp.extractLsb' 0 8
  | .sph => s.sp.extractLsb' 8 8
  | .sreg => s.sreg

/-- A write of a core register, all 8 bits, with no side effect (R67). -/
def coreIoWrite (s : State) (v : Byte) : CoreIo → State
  | .rampz => { s with rampz := v }
  | .eind => { s with eind := v }
  | .spl => s.setSp (s.sp.extractLsb' 8 8 ++ v)
  | .sph => s.setSp (v ++ s.sp.extractLsb' 0 8)
  | .sreg => s.setSreg v

/-- The byte at a data address of `ram`: what was written last, or the free power-on value (R52, R74, assumption 6). -/
def State.ramByte (s : State) (a : Addr) : Byte :=
  (Memory.read ramUnlisted s.ram a.toNat).getD (Config.ramInit a)

/-- A byte stored to `ram`. -/
def State.setRam (s : State) (a : Addr) (v : Byte) : State :=
  { s with ram := Memory.write ramUnlisted s.ram a.toNat v }

/-- Whether the platform instantiates the register at a data address as plain storage (R66). -/
def isStorage (c : Config) (a : Addr) : Bool := c.ioStorage.contains a.toNat

/-- A read of a device register at a data address: the last write where the platform says storage, otherwise whatever the
environment answers (R66, assumption 7). -/
def deviceRead (a : Addr) (s : State) : Byte × State :=
  if isStorage s.cfg a then (s.ramByte a, s.emit (.ioRead a (s.ramByte a)))
  else
    let v := Config.ioDraw s.ioDraws a
    (v, { s with ioDraws := s.ioDraws + 1 }.emit (.ioRead a v))

/-- A write of a device register at a data address: an output event, and a store where the platform says storage (R66). -/
def deviceWrite (a : Addr) (v : Byte) (s : State) : State :=
  let t := s.emit (.ioWrite a v)
  if isStorage s.cfg a then t.setRam a v else t

/-- The data address of an I/O register: A + $20 (R63, R304). -/
def ioAddr (a : BitVec 6) : Addr := a.setWidth 16 + 0x20

/-- `IORead(A)` (R13, R66, R67). -/
def ioRead (a : BitVec 6) (s : State) : Byte × State :=
  match coreIo s.cfg a with
  | some r => (coreIoRead s r, s)
  | none => deviceRead (ioAddr a) s

/-- `IOWrite(A, v)` (R13, R66, R67). -/
def ioWrite (a : BitVec 6) (v : Byte) (s : State) : State :=
  match coreIo s.cfg a with
  | some r => coreIoWrite s v r
  | none => deviceWrite (ioAddr a) v s

/-! The data space. -/

/-- What a data address names (R63). -/
inductive Place where
  | register (r : Reg)
  | io (a : BitVec 6)
  | device
  | sram
  | nothing
deriving DecidableEq, Repr

/-- The data-space map (R63, R64). -/
def place (c : Config) (a : Addr) : Place :=
  if a.toNat < 0x20 then .register (a.setWidth 5).toFin
  else if a.toNat < 0x60 then .io ((a - 0x20).setWidth 6)
  else if a.toNat < c.ramStart then (if c.extendedIo.contains a.toNat then .device else .nothing)
  else if a.toNat ≤ c.ramEnd then .sram
  else .nothing

/-- `MemRead(addr, 1)`: the byte and the state after the access (R13, R63, R64). -/
def memRead (a : Addr) (s : State) : Except Fault (Byte × State) :=
  match place s.cfg a with
  | .register r => .ok (s.reg r, s)
  | .io n => .ok (ioRead n s)
  | .device => .ok (deviceRead a s)
  | .sram => .ok (s.ramByte a, s)
  | .nothing => .error (.unmappedAccess a)

/-- `MemWrite(addr, 1, v)` (R13, R63, R64). -/
def memWrite (a : Addr) (v : Byte) (s : State) : Except Fault State :=
  match place s.cfg a with
  | .register r => .ok (s.setReg r v)
  | .io n => .ok (ioWrite n v s)
  | .device => .ok (deviceWrite a v s)
  | .sram => .ok (s.setRam a v)
  | .nothing => .error (.unmappedAccess a)

/-! Program memory. -/

/-- A byte of program memory, without the range check. -/
def flashByte (s : State) (b : Nat) : Byte := (Memory.read flashUnlisted s.flash b).getD 0xFF

/-- `ProgWord(a)`; none outside program memory (R13, R61, R69). -/
def progWord (s : State) (a : PcWord) : Option Word :=
  if a.toNat < s.cfg.flashWords then some (wordOfBytes (flashByte s (2 * a.toNat)) (flashByte s (2 * a.toNat + 1)))
  else none

/-- `ProgByte(b)` as a data read (R69, R291). -/
def progByte (s : State) (b : Nat) : Except Fault Byte :=
  if b / 2 < s.cfg.flashWords then .ok (flashByte s b) else .error (.progReadOutOfRange b)

/-- A word stored to program memory from outside the machine: no instruction does this (R78, R372, assumption 23). -/
def loadWord (s : State) (a : PcWord) (w : Word) : State :=
  { s with
    flash := Memory.write flashUnlisted (Memory.write flashUnlisted s.flash (2 * a.toNat) (w.extractLsb' 0 8))
      (2 * a.toNat + 1) (w.extractLsb' 8 8) }

/-! The stack. -/

/-- `Push8(v)`: the byte is stored, then SP falls by 1 (R28). -/
def push8 (v : Byte) (s : State) : Except Fault State :=
  match memWrite s.sp v s with
  | .error f => .error f
  | .ok t => .ok (t.setSp (t.sp - 1))

/-- `Pop8()`: SP rises by 1, then the byte is read (R28). -/
def pop8 (s : State) : Except Fault (Byte × State) :=
  let t := s.setSp (s.sp + 1)
  memRead t.sp t

/-- Several bytes pushed, the first of the list first. -/
def pushBytes : List Byte → State → Except Fault State
  | [], s => .ok s
  | v :: vs, s =>
    match push8 v s with
    | .error f => .error f
    | .ok t => pushBytes vs t

/-- The bytes of a return address in the order they are pushed: two or three by `PC_BITS` (R29). -/
def returnBytes (c : Config) (ra : PcWord) : List Byte :=
  match c.pcWidth with
  | .pc16 => [ra.extractLsb' 0 8, ra.extractLsb' 8 8]
  | .pc22 => [ra.extractLsb' 0 8, ra.extractLsb' 8 8, (ra.extractLsb' 16 6).setWidth 8]

/-- `PushPC(ra)` (R29). -/
def pushPc (ra : PcWord) (s : State) : Except Fault State := pushBytes (returnBytes s.cfg ra) s

/-- `h ++ l` popped (R30). -/
def popWord (s : State) : Except Fault (Word × State) :=
  match pop8 s with
  | .error f => .error f
  | .ok (h, t) =>
    match pop8 t with
    | .error f => .error f
    | .ok (l, u) => .ok (h ++ l, u)

/-- `PopPC()` (R30): the bits above `PC_BITS` are dropped. -/
def popPc (s : State) : Except Fault (PcWord × State) :=
  match s.cfg.pcWidth with
  | .pc16 =>
    match popWord s with
    | .error f => .error f
    | .ok (w, t) => .ok (w.setWidth 22, t)
  | .pc22 =>
    match pop8 s with
    | .error f => .error f
    | .ok (e, t) =>
      match popWord t with
      | .error f => .error f
      | .ok (w, u) => .ok (e.extractLsb' 0 6 ++ w, u)

/-! Control. -/

/-- The address of the following instruction of a one-word instruction. -/
def State.nextPc (s : State) : PcWord := wrapPc s.cfg (s.pc + 1)

/-- `Skip(cond)`: the next word is read only when the skip is taken (R234, N23); 1, 2 or 3 cycles (R380). -/
def skip (cond : Bool) (s : State) : Result :=
  match progWord s s.nextPc with
  | some w =>
    let n := if cond then 1 + wordCount w else 1
    .next (s.advance n n)
  | none => if cond then .fault (.fetchOutOfRange s.nextPc) else .next (s.advance 1 1)

/-- A result from an operation that may fault. -/
def finish (x : Except Fault State) (k : State → State) : Result :=
  match x with
  | .error f => .fault f
  | .ok t => .next (k t)

/-- A call: `PushPC(ra)`, then `pc <- target`; one cycle more with a 22-bit program counter (R228 to R231, R380). -/
def callTo (ra target : PcWord) (cycles16 cycles22 : Nat) (s : State) : Result :=
  finish (pushPc ra s) (fun t => t.jump target (match s.cfg.pcWidth with | .pc16 => cycles16 | .pc22 => cycles22))

/-- An optional instruction: without its option it is an illegal encoding (R125). -/
def ifPresent (i : Instr) (s : State) (r : Result) : Result :=
  if s.cfg.hasInstr i then r else .fault (.illegalEncoding s.pc (firstWord i))

/-! Interrupts and reset. -/

/-- `ack(n)`: the environment is told, and clears the request where the member says so (R346, assumption 10). -/
def acknowledge (n : Nat) (s : State) : State :=
  let t := s.emit (.ack n)
  if s.cfg.ackClears.contains n then { t with pending := t.pending.erase n } else t

/-- `InterruptEntry(n)` (R350): the one way an interrupt is taken. -/
def interruptEntry (n : Nat) (s : State) : Result :=
  finish (pushPc s.pc { s with sleeping := false }) (fun t =>
    (acknowledge n (t.setSreg (putBit t.sreg bitI false))).jump (BitVec.ofNat 22 (n * s.cfg.vectorStride))
      s.cfg.irqEntryCycles)

/-- The return from a subroutine or an interrupt: `pc <- PopPC()`, then `after` (R232, R233). -/
def returnWith (after : State → State) (s : State) : Result :=
  match popPc s with
  | .error f => .fault f
  | .ok (a, t) => .next (after (t.jump a (match s.cfg.pcWidth with | .pc16 => 4 | .pc22 => 5)))

/-- The return from an interrupt sets I and `irq_inhibit` and restores nothing but the program counter (R233, R351). -/
def returnFromInterrupt (s : State) : Result :=
  returnWith (fun t => { t.setSreg (putBit t.sreg bitI true) with irqInhibit := true }) s

/-- `Reset` (R370, R371): registers, memories and the run's own records stay. Assumption 13. -/
def applyReset (s : State) : State :=
  { (s.setPc s.cfg.resetPc).setSp s.cfg.resetSp with
    sreg := 0, rampz := 0, eind := 0, irqInhibit := false, sleeping := false }

end Sys2Proof.Machine
end

