-- ==== Sys2Proof/Machine/Operands.lean ====
section
/-! DEFINITION. The operand forms: pointer registers and the addressing modes of loads and stores (R24, R263, R264), the
program byte addresses of LPM and ELPM (R290, R295), the targets of branches and jumps (R106, R107, R220). -/

namespace Sys2Proof.Machine

/-- A pointer register (R24). -/
inductive Ptr where
  | x
  | y
  | z
deriving DecidableEq, Repr

/-- The low register of a pointer: XL = R26, YL = R28, ZL = R30 (R24). -/
def Ptr.low : Ptr → Reg
  | .x => 26
  | .y => 28
  | .z => 30

/-- The value of a pointer. -/
def State.ptr (s : State) (p : Ptr) : Addr := s.pair p.low

/-- A pointer written. -/
def State.setPtr (s : State) (p : Ptr) (v : Addr) : State := s.setPair p.low v

/-- Whether a data register is one half of a pointer (R264). -/
def Ptr.holds (p : Ptr) (d : Reg) : Bool := d == p.low || d == p.low + 1

/-- The address of the displacement mode, modulo 65536 (R263, R80). -/
def dispAddr (p : Ptr) (q : BitVec 6) (s : State) : Addr := s.ptr p + q.setWidth 16

/-- `x[d] <- MemRead(a, 1)`, then `upd`, then on to the next instruction. -/
def loadByte (d : Reg) (a : Addr) (words : Nat) (upd : State → State) (s : State) : Result :=
  match memRead a s with
  | .error f => .fault f
  | .ok (v, t) => .next ((upd (t.setReg d v)).advance words 2)

/-- `MemWrite(a, 1, x[r])`, then `upd`, then on to the next instruction. -/
def storeByte (r : Reg) (a : Addr) (words : Nat) (upd : State → State) (s : State) : Result :=
  finish (memWrite a (s.reg r) s) (fun t => (upd t).advance words 2)

/-- A form that updates a pointer has no meaning when the data register is in the pointer (R264, assumption 17). -/
def ifDisjoint (p : Ptr) (d : Reg) (i : Instr) (s : State) (r : Result) : Result :=
  if p.holds d then .fault (.undefinedOperands s.pc (firstWord i)) else r

/-- A load at P, then P <- P + 1 (R263). -/
def loadInc (p : Ptr) (d : Reg) (i : Instr) (s : State) : Result :=
  ifDisjoint p d i s (loadByte d (s.ptr p) 1 (fun t => t.setPtr p (s.ptr p + 1)) s)

/-- A load at P - 1, P <- P - 1 (R263). -/
def loadDec (p : Ptr) (d : Reg) (i : Instr) (s : State) : Result :=
  ifDisjoint p d i s (loadByte d (s.ptr p - 1) 1 (fun t => t.setPtr p (s.ptr p - 1)) s)

/-- A store at P, then P <- P + 1 (R263). -/
def storeInc (p : Ptr) (r : Reg) (i : Instr) (s : State) : Result :=
  ifDisjoint p r i s (storeByte r (s.ptr p) 1 (fun t => t.setPtr p (s.ptr p + 1)) s)

/-- A store at P - 1, P <- P - 1 (R263). -/
def storeDec (p : Ptr) (r : Reg) (i : Instr) (s : State) : Result :=
  ifDisjoint p r i s (storeByte r (s.ptr p - 1) 1 (fun t => t.setPtr p (s.ptr p - 1)) s)

/-- The program byte address `RAMPZ ++ Z` (R295). -/
def State.extZ (s : State) : BitVec 24 := s.rampz ++ s.ptr .z

/-- `RAMPZ` and `Z` written from a 24-bit address (R298). -/
def State.setExtZ (s : State) (a : BitVec 24) : State :=
  { s with rampz := a.extractLsb' 16 8 }.setPtr .z (a.extractLsb' 0 16)

/-- `x[d] <- ProgByte(b)`, then `upd`, then on to the next instruction (R290). -/
def loadProg (d : Reg) (b : Nat) (upd : State → State) (s : State) : Result :=
  match progByte s b with
  | .error f => .fault f
  | .ok v => .next ((upd (s.setReg d v)).advance 1 3)

/-- The target of a relative branch, jump or call: `pc + 1 + k`, `k` signed (R106, R220). -/
def relTarget {n : Nat} (s : State) (k : BitVec n) : PcWord := s.pc + 1 + k.signExtend 22

/-- The target of IJMP and ICALL: `Z`, the upper bits 0 (R226). -/
def State.zTarget (s : State) : PcWord := (s.ptr .z).setWidth 22

/-- The target of EIJMP and EICALL: `EIND[5:0] ++ Z` (R227). -/
def State.extTarget (s : State) : PcWord := s.eind.extractLsb' 0 6 ++ s.ptr .z

end Sys2Proof.Machine
end

