-- ==== Sys2Proof/Machine/Arith.lean ====
section
/-! DEFINITION. Arithmetic and compare instructions (40_arithmetic.md): the shared operations, then one meaning each. -/

namespace Sys2Proof.Machine

/-- `x[d] <- v`, SREG written, on to the next instruction, one cycle (R140, R380). -/
def writeResult (d : Reg) (v sreg : Byte) (s : State) : Result :=
  .next (((s.setReg d v).setSreg sreg).advance 1 1)

/-- SREG written and no register: the compares (R153 to R155). -/
def writeFlags (sreg : Byte) (s : State) : Result := .next ((s.setSreg sreg).advance 1 1)

/-- The carry flag as a number (R32). -/
def State.carry (s : State) : Byte := if s.flag bitC then 1 else 0

/-- `x[d] <- a + b + c` with the flags of an addition (R40, R141, R142). -/
def addTo (d : Reg) (a b c : Byte) (s : State) : Result :=
  writeResult d (a + b + c) (addFlags s.sreg a b (a + b + c)) s

/-- `x[d] <- a - b` with the flags of a subtraction, Z plain (R41, R144). -/
def subTo (d : Reg) (a b : Byte) (s : State) : Result :=
  writeResult d (a - b) (subFlags s.sreg a b (a - b)) s

/-- `x[d] <- a - b - C` with the flags of a subtraction with carry (R41, R146). -/
def subCarryTo (d : Reg) (a b : Byte) (s : State) : Result :=
  writeResult d (a - b - s.carry) (subCarryFlags s.sreg a b (a - b - s.carry)) s

/-- The pair written, SREG written, on to the next instruction, two cycles (R143, R148). -/
def writeWord (d : Reg) (v : Word) (sreg : Byte) (s : State) : Result :=
  .next (((s.setPair d v).setSreg sreg).advance 1 2)

/-- ADD (R141). -/
def execAdd (d r : Reg) (s : State) : Result := addTo d (s.reg d) (s.reg r) 0 s

/-- ADC (R142). -/
def execAdc (d r : Reg) (s : State) : Result := addTo d (s.reg d) (s.reg r) s.carry s

/-- ADIW (R143). -/
def execAdiw (d : Reg) (k : BitVec 6) (s : State) : Result :=
  writeWord d (s.pair d + k.setWidth 16) (adiwFlags s.sreg (s.pair d) (s.pair d + k.setWidth 16)) s

/-- SUB (R144). -/
def execSub (d r : Reg) (s : State) : Result := subTo d (s.reg d) (s.reg r) s

/-- SUBI (R145). -/
def execSubi (d : Reg) (k : Byte) (s : State) : Result := subTo d (s.reg d) k s

/-- SBC (R146). -/
def execSbc (d r : Reg) (s : State) : Result := subCarryTo d (s.reg d) (s.reg r) s

/-- SBCI (R147). -/
def execSbci (d : Reg) (k : Byte) (s : State) : Result := subCarryTo d (s.reg d) k s

/-- SBIW (R148). -/
def execSbiw (d : Reg) (k : BitVec 6) (s : State) : Result :=
  writeWord d (s.pair d - k.setWidth 16) (sbiwFlags s.sreg (s.pair d) (s.pair d - k.setWidth 16)) s

/-- INC (R149). -/
def execInc (d : Reg) (s : State) : Result := writeResult d (s.reg d + 1) (incFlags s.sreg (s.reg d + 1)) s

/-- DEC (R150). -/
def execDec (d : Reg) (s : State) : Result := writeResult d (s.reg d - 1) (decFlags s.sreg (s.reg d - 1)) s

/-- NEG: the subtraction `0 - x[d]` (R151). -/
def execNeg (d : Reg) (s : State) : Result := subTo d 0 (s.reg d) s

/-- COM (R152). -/
def execCom (d : Reg) (s : State) : Result := writeResult d (~~~(s.reg d)) (comFlags s.sreg (~~~(s.reg d))) s

/-- CP (R153). -/
def execCp (d r : Reg) (s : State) : Result :=
  writeFlags (subFlags s.sreg (s.reg d) (s.reg r) (s.reg d - s.reg r)) s

/-- CPC (R154). -/
def execCpc (d r : Reg) (s : State) : Result :=
  writeFlags (subCarryFlags s.sreg (s.reg d) (s.reg r) (s.reg d - s.reg r - s.carry)) s

/-- CPI (R155). -/
def execCpi (d : Reg) (k : Byte) (s : State) : Result := writeFlags (subFlags s.sreg (s.reg d) k (s.reg d - k)) s

end Sys2Proof.Machine
end

