-- ==== Sys2Proof/Machine/Logic.lean ====
section
/-! DEFINITION. Logic instructions (41_logic.md), with the alias rows TST, CLR, CBR, SBR and SER. -/

namespace Sys2Proof.Machine

/-- `x[d] <- v` with the flags of the logic class (R42, R170). -/
def logicTo (d : Reg) (v : Byte) (s : State) : Result := writeResult d v (logicFlags s.sreg v) s

/-- `x[d] <- v`, no flag changes, on to the next instruction, one cycle. -/
def writeReg (d : Reg) (v : Byte) (s : State) : Result := .next ((s.setReg d v).advance 1 1)

/-- AND (R171). -/
def execAnd (d r : Reg) (s : State) : Result := logicTo d (s.reg d &&& s.reg r) s

/-- ANDI (R172). -/
def execAndi (d : Reg) (k : Byte) (s : State) : Result := logicTo d (s.reg d &&& k) s

/-- OR (R173). -/
def execOr (d r : Reg) (s : State) : Result := logicTo d (s.reg d ||| s.reg r) s

/-- ORI (R174). -/
def execOri (d : Reg) (k : Byte) (s : State) : Result := logicTo d (s.reg d ||| k) s

/-- EOR (R175). -/
def execEor (d r : Reg) (s : State) : Result := logicTo d (s.reg d ^^^ s.reg r) s

/-- TST (R176): AND of the register with itself. -/
def execTst (d : Reg) (s : State) : Result := logicTo d (s.reg d &&& s.reg d) s

/-- CLR (R177): EOR of the register with itself. -/
def execClr (d : Reg) (s : State) : Result := logicTo d (s.reg d ^^^ s.reg d) s

/-- CBR (R178): ANDI with the complement of the mask. -/
def execCbr (d : Reg) (k : Byte) (s : State) : Result := logicTo d (s.reg d &&& (0xFF - k)) s

/-- SBR (R179): ORI with the mask. -/
def execSbr (d : Reg) (k : Byte) (s : State) : Result := logicTo d (s.reg d ||| k) s

/-- SER (R180): LDI with $FF. -/
def execSer (d : Reg) (s : State) : Result := writeReg d 0xFF s

end Sys2Proof.Machine
end

