-- ==== Sys2Proof/Machine/ShiftBit.lean ====
section
/-! DEFINITION. Shift, rotate, nibble and bit instructions (42_shift_bit.md), with the alias rows LSL, ROL, SExx and
CLxx. -/

namespace Sys2Proof.Machine

/-- `x[d] <- v` with the flags of a right shift; the bit shifted out is bit 0 of the old register (R43). -/
def shiftTo (d : Reg) (v : Byte) (s : State) : Result :=
  writeResult d v (shiftFlags s.sreg v ((s.reg d).getLsbD 0)) s

/-- Flag `i` set; setting I from 0 to 1 sets `irq_inhibit` (R200, R352). -/
def setFlag (i : Nat) (s : State) : Result :=
  .next ({ s.setSreg (putBit s.sreg i true) with irqInhibit := s.irqInhibit || (i == bitI && !s.flag bitI) }.advance 1 1)

/-- Flag `i` cleared (R201). -/
def clearFlag (i : Nat) (s : State) : Result := writeFlags (putBit s.sreg i false) s

/-- One read and one write of the whole byte of an I/O register, in this order, two cycles (R74, R204, R205). -/
def modifyIo (a : BitVec 5) (f : Byte → Byte) (s : State) : Result :=
  let x := ioRead (a.setWidth 6) s
  .next ((ioWrite (a.setWidth 6) (f x.1) x.2).advance 1 2)

/-- ASR (R191). -/
def execAsr (d : Reg) (s : State) : Result := shiftTo d ((s.reg d).sshiftRight 1) s

/-- LSR (R192). -/
def execLsr (d : Reg) (s : State) : Result := shiftTo d (s.reg d >>> 1) s

/-- ROR (R193). -/
def execRor (d : Reg) (s : State) : Result := shiftTo d (putBit (s.reg d >>> 1) 7 (s.flag bitC)) s

/-- LSL (R194): ADD of the register to itself. -/
def execLsl (d : Reg) (s : State) : Result := addTo d (s.reg d) (s.reg d) 0 s

/-- ROL (R195): ADC of the register to itself. -/
def execRol (d : Reg) (s : State) : Result := addTo d (s.reg d) (s.reg d) s.carry s

/-- SWAP (R196). -/
def execSwap (d : Reg) (s : State) : Result :=
  writeReg d ((s.reg d).extractLsb' 0 4 ++ (s.reg d).extractLsb' 4 4) s

/-- BLD (R198). -/
def execBld (d : Reg) (b : BitVec 3) (s : State) : Result := writeReg d (putBit (s.reg d) b.toNat (s.flag bitT)) s

/-- BST (R199). -/
def execBst (d : Reg) (b : BitVec 3) (s : State) : Result :=
  writeFlags (putBit s.sreg bitT ((s.reg d).getLsbD b.toNat)) s

/-- BSET (R200). -/
def execBset (b : BitVec 3) (s : State) : Result := setFlag b.toNat s

/-- BCLR (R201). -/
def execBclr (b : BitVec 3) (s : State) : Result := clearFlag b.toNat s

/-- SBI (R204). -/
def execSbi (a : BitVec 5) (b : BitVec 3) (s : State) : Result := modifyIo a (fun v => putBit v b.toNat true) s

/-- CBI (R205). -/
def execCbi (a : BitVec 5) (b : BitVec 3) (s : State) : Result := modifyIo a (fun v => putBit v b.toNat false) s

/-- SEC (R202): BSET 0. -/
def execSec (s : State) : Result := setFlag bitC s

/-- SEZ (R202): BSET 1. -/
def execSez (s : State) : Result := setFlag bitZ s

/-- SEN (R202): BSET 2. -/
def execSen (s : State) : Result := setFlag bitN s

/-- SEV (R202): BSET 3. -/
def execSev (s : State) : Result := setFlag bitV s

/-- SES (R202): BSET 4. -/
def execSes (s : State) : Result := setFlag bitS s

/-- SEH (R202): BSET 5. -/
def execSeh (s : State) : Result := setFlag bitH s

/-- SET (R202): BSET 6. -/
def execSetT (s : State) : Result := setFlag bitT s

/-- SEI (R202): BSET 7. -/
def execSei (s : State) : Result := setFlag bitI s

/-- CLC (R203): BCLR 0. -/
def execClc (s : State) : Result := clearFlag bitC s

/-- CLZ (R203): BCLR 1. -/
def execClz (s : State) : Result := clearFlag bitZ s

/-- CLN (R203): BCLR 2. -/
def execCln (s : State) : Result := clearFlag bitN s

/-- CLV (R203): BCLR 3. -/
def execClv (s : State) : Result := clearFlag bitV s

/-- CLS (R203): BCLR 4. -/
def execCls (s : State) : Result := clearFlag bitS s

/-- CLH (R203): BCLR 5. -/
def execClh (s : State) : Result := clearFlag bitH s

/-- CLT (R203): BCLR 6. -/
def execClt (s : State) : Result := clearFlag bitT s

/-- CLI (R203): BCLR 7. -/
def execCli (s : State) : Result := clearFlag bitI s

end Sys2Proof.Machine
end

