-- ==== Sys2Proof/Machine/Branch.lean ====
section
/-! DEFINITION. Branches, jumps, calls, returns and skips (43_branch.md), with the 18 alias rows BRxx. -/

namespace Sys2Proof.Machine

/-- `pc <- pc + 1 + k` when the condition holds, else `pc <- pc + 1`; two cycles taken, one not (R221, R222, R380). -/
def branchIf (cond : Bool) (k : BitVec 7) (s : State) : Result :=
  if cond then .next (s.jump (relTarget s k) 2) else .next (s.advance 1 1)

/-- BRBS (R221). -/
def execBrbs (b : BitVec 3) (k : BitVec 7) (s : State) : Result := branchIf (s.flag b.toNat) k s

/-- BRBC (R222). -/
def execBrbc (b : BitVec 3) (k : BitVec 7) (s : State) : Result := branchIf (!s.flag b.toNat) k s

/-- RJMP (R224). -/
def execRjmp (k : BitVec 12) (s : State) : Result := .next (s.jump (relTarget s k) 2)

/-- JMP (R225): the bits of k above `PC_BITS` are dropped by the write of the program counter. -/
def execJmp (k : PcWord) (s : State) : Result := ifPresent (.jmp k) s (.next (s.jump k 3))

/-- IJMP (R226). -/
def execIjmp (s : State) : Result := ifPresent .ijmp s (.next (s.jump s.zTarget 2))

/-- EIJMP (R227). -/
def execEijmp (s : State) : Result := ifPresent .eijmp s (.next (s.jump s.extTarget 2))

/-- RCALL (R228). -/
def execRcall (k : BitVec 12) (s : State) : Result := callTo (wrapPc s.cfg (s.pc + 1)) (relTarget s k) 3 4 s

/-- CALL (R229). -/
def execCall (k : PcWord) (s : State) : Result := ifPresent (.call k) s (callTo (wrapPc s.cfg (s.pc + 2)) k 4 5 s)

/-- ICALL (R230): Z is read before the push. -/
def execIcall (s : State) : Result := ifPresent .icall s (callTo (wrapPc s.cfg (s.pc + 1)) s.zTarget 3 4 s)

/-- EICALL (R231), four cycles (R380). EIND and Z are read before the push, as R230 says of ICALL (assumption 28). -/
def execEicall (s : State) : Result := ifPresent .eicall s (callTo (wrapPc s.cfg (s.pc + 1)) s.extTarget 4 4 s)

/-- RET (R232). -/
def execRet (s : State) : Result := returnWith (fun t => t) s

/-- RETI (R233). -/
def execReti (s : State) : Result := returnFromInterrupt s

/-- CPSE (R235). -/
def execCpse (d r : Reg) (s : State) : Result := skip (s.reg d == s.reg r) s

/-- SBRC (R236). -/
def execSbrc (r : Reg) (b : BitVec 3) (s : State) : Result := skip (!(s.reg r).getLsbD b.toNat) s

/-- SBRS (R237). -/
def execSbrs (r : Reg) (b : BitVec 3) (s : State) : Result := skip ((s.reg r).getLsbD b.toNat) s

/-- SBIC (R238). -/
def execSbic (a : BitVec 5) (b : BitVec 3) (s : State) : Result :=
  let x := ioRead (a.setWidth 6) s
  skip (!x.1.getLsbD b.toNat) x.2

/-- SBIS (R239). -/
def execSbis (a : BitVec 5) (b : BitVec 3) (s : State) : Result :=
  let x := ioRead (a.setWidth 6) s
  skip (x.1.getLsbD b.toNat) x.2

/-- BRCS (R223): BRBS 0. -/
def execBrcs (k : BitVec 7) (s : State) : Result := branchIf (s.flag bitC) k s

/-- BRLO (R223): BRBS 0. -/
def execBrlo (k : BitVec 7) (s : State) : Result := branchIf (s.flag bitC) k s

/-- BRCC (R223): BRBC 0. -/
def execBrcc (k : BitVec 7) (s : State) : Result := branchIf (!s.flag bitC) k s

/-- BRSH (R223): BRBC 0. -/
def execBrsh (k : BitVec 7) (s : State) : Result := branchIf (!s.flag bitC) k s

/-- BREQ (R223): BRBS 1. -/
def execBreq (k : BitVec 7) (s : State) : Result := branchIf (s.flag bitZ) k s

/-- BRNE (R223): BRBC 1. -/
def execBrne (k : BitVec 7) (s : State) : Result := branchIf (!s.flag bitZ) k s

/-- BRMI (R223): BRBS 2. -/
def execBrmi (k : BitVec 7) (s : State) : Result := branchIf (s.flag bitN) k s

/-- BRPL (R223): BRBC 2. -/
def execBrpl (k : BitVec 7) (s : State) : Result := branchIf (!s.flag bitN) k s

/-- BRVS (R223): BRBS 3. -/
def execBrvs (k : BitVec 7) (s : State) : Result := branchIf (s.flag bitV) k s

/-- BRVC (R223): BRBC 3. -/
def execBrvc (k : BitVec 7) (s : State) : Result := branchIf (!s.flag bitV) k s

/-- BRLT (R223): BRBS 4. -/
def execBrlt (k : BitVec 7) (s : State) : Result := branchIf (s.flag bitS) k s

/-- BRGE (R223): BRBC 4. -/
def execBrge (k : BitVec 7) (s : State) : Result := branchIf (!s.flag bitS) k s

/-- BRHS (R223): BRBS 5. -/
def execBrhs (k : BitVec 7) (s : State) : Result := branchIf (s.flag bitH) k s

/-- BRHC (R223): BRBC 5. -/
def execBrhc (k : BitVec 7) (s : State) : Result := branchIf (!s.flag bitH) k s

/-- BRTS (R223): BRBS 6. -/
def execBrts (k : BitVec 7) (s : State) : Result := branchIf (s.flag bitT) k s

/-- BRTC (R223): BRBC 6. -/
def execBrtc (k : BitVec 7) (s : State) : Result := branchIf (!s.flag bitT) k s

/-- BRIE (R223): BRBS 7. -/
def execBrie (k : BitVec 7) (s : State) : Result := branchIf (s.flag bitI) k s

/-- BRID (R223): BRBC 7. -/
def execBrid (k : BitVec 7) (s : State) : Result := branchIf (!s.flag bitI) k s

end Sys2Proof.Machine
end

