-- ==== Sys2Proof/Machine/Transfer.lean ====
section
/-! DEFINITION. Data transfer instructions (44_transfer.md), with the alias rows LD and ST through plain Y and Z. -/

namespace Sys2Proof.Machine

/-- MOV (R260). -/
def execMov (d r : Reg) (s : State) : Result := writeReg d (s.reg r) s

/-- MOVW (R261). -/
def execMovw (d r : Reg) (s : State) : Result :=
  ifPresent (.movw d r) s (.next ((s.setPair d (s.pair r)).advance 1 1))

/-- LDI (R262). -/
def execLdi (d : Reg) (k : Byte) (s : State) : Result := writeReg d k s

/-- LD Rd,X (R265). -/
def execLdX (d : Reg) (s : State) : Result := loadByte d (s.ptr .x) 1 (fun t => t) s

/-- LD Rd,X+ (R266). -/
def execLdXInc (d : Reg) (s : State) : Result := loadInc .x d (.ldXInc d) s

/-- LD Rd,-X (R267). -/
def execLdXDec (d : Reg) (s : State) : Result := loadDec .x d (.ldXDec d) s

/-- LD Rd,Y+ (R268). -/
def execLdYInc (d : Reg) (s : State) : Result := loadInc .y d (.ldYInc d) s

/-- LD Rd,-Y (R269). -/
def execLdYDec (d : Reg) (s : State) : Result := loadDec .y d (.ldYDec d) s

/-- LD Rd,Z+ (R270). -/
def execLdZInc (d : Reg) (s : State) : Result := loadInc .z d (.ldZInc d) s

/-- LD Rd,-Z (R271). -/
def execLdZDec (d : Reg) (s : State) : Result := loadDec .z d (.ldZDec d) s

/-- LDD Rd,Y+q (R272). -/
def execLddY (d : Reg) (q : BitVec 6) (s : State) : Result := loadByte d (dispAddr .y q s) 1 (fun t => t) s

/-- LDD Rd,Z+q (R273). -/
def execLddZ (d : Reg) (q : BitVec 6) (s : State) : Result := loadByte d (dispAddr .z q s) 1 (fun t => t) s

/-- LD Rd,Y (R272): LDD Rd,Y+0. -/
def execLdY (d : Reg) (s : State) : Result := loadByte d (s.ptr .y) 1 (fun t => t) s

/-- LD Rd,Z (R273): LDD Rd,Z+0. -/
def execLdZ (d : Reg) (s : State) : Result := loadByte d (s.ptr .z) 1 (fun t => t) s

/-- LDS (R274). -/
def execLds (d : Reg) (k : Addr) (s : State) : Result := loadByte d k 2 (fun t => t) s

/-- ST X,Rr (R277). -/
def execStX (r : Reg) (s : State) : Result := storeByte r (s.ptr .x) 1 (fun t => t) s

/-- ST X+,Rr (R278). -/
def execStXInc (r : Reg) (s : State) : Result := storeInc .x r (.stXInc r) s

/-- ST -X,Rr (R279). -/
def execStXDec (r : Reg) (s : State) : Result := storeDec .x r (.stXDec r) s

/-- ST Y+,Rr (R280). -/
def execStYInc (r : Reg) (s : State) : Result := storeInc .y r (.stYInc r) s

/-- ST -Y,Rr (R281). -/
def execStYDec (r : Reg) (s : State) : Result := storeDec .y r (.stYDec r) s

/-- ST Z+,Rr (R282). -/
def execStZInc (r : Reg) (s : State) : Result := storeInc .z r (.stZInc r) s

/-- ST -Z,Rr (R283). -/
def execStZDec (r : Reg) (s : State) : Result := storeDec .z r (.stZDec r) s

/-- STD Y+q,Rr (R284). -/
def execStdY (q : BitVec 6) (r : Reg) (s : State) : Result := storeByte r (dispAddr .y q s) 1 (fun t => t) s

/-- STD Z+q,Rr (R285). -/
def execStdZ (q : BitVec 6) (r : Reg) (s : State) : Result := storeByte r (dispAddr .z q s) 1 (fun t => t) s

/-- ST Y,Rr (R284): STD Y+0,Rr. -/
def execStY (r : Reg) (s : State) : Result := storeByte r (s.ptr .y) 1 (fun t => t) s

/-- ST Z,Rr (R285): STD Z+0,Rr. -/
def execStZ (r : Reg) (s : State) : Result := storeByte r (s.ptr .z) 1 (fun t => t) s

/-- STS (R286). -/
def execSts (k : Addr) (r : Reg) (s : State) : Result := storeByte r k 2 (fun t => t) s

/-- LPM (R292). -/
def execLpm (s : State) : Result := loadProg 0 (s.ptr .z).toNat (fun t => t) s

/-- LPM Rd,Z (R293). -/
def execLpmZ (d : Reg) (s : State) : Result :=
  ifPresent (.lpmZ d) s (loadProg d (s.ptr .z).toNat (fun t => t) s)

/-- LPM Rd,Z+ (R294). -/
def execLpmZInc (d : Reg) (s : State) : Result :=
  ifPresent (.lpmZInc d) s (ifDisjoint .z d (.lpmZInc d) s
    (loadProg d (s.ptr .z).toNat (fun t => t.setPtr .z (s.ptr .z + 1)) s))

/-- ELPM (R296). -/
def execElpm (s : State) : Result := ifPresent .elpm s (loadProg 0 s.extZ.toNat (fun t => t) s)

/-- ELPM Rd,Z (R297). -/
def execElpmZ (d : Reg) (s : State) : Result := ifPresent (.elpmZ d) s (loadProg d s.extZ.toNat (fun t => t) s)

/-- ELPM Rd,Z+ (R298). -/
def execElpmZInc (d : Reg) (s : State) : Result :=
  ifPresent (.elpmZInc d) s (ifDisjoint .z d (.elpmZInc d) s
    (loadProg d s.extZ.toNat (fun t => t.setExtZ (s.extZ + 1)) s))

/-- IN (R300). -/
def execInIo (d : Reg) (a : BitVec 6) (s : State) : Result :=
  let x := ioRead a s
  .next ((x.2.setReg d x.1).advance 1 1)

/-- OUT (R301). -/
def execOutIo (a : BitVec 6) (r : Reg) (s : State) : Result := .next ((ioWrite a (s.reg r) s).advance 1 1)

/-- PUSH (R302). -/
def execPush (r : Reg) (s : State) : Result :=
  ifPresent (.push r) s (finish (push8 (s.reg r) s) (fun t => t.advance 1 2))

/-- POP (R303). -/
def execPop (d : Reg) (s : State) : Result :=
  ifPresent (.pop d) s
    (match pop8 s with
     | .error f => .fault f
     | .ok (v, t) => .next ((t.setReg d v).advance 1 2))

end Sys2Proof.Machine
end

