-- ==== Sys2Proof/Machine/Multiply.lean ====
section
/-! DEFINITION. Multiply instructions (45_multiply.md). -/

namespace Sys2Proof.Machine

/-- A byte read as unsigned, in 16 bits (R320). -/
def unsignedOperand (v : Byte) : Word := v.setWidth 16

/-- A byte read as signed, in 16 bits (R320). -/
def signedOperand (v : Byte) : Word := v.signExtend 16

/-- `x[1:0] <- p`, Z from it, C its bit 15, two cycles (R320, R321). -/
def writeProduct (p : Word) (s : State) : Result :=
  .next (((s.setPair 0 p).setSreg (mulFlags s.sreg p (p.getLsbD 15))).advance 1 2)

/-- `x[1:0] <- p << 1`, Z from the 16 bits written, C the bit shifted out, two cycles (R324). -/
def writeFraction (p : Word) (s : State) : Result :=
  .next (((s.setPair 0 (p <<< 1)).setSreg (mulFlags s.sreg (p <<< 1) (p.getLsbD 15))).advance 1 2)

/-- MUL (R321). -/
def execMul (d r : Reg) (s : State) : Result :=
  ifPresent (.mul d r) s (writeProduct (unsignedOperand (s.reg d) * unsignedOperand (s.reg r)) s)

/-- MULS (R322). -/
def execMuls (d r : Reg) (s : State) : Result :=
  ifPresent (.muls d r) s (writeProduct (signedOperand (s.reg d) * signedOperand (s.reg r)) s)

/-- MULSU (R323). -/
def execMulsu (d r : Reg) (s : State) : Result :=
  ifPresent (.mulsu d r) s (writeProduct (signedOperand (s.reg d) * unsignedOperand (s.reg r)) s)

/-- FMUL (R324). -/
def execFmul (d r : Reg) (s : State) : Result :=
  ifPresent (.fmul d r) s (writeFraction (unsignedOperand (s.reg d) * unsignedOperand (s.reg r)) s)

/-- FMULS (R325). -/
def execFmuls (d r : Reg) (s : State) : Result :=
  ifPresent (.fmuls d r) s (writeFraction (signedOperand (s.reg d) * signedOperand (s.reg r)) s)

/-- FMULSU (R326). -/
def execFmulsu (d r : Reg) (s : State) : Result :=
  ifPresent (.fmulsu d r) s (writeFraction (signedOperand (s.reg d) * unsignedOperand (s.reg r)) s)

end Sys2Proof.Machine
end

