-- ==== Sys2Proof/Machine/System.lean ====
section
/-! DEFINITION. System instructions (46_system.md). -/

namespace Sys2Proof.Machine

/-- NOP (R330). -/
def execNop (s : State) : Result := .next (s.advance 1 1)

/-- BREAK (R331): the debug stop with a debug system attached, otherwise NOP. -/
def execBrk (s : State) : Result := if s.cfg.ocdAttached then .refused (.debugStop s.pc) else .next (s.advance 1 1)

/-- SLEEP (R332). -/
def execSleep (s : State) : Result := .next ({ s with sleeping := s.sleeping || s.sleepEnabled }.advance 1 1)

/-- WDR (R333): the event `wdr` leaves the core; the watchdog device is the environment's. -/
def execWdr (s : State) : Result := .next ((s.emit .wdr).advance 1 1)

/-- SPM (R334): the spec names the fault IllegalEncoding whether or not the device has the instruction. -/
def execSpm (s : State) : Result := .fault (.illegalEncoding s.pc (firstWord .spm))

end Sys2Proof.Machine
end

