-- ==== Sys2Proof/Machine/Fetch.lean ====
section
/-! DEFINITION. What happens around an instruction: the environment's actions at the step boundary, the acceptance of an
interrupt, the fetch and the checks it makes, and what the step is to do. -/

namespace Sys2Proof.Machine

/-- One action of the environment (R346, R332, R371). -/
def applyEvent (s : State) : EnvEvent → State
  | .raise n => if s.pending.contains n then s else { s with pending := n :: s.pending }
  | .withdraw n => { s with pending := s.pending.erase n }
  | .sleepEnabled b => { s with sleepEnabled := b }
  | .reset => applyReset s

/-- What the environment does before this step, in its order; the later steps' actions stay listed (assumption 9). -/
def applyEnv (s : State) : State := (s.env.headD []).foldl applyEvent { s with env := s.env.tail }

/-- The lowest-numbered pending request among the vectors 1 to `N_VECTORS` - 1 (R348, R349). -/
def leastPending (s : State) : Option Nat :=
  ((List.range s.cfg.nVectors).drop 1).find? (fun n => s.pending.contains n)

/-- The interrupt that is accepted at a step boundary (R349). -/
def acceptable (s : State) : Option Nat := if s.flag bitI && !s.irqInhibit then leastPending s else none

/-- The second word of the instruction that begins with `w` at the program counter: only JMP, CALL, LDS and STS have
one (R70, R101). The address wraps modulo `2^PC_BITS` (R26, assumption 27). -/
def secondWord (s : State) (w : Word) : Except Fault Word :=
  if wordCount w = 2 then
    match progWord s s.nextPc with
    | none => .error (.fetchOutOfRange s.nextPc)
    | some w2 => .ok w2
  else .ok 0

/-- Whether a first word is an assigned word of an instruction the member has (R124, R125, R334). -/
def executable (s : State) (w : Word) : Bool :=
  match decodeWord w 0 with
  | none => false
  | some i => s.cfg.hasInstr i && i != .spm

/-- The instruction at the program counter, with the checks in the order of R341: the first word exists, it is the word
of an instruction of this member, the second word exists. -/
def fetchInstr (s : State) : Except Fault Instr :=
  match progWord s s.pc with
  | none => .error (.fetchOutOfRange s.pc)
  | some w =>
    if executable s w then
      match secondWord s w with
      | .error f => .error f
      | .ok w2 =>
        match decodeWord w w2 with
        | none => .error (.illegalEncoding s.pc w)
        | some i => .ok i
    else .error (.illegalEncoding s.pc w)

/-- What a step does after its interrupt test: a result of its own, or an instruction to run. -/
inductive StepPlan where
  | done (r : Result)
  | run (i : Instr) (s : State)

/-- The start of a step (R349): the environment acts; an acceptable interrupt is entered; otherwise `irq_inhibit` is used
up, and a core that is awake fetches an instruction. A sleeping core's step answers a next state that differs in nothing else,
for ever if no interrupt can come: that the end of a run of R360 (b), (c) is no stop of the step is DESIGN CHOICE,
assumption 32. -/
def plan (s : State) : StepPlan :=
  match acceptable (applyEnv s) with
  | some n => .done (interruptEntry n (applyEnv s))
  | none =>
    let t := { applyEnv s with irqInhibit := false }
    if t.sleeping then .done (.next t)
    else
      match fetchInstr t with
      | .error f => .done (.fault f)
      | .ok i => .run i t

end Sys2Proof.Machine
end

