-- ==== Sys2Proof/Machine/Step.lean ====
section
/-! DEFINITION. One step of the machine (R16, R349), and the state with an instruction placed where the step fetches. -/

namespace Sys2Proof.Machine

/-- One step: what `plan` decides, or the instruction it names. -/
def step (s : State) : Host.Outcome State Fault Refusal :=
  match plan s with
  | .done r => r
  | .run i t => exec i t

/-- `s` with the instruction whose bits are `w` (bit 0 the least significant bit of the first word, bits 31..16 the second
word, every bit from `nbits` on 0) in program memory at the program counter (R70, R372; assumption 23). -/
def State.withFetchWord (s : State) (nbits w : Nat) : State :=
  loadWord (loadWord s s.nextPc (BitVec.ofNat 16 (w % 2 ^ nbits / 65536))) s.pc (BitVec.ofNat 16 (w % 2 ^ nbits))

end Sys2Proof.Machine
end

