-- ==== Sys2Proof/Safety.lean ====
section
/-! DEFINITION. The terms in which claims are made, written from the rules and not from the meanings: program counter and
stack pointer as numbers modulo their width, the flags of each class as arithmetic, what a data-space read or write is by
address, the stack, the bits an instruction may change, the invariant of the machine, and runs that have ended. -/

namespace Sys2Proof.Machine

/-! Counters modulo their width. -/

/-- A word address modulo `2^PC_BITS` (R26). -/
def pcOf (c : Config) (n : Int) : PcWord := BitVec.ofInt 22 (n % 2 ^ c.pcBits)

/-- A stack pointer modulo `2^SP_BITS` (R27). -/
def spOf (c : Config) (n : Int) : Word := BitVec.ofInt 16 (n % 2 ^ c.spBits)

/-- `s` with the program counter at `n` and `cycles` cycles later; all else as it was. -/
def State.goTo (s : State) (n : Int) (cycles : Nat) : State :=
  { s with pc := pcOf s.cfg n, cycles := s.cycles + cycles }

/-- `s` with the program counter `words` words on and `cycles` cycles later; all else as it was (R25). -/
def State.after (s : State) (words cycles : Nat) : State := s.goTo (s.pc.toNat + words) cycles

/-- `s` with one register written; all else as it was. -/
def State.withReg (s : State) (d : Reg) (v : Byte) : State := { s with regs := s.regs.set d.val v d.isLt }

/-- `s` with the pair `R(d+1):Rd` holding `n` modulo 65536, the low byte in `Rd`; all else as it was (R23). -/
def State.withPair (s : State) (d : Reg) (n : Int) : State :=
  (s.withReg d (BitVec.ofInt 8 n)).withReg (d + 1) (BitVec.ofInt 8 (n / 256))

/-- The number in the pair `R(d+1):Rd` (R23). -/
def State.pairNat (s : State) (d : Reg) : Nat := (s.reg (d + 1)).toNat * 256 + (s.reg d).toNat

/-! Flags as arithmetic. -/

/-- SREG from its flags, bit 7 first (R31). -/
def packSreg (i t h s v n z c : Bool) : Byte :=
  BitVec.ofBool i ++ BitVec.ofBool t ++ BitVec.ofBool h ++ BitVec.ofBool s ++ BitVec.ofBool v ++ BitVec.ofBool n ++
    BitVec.ofBool z ++ BitVec.ofBool c

/-- A number outside the signed range of `w` bits (R35). -/
def overflows (w : Nat) (x : Int) : Bool := decide (x < -2 ^ (w - 1)) || decide (2 ^ (w - 1) ≤ x)

/-- SREG after the addition `a + b + c` (R40, the arithmetic statements). -/
def addSreg (old a b : Byte) (c : Nat) : Byte :=
  let r := (a.toNat + b.toNat + c) % 256
  let n := decide (128 ≤ r)
  let v := overflows 8 (a.toInt + b.toInt + c)
  packSreg (old.getLsbD 7) (old.getLsbD 6) (decide (15 < a.toNat % 16 + b.toNat % 16 + c)) (n ^^ v) v n (decide (r = 0))
    (decide (255 < a.toNat + b.toNat + c))

/-- SREG after the subtraction `a - b - c`, where Z is the zero test and `z` (R41, the arithmetic statements). -/
def subSreg (old a b : Byte) (c : Nat) (z : Bool) : Byte :=
  let r := ((a.toNat : Int) - b.toNat - c) % 256
  let n := decide (128 ≤ r)
  let v := overflows 8 (a.toInt - b.toInt - c)
  packSreg (old.getLsbD 7) (old.getLsbD 6) (decide (a.toNat % 16 < b.toNat % 16 + c)) (n ^^ v) v n
    (decide (r = 0) && z) (decide (a.toNat < b.toNat + c))

/-- SREG after a logic operation with result `r`, and C as given (R42). -/
def logicSreg (old r : Byte) (c : Bool) : Byte :=
  packSreg (old.getLsbD 7) (old.getLsbD 6) (old.getLsbD 5) (decide (128 ≤ r.toNat)) false (decide (128 ≤ r.toNat))
    (decide (r.toNat = 0)) c

/-- SREG after a right shift with result `r` that shifted out `c` (R43). -/
def shiftSreg (old r : Byte) (c : Bool) : Byte :=
  let n := decide (128 ≤ r.toNat)
  packSreg (old.getLsbD 7) (old.getLsbD 6) (old.getLsbD 5) (n ^^ (n ^^ c)) (n ^^ c) n (decide (r.toNat = 0)) c

/-- SREG after the 16-bit sum `w + k` of ADIW, or with negative `k` the difference of SBIW (R44). -/
def wordSreg (old : Byte) (w : Word) (k : Int) : Byte :=
  let r := ((w.toNat : Int) + k) % 65536
  let n := decide (32768 ≤ r)
  let v := overflows 16 (w.toInt + k)
  packSreg (old.getLsbD 7) (old.getLsbD 6) (old.getLsbD 5) (n ^^ v) v n (decide (r = 0))
    (decide ((w.toNat : Int) + k < 0) || decide (65535 < (w.toNat : Int) + k))

/-- SREG after `a + k` of INC (`k` = 1) or DEC (`k` = -1) (R45). -/
def countSreg (old a : Byte) (k : Int) : Byte :=
  let r := ((a.toNat : Int) + k) % 256
  let n := decide (128 ≤ r)
  let v := overflows 8 (a.toInt + k)
  packSreg (old.getLsbD 7) (old.getLsbD 6) (old.getLsbD 5) (n ^^ v) v n (decide (r = 0)) (old.getLsbD 0)

/-- SREG after a multiplication: only Z and C change (R320). -/
def productSreg (old : Byte) (z c : Bool) : Byte :=
  packSreg (old.getLsbD 7) (old.getLsbD 6) (old.getLsbD 5) (old.getLsbD 4) (old.getLsbD 3) (old.getLsbD 2) z c

/-- SREG with flag `n` at `b` and the others as they were. -/
def FlagWritten (old new : Byte) (n : Nat) (b : Bool) : Prop :=
  ∀ k, k < 8 → new.getLsbD k = if k = n then b else old.getLsbD k

/-! The data space by address. -/

/-- The addresses behind which there is something (R63, R64). -/
def Mapped (c : Config) (a : Addr) : Prop :=
  a.toNat < 0x60 ∨ (a.toNat < c.ramStart ∧ a.toNat ∈ c.extendedIo) ∨ (c.ramStart ≤ a.toNat ∧ a.toNat ≤ c.ramEnd)

/-- Addresses of SRAM (R63). -/
def InSram (c : Config) (n : Int) : Prop := 0x60 ≤ n ∧ (c.ramStart : Int) ≤ n ∧ n ≤ c.ramEnd ∧ n < 65536

/-- A byte of `ram` is replaced, and nothing else: every other address reads as before. -/
def RamStored (a : Addr) (v : Byte) (s t : State) : Prop :=
  t = { s with ram := t.ram } ∧ t.ramByte a = v ∧ ∀ b, b ≠ a → t.ramByte b = s.ramByte b

/-- A device register is read: the environment's draw, or the last write where the platform says storage; either way the
access reaches the environment (R66, R75). -/
def DeviceReads (a : Addr) (s : State) (v : Byte) (t : State) : Prop :=
  if a.toNat ∈ s.cfg.ioStorage then v = s.ramByte a ∧ t = { s with events := s.events ++ [.ioRead a v] }
  else v = Config.ioDraw s.ioDraws a ∧ t = { s with ioDraws := s.ioDraws + 1, events := s.events ++ [.ioRead a v] }

/-- A device register is written: an output event, and a store where the platform says storage (R66, R75). -/
def DeviceStored (a : Addr) (v : Byte) (s t : State) : Prop :=
  if a.toNat ∈ s.cfg.ioStorage then RamStored a v { s with events := s.events ++ [.ioWrite a v] } t
  else t = { s with events := s.events ++ [.ioWrite a v] }

/-- A read of a mapped data address answers `v` and leaves `t` (R63, R66, R67). -/
def ReadsAs (a : Addr) (s : State) (v : Byte) (t : State) : Prop :=
  if h : a.toNat < 0x20 then v = s.regs[a.toNat]'(by omega) ∧ t = s
  else if a = 0x5F then v = s.sreg ∧ t = s
  else if a = 0x5E then v = BitVec.ofNat 8 (s.sp.toNat / 256) ∧ t = s
  else if a = 0x5D then v = BitVec.ofNat 8 (s.sp.toNat % 256) ∧ t = s
  else if a = 0x5C ∧ s.cfg.hasExtended = true then v = s.eind ∧ t = s
  else if a = 0x5B ∧ s.cfg.hasExtended = true then v = s.rampz ∧ t = s
  else if a.toNat < 0x60 ∨ a.toNat < s.cfg.ramStart then DeviceReads a s v t
  else v = s.ramByte a ∧ t = s

/-- A write of `v` to a mapped data address leaves `t` (R63, R66, R67). -/
def StoredAt (a : Addr) (v : Byte) (s t : State) : Prop :=
  if h : a.toNat < 0x20 then t = { s with regs := s.regs.set a.toNat v (by omega) }
  else if a = 0x5F then t = { s with sreg := v }
  else if a = 0x5E then t = { s with sp := spOf s.cfg (v.toNat * 256 + s.sp.toNat % 256) }
  else if a = 0x5D then t = { s with sp := spOf s.cfg (s.sp.toNat / 256 * 256 + v.toNat) }
  else if a = 0x5C ∧ s.cfg.hasExtended = true then t = { s with eind := v }
  else if a = 0x5B ∧ s.cfg.hasExtended = true then t = { s with rampz := v }
  else if a.toNat < 0x60 ∨ a.toNat < s.cfg.ramStart then DeviceStored a v s t
  else RamStored a v s t

/-- The data address of an I/O register (R63). -/
def ioData (a : Nat) : Addr := BitVec.ofNat 16 (a + 0x20)

/-! The stack. -/

/-- Bytes of a return address (R29). -/
def returnLength (c : Config) : Nat :=
  match c.pcWidth with
  | .pc16 => 2
  | .pc22 => 3

/-- The stack pointer leaves room in SRAM for a return address below and at it, without wrapping. -/
def PushRoom (s : State) : Prop :=
  InSram s.cfg (s.sp.toNat : Int) ∧ InSram s.cfg ((s.sp.toNat : Int) - (returnLength s.cfg - 1 : Nat)) ∧
    s.sp.toNat < 2 ^ s.cfg.spBits

/-- The `n` bytes above the stack pointer are SRAM, without wrapping. -/
def PopRoom (s : State) (n : Nat) : Prop :=
  InSram s.cfg ((s.sp.toNat : Int) + 1) ∧ InSram s.cfg ((s.sp.toNat : Int) + n) ∧ s.sp.toNat + n < 2 ^ s.cfg.spBits

/-- The byte of `ram` at a numbered address. -/
def State.ramAt (s : State) (n : Int) : Byte := s.ramByte (BitVec.ofInt 16 n)

/-- A return address has been pushed in SRAM: low byte at the old SP, the next below it, and with a 22-bit program counter
the six high bits below that; SP is lower by their number; nothing else has changed (R29). -/
def ReturnPushed (ra : PcWord) (s t : State) : Prop :=
  t = { s with sp := BitVec.ofInt 16 (s.sp.toNat - returnLength s.cfg), ram := t.ram } ∧
  (∀ k, k < returnLength s.cfg → t.ramAt (s.sp.toNat - k) = BitVec.ofNat 8 (ra.toNat / 256 ^ k)) ∧
  ∀ b : Addr, (∀ k : Nat, k < returnLength s.cfg → (b.toNat : Int) ≠ s.sp.toNat - k) → t.ramByte b = s.ramByte b

/-- The return address in the bytes above the stack pointer, most significant byte lowest, modulo `2^PC_BITS` (R30). -/
def returnNat (s : State) : Nat :=
  match s.cfg.pcWidth with
  | .pc16 => (s.ramAt (s.sp.toNat + 1)).toNat * 256 + (s.ramAt (s.sp.toNat + 2)).toNat
  | .pc22 =>
    (s.ramAt (s.sp.toNat + 1)).toNat % 64 * 65536 + (s.ramAt (s.sp.toNat + 2)).toNat * 256 +
      (s.ramAt (s.sp.toNat + 3)).toNat

/-! Results of the instructions that go through the data space, and of the skips. -/

/-- `i` loads the byte at data address `a` into `x[d]`, then does `fin`, and goes on `words` words in two cycles; an
address that holds nothing is the fault UnmappedAccess (R64, R263). -/
def LoadsFrom (i : Instr) (d : Reg) (a : Addr) (words : Nat) (fin : State → State) (s : State) : Prop :=
  (Mapped s.cfg a → ∃ v t, ReadsAs a s v t ∧ exec i s = .next ((fin (t.withReg d v)).after words 2)) ∧
  (¬Mapped s.cfg a → exec i s = .fault (.unmappedAccess a))

/-- `i` stores `x[r]` at data address `a`, then does `fin`, and goes on `words` words in two cycles; an address that holds
nothing is the fault UnmappedAccess (R64, R263). -/
def StoresTo (i : Instr) (r : Reg) (a : Addr) (words : Nat) (fin : State → State) (s : State) : Prop :=
  (Mapped s.cfg a → ∃ t, StoredAt a (s.reg r) s t ∧ exec i s = .next ((fin t).after words 2)) ∧
  (¬Mapped s.cfg a → exec i s = .fault (.unmappedAccess a))

/-- Several bytes pushed one after the other, wherever they land (R28). -/
def Pushes : List Byte → State → State → Prop
  | [], s, t => t = s
  | v :: vs, s, t => ∃ u, StoredAt s.sp v s u ∧ Pushes vs { u with sp := spOf u.cfg (u.sp.toNat - 1) } t

/-- The bytes of a return address in the order they are pushed, the least significant first (R29). -/
def stackBytes (c : Config) (ra : PcWord) : List Byte :=
  (List.range (returnLength c)).map (fun n => BitVec.ofNat 8 (ra.toNat / 256 ^ n))

/-- The stack pointer after a push of `v` at `sp`: one lower, counted from what the store itself left there where it reached
SPL or SPH (R28, R67). -/
def spAfterPush (c : Config) (sp : Word) (v : Byte) : Word :=
  if sp = 0x5E then spOf c ((spOf c (v.toNat * 256 + sp.toNat % 256)).toNat - 1)
  else if sp = 0x5D then spOf c ((spOf c (sp.toNat / 256 * 256 + v.toNat)).toNat - 1)
  else spOf c (sp.toNat - 1)

/-- The addresses that successive pushes store to (R28). -/
def pushAddrs (c : Config) : List Byte → Word → List Addr
  | [], _ => []
  | v :: vs, sp => sp :: pushAddrs c vs (spAfterPush c sp v)

/-- The addresses that `n` successive pops read (R28). -/
def popAddrs (c : Config) : Nat → Word → List Addr
  | 0, _ => []
  | n + 1, sp => spOf c (sp.toNat + 1) :: popAddrs c n (spOf c (sp.toNat + 1))

/-- Several bytes popped one after the other, wherever they come from (R28). -/
def Pops : List Byte → State → State → Prop
  | [], s, t => t = s
  | v :: vs, s, t =>
    ∃ u, ReadsAs (spOf s.cfg (s.sp.toNat + 1)) { s with sp := spOf s.cfg (s.sp.toNat + 1) } v u ∧ Pops vs u t

/-- The number that popped bytes make, the first one the most significant (R30). -/
def returnOf (vs : List Byte) : Nat := vs.foldl (fun n v => n * 256 + v.toNat) 0

/-- `a` is the first of several addresses that holds nothing (R64, R341). -/
def FirstUnmapped (c : Config) (as : List Addr) (a : Addr) : Prop :=
  ∃ before behind, as = before ++ a :: behind ∧ (∀ b ∈ before, Mapped c b) ∧ ¬Mapped c a

/-- `i` loads `x[d]` with byte `b` of program memory, then does `fin`, and goes on one word in three cycles; a byte outside
program memory is the fault ProgReadOutOfRange (R290, R291). -/
def LoadsProgram (i : Instr) (d : Reg) (b : Nat) (fin : State → State) (s : State) : Prop :=
  (b / 2 < s.cfg.flashWords → exec i s = .next ((fin (s.withReg d (flashByte s b))).after 1 3)) ∧
  (s.cfg.flashWords ≤ b / 2 → exec i s = .fault (.progReadOutOfRange b))

/-- The result `r` of a skip at `s`: on to the next instruction when the condition does not hold; over the next instruction,
whose length its first word decides, when it does; a next word outside program memory is the fault FetchOutOfRange, only
when the skip is taken (R234). -/
def Skips (cond : Bool) (s : State) (r : Result) : Prop :=
  (cond = false → r = .next (s.after 1 1)) ∧
  (cond = true → ∀ w, progWord s (pcOf s.cfg (s.pc.toNat + 1)) = some w →
    r = .next (s.after (1 + wordCount w) (1 + wordCount w))) ∧
  (cond = true → s.cfg.flashWords ≤ (pcOf s.cfg (s.pc.toNat + 1)).toNat →
    r = .fault (.fetchOutOfRange (pcOf s.cfg (s.pc.toNat + 1))))

/-- A control transfer's cycles: one number for a 16-bit program counter, one for a 22-bit one (R380). -/
def cyclesBy (c : Config) (n16 n22 : Nat) : Nat :=
  match c.pcWidth with
  | .pc16 => n16
  | .pc22 => n22

/-! What an instruction may touch. -/

/-- The flags an instruction may change by itself, bits as in SREG: the rows of the table of R46. -/
def flagsOf : Instr → Byte
  | .add _ _ | .adc _ _ | .sub _ _ | .subi _ _ | .sbc _ _ | .sbci _ _ | .cp _ _ | .cpc _ _ | .cpi _ _ | .neg _
  | .lsl _ | .rol _ => 0b00111111
  | .adiw _ _ | .sbiw _ _ | .asr _ | .ror _ | .lsr _ | .com _ => 0b00011111
  | .inc _ | .dec _ | .and _ _ | .andi _ _ | .or _ _ | .ori _ _ | .eor _ _ | .tst _ | .clr _ | .cbr _ _
  | .sbr _ _ => 0b00011110
  | .mul _ _ | .muls _ _ | .mulsu _ _ | .fmul _ _ | .fmuls _ _ | .fmulsu _ _ => 0b00000011
  | .bst _ _ => 0b01000000
  | .bset b | .bclr b => 1#8 <<< b.toNat
  | .sec | .clc => 0b00000001
  | .sez | .clz => 0b00000010
  | .sen | .cln => 0b00000100
  | .sev | .clv => 0b00001000
  | .ses | .cls => 0b00010000
  | .seh | .clh => 0b00100000
  | .setT | .clt => 0b01000000
  | .sei | .cli | .reti => 0b10000000
  | .swap _ | .bld _ _ | .sbi _ _ | .cbi _ _ | .brbs _ _ | .brbc _ _ | .rjmp _ | .jmp _ | .ijmp | .eijmp | .rcall _
  | .call _ | .icall | .eicall | .ret | .cpse _ _ | .sbrc _ _ | .sbrs _ _ | .sbic _ _ | .sbis _ _ | .mov _ _
  | .movw _ _ | .ldi _ _ | .ldX _ | .ldXInc _ | .ldXDec _ | .ldYInc _ | .ldYDec _ | .ldZInc _ | .ldZDec _
  | .lddY _ _ | .lddZ _ _ | .lds _ _ | .stX _ | .stXInc _ | .stXDec _ | .stYInc _ | .stYDec _ | .stZInc _
  | .stZDec _ | .stdY _ _ | .stdZ _ _ | .sts _ _ | .lpm | .lpmZ _ | .lpmZInc _ | .elpm | .elpmZ _ | .elpmZInc _
  | .inIo _ _ | .outIo _ _ | .push _ | .pop _ | .nop | .brk | .sleep | .wdr | .spm | .ser _ | .brcs _ | .brlo _
  | .brcc _ | .brsh _ | .breq _ | .brne _ | .brmi _ | .brpl _ | .brvs _ | .brvc _ | .brlt _ | .brge _ | .brhs _
  | .brhc _ | .brts _ | .brtc _ | .brie _ | .brid _ | .ldY _ | .ldZ _ | .stY _ | .stZ _ => 0

/-- The instructions that write the data space or the I/O space: the stores, OUT, SBI, CBI, PUSH and the calls. Through an
address they can reach any register, SREG and SP among them (R63, R67). -/
def storesData : Instr → Bool
  | .stX _ | .stXInc _ | .stXDec _ | .stYInc _ | .stYDec _ | .stZInc _ | .stZDec _ | .stdY _ _ | .stdZ _ _
  | .stY _ | .stZ _ | .sts _ _ | .outIo _ _ | .sbi _ _ | .cbi _ _ | .push _ | .rcall _ | .call _ | .icall
  | .eicall => true
  | .add _ _ | .adc _ _ | .adiw _ _ | .sub _ _ | .subi _ _ | .sbc _ _ | .sbci _ _ | .sbiw _ _ | .inc _ | .dec _
  | .neg _ | .com _ | .cp _ _ | .cpc _ _ | .cpi _ _ | .and _ _ | .andi _ _ | .or _ _ | .ori _ _ | .eor _ _
  | .asr _ | .lsr _ | .ror _ | .swap _ | .bld _ _ | .bst _ _ | .bset _ | .bclr _ | .brbs _ _ | .brbc _ _
  | .rjmp _ | .jmp _ | .ijmp | .eijmp | .ret | .reti | .cpse _ _ | .sbrc _ _ | .sbrs _ _ | .sbic _ _ | .sbis _ _
  | .mov _ _ | .movw _ _ | .ldi _ _ | .ldX _ | .ldXInc _ | .ldXDec _ | .ldYInc _ | .ldYDec _ | .ldZInc _
  | .ldZDec _ | .lddY _ _ | .lddZ _ _ | .lds _ _ | .lpm | .lpmZ _ | .lpmZInc _ | .elpm | .elpmZ _ | .elpmZInc _
  | .inIo _ _ | .pop _ | .mul _ _ | .muls _ _ | .mulsu _ _ | .fmul _ _ | .fmuls _ _ | .fmulsu _ _ | .nop | .brk
  | .sleep | .wdr | .spm | .lsl _ | .rol _ | .tst _ | .clr _ | .ser _ | .cbr _ _ | .sbr _ _ | .sec | .sez | .sen
  | .sev | .ses | .seh | .setT | .sei | .clc | .clz | .cln | .clv | .cls | .clh | .clt | .cli | .brcs _ | .brlo _
  | .brcc _ | .brsh _ | .breq _ | .brne _ | .brmi _ | .brpl _ | .brvs _ | .brvc _ | .brlt _ | .brge _ | .brhs _
  | .brhc _ | .brts _ | .brtc _ | .brie _ | .brid _ | .ldY _ | .ldZ _ => false

/-! Program memory. -/

/-- The four bytes of program memory at the program counter and the word after it. -/
def codeBytes (s : State) : List Byte :=
  [flashByte s (2 * s.pc.toNat), flashByte s (2 * s.pc.toNat + 1),
    flashByte s (2 * (pcOf s.cfg (s.pc.toNat + 1)).toNat), flashByte s (2 * (pcOf s.cfg (s.pc.toNat + 1)).toNat + 1)]

/-- The words that the instruction at the program counter takes are inside program memory (R26, R61). -/
def FetchInside (s : State) (words : Nat) : Prop :=
  s.pc.toNat < s.cfg.flashWords ∧ (words = 2 → (pcOf s.cfg (s.pc.toNat + 1)).toNat < s.cfg.flashWords)

/-! The start of a step. -/

/-- The state in which a step that accepts no interrupt goes on: the environment has acted and `irq_inhibit` is used up
(R349). -/
def begun (s : State) : State := { applyEnv s with irqInhibit := false }

/-- A step of an awake core that accepts no interrupt: it fetches an instruction and runs it (R16, R349). -/
def fetchAndRun (t : State) : Result :=
  match fetchInstr t with
  | .error f => .fault f
  | .ok i => exec i t

/-! The machine as a whole. -/

/-- What holds of every state a run can reach: the program counter and the stack pointer fit their widths (R25, R27), both
memories are in canonical form, `ram` lists only SRAM and storage registers, and no request is listed twice. -/
def State.Inv (s : State) : Prop :=
  s.pc.toNat < 2 ^ s.cfg.pcBits ∧ s.sp.toNat < 2 ^ s.cfg.spBits ∧ Memory.wf ramUnlisted s.ram = true ∧
  Memory.wf flashUnlisted s.flash = true ∧ s.pending.Nodup ∧
  ∀ cell ∈ s.ram, cell.1 < 65536 ∧
    (cell.1 ∈ s.cfg.ioStorage ∨ (0x60 ≤ cell.1 ∧ s.cfg.ramStart ≤ cell.1 ∧ cell.1 ≤ s.cfg.ramEnd))

/-- No interrupt can be accepted, now or later, unless the environment acts or the program sets I: I is 0, or no request of
a vector that exists is pending (R349, R360). -/
def State.Uninterrupted (s : State) : Prop :=
  s.env = [] ∧ (s.flag 7 = false ∨ ∀ n ∈ s.pending, n = 0 ∨ s.cfg.nVectors ≤ n)

end Sys2Proof.Machine
end

