-- ==== Sys2Proof/Certificates/Slice0/Obligations.lean ====
section
/-! DEFINITION. The statements for the provers. Words of the statements are those of Safety.lean; `s.after w n` is the state
`s` with the program counter `w` words on and `n` cycles later, so that an equation with it is also the frame: what the
equation does not name is as it was, every byte of memory with it. -/

open Sys2Proof Sys2Proof.Machine

/-! Reset. -/

/-- R370: what Reset gives PC, SREG, SP and the hidden bits, that it leaves the working registers and SRAM as they are, and that
the reset state is such a state with program memory erased. The model's choices in it: that a reset leaves the pending requests,
`SleepEnabled` and the records `events`, `ioDraws` and `cycles` as they are (log entry 13); that it writes RAMPZ and EIND in every
member, with HAS_EXTENDED or without (log entry 5); that the reset state has SP = RAMEND = $FFFF and 65536 words of program memory
(log entries 2 and 4). -/
def Obligations.ResetAssignsItsRegisters : Prop :=
  (∀ s : State, applyReset s =
    { s with pc := pcOf s.cfg s.cfg.resetPc.toNat, sreg := 0, sp := spOf s.cfg s.cfg.resetSp.toNat, rampz := 0, eind := 0,
             irqInhibit := false, sleeping := false }) ∧
  applyReset State.reset = State.reset ∧ State.reset.pc = 0 ∧ State.reset.sreg = 0 ∧
  ∀ a : PcWord, a.toNat < State.reset.cfg.flashWords → progWord State.reset a = some 0xFFFF

/-! Arithmetic and compare. -/

/-- R40 for ADD, ADC, LSL and ROL: the result and every flag, and nothing else. -/
def Obligations.AdditionClass : Prop :=
  ∀ (d r : Reg) (s : State),
    exec (.add d r) s =
      .next ({ s.withReg d (BitVec.ofNat 8 ((s.reg d).toNat + (s.reg r).toNat)) with
        sreg := addSreg s.sreg (s.reg d) (s.reg r) 0 }.after 1 1) ∧
    exec (.adc d r) s =
      .next ({ s.withReg d (BitVec.ofNat 8 ((s.reg d).toNat + (s.reg r).toNat + (s.flag 0).toNat)) with
        sreg := addSreg s.sreg (s.reg d) (s.reg r) (s.flag 0).toNat }.after 1 1) ∧
    exec (.lsl d) s =
      .next ({ s.withReg d (BitVec.ofNat 8 ((s.reg d).toNat + (s.reg d).toNat)) with
        sreg := addSreg s.sreg (s.reg d) (s.reg d) 0 }.after 1 1) ∧
    exec (.rol d) s =
      .next ({ s.withReg d (BitVec.ofNat 8 ((s.reg d).toNat + (s.reg d).toNat + (s.flag 0).toNat)) with
        sreg := addSreg s.sreg (s.reg d) (s.reg d) (s.flag 0).toNat }.after 1 1)

/-- R41 for SUB, SUBI, SBC, SBCI, CP, CPC, CPI and NEG: the result where one is written, every flag, and nothing else; Z of
SBC, SBCI and CPC can only be cleared. -/
def Obligations.SubtractionClass : Prop :=
  ∀ (d r : Reg) (k : Byte) (s : State),
    exec (.sub d r) s =
      .next ({ s.withReg d (BitVec.ofInt 8 ((s.reg d).toNat - (s.reg r).toNat)) with
        sreg := subSreg s.sreg (s.reg d) (s.reg r) 0 true }.after 1 1) ∧
    exec (.subi d k) s =
      .next ({ s.withReg d (BitVec.ofInt 8 ((s.reg d).toNat - k.toNat)) with
        sreg := subSreg s.sreg (s.reg d) k 0 true }.after 1 1) ∧
    exec (.sbc d r) s =
      .next ({ s.withReg d (BitVec.ofInt 8 ((s.reg d).toNat - (s.reg r).toNat - (s.flag 0).toNat)) with
        sreg := subSreg s.sreg (s.reg d) (s.reg r) (s.flag 0).toNat (s.flag 1) }.after 1 1) ∧
    exec (.sbci d k) s =
      .next ({ s.withReg d (BitVec.ofInt 8 ((s.reg d).toNat - k.toNat - (s.flag 0).toNat)) with
        sreg := subSreg s.sreg (s.reg d) k (s.flag 0).toNat (s.flag 1) }.after 1 1) ∧
    exec (.cp d r) s = .next ({ s with sreg := subSreg s.sreg (s.reg d) (s.reg r) 0 true }.after 1 1) ∧
    exec (.cpc d r) s =
      .next ({ s with sreg := subSreg s.sreg (s.reg d) (s.reg r) (s.flag 0).toNat (s.flag 1) }.after 1 1) ∧
    exec (.cpi d k) s = .next ({ s with sreg := subSreg s.sreg (s.reg d) k 0 true }.after 1 1) ∧
    exec (.neg d) s =
      .next ({ s.withReg d (BitVec.ofInt 8 (-(s.reg d).toNat)) with
        sreg := subSreg s.sreg 0 (s.reg d) 0 true }.after 1 1)

/-- R44 for ADIW and SBIW: the pair, the flags of the 16-bit result with H as it was, and nothing else. -/
def Obligations.WordClass : Prop :=
  ∀ (d : Reg) (k : BitVec 6) (s : State),
    exec (.adiw d k) s =
      .next ({ s.withPair d (s.pairNat d + k.toNat) with
        sreg := wordSreg s.sreg (BitVec.ofNat 16 (s.pairNat d)) k.toNat }.after 1 2) ∧
    exec (.sbiw d k) s =
      .next ({ s.withPair d (s.pairNat d - k.toNat) with
        sreg := wordSreg s.sreg (BitVec.ofNat 16 (s.pairNat d)) (-k.toNat) }.after 1 2)

/-- R45 for INC and DEC: the result, S, V, N and Z, with C and H as they were, and nothing else. -/
def Obligations.IncrementAndDecrement : Prop :=
  ∀ (d : Reg) (s : State),
    exec (.inc d) s =
      .next ({ s.withReg d (BitVec.ofInt 8 ((s.reg d).toNat + 1)) with sreg := countSreg s.sreg (s.reg d) 1 }.after 1 1) ∧
    exec (.dec d) s =
      .next ({ s.withReg d (BitVec.ofInt 8 ((s.reg d).toNat - 1)) with
        sreg := countSreg s.sreg (s.reg d) (-1) }.after 1 1)

/-- R36: whatever instruction that writes N or V answers a next state, S of that state is the exclusive or of its N and V. -/
def Obligations.SignFlagIsNegativeXorOverflow : Prop :=
  ∀ (i : Instr) (s t : State), flagsOf i &&& 0b00011100 = 0b00011100 → exec i s = .next t →
    t.flag 4 = (t.flag 2 ^^ t.flag 3)

/-- R156, R223: after CP the branches decide equality, the unsigned and the signed order of the two registers. -/
def Obligations.CompareThenBranch : Prop :=
  ∀ (d r : Reg) (k : BitVec 7) (s : State), ∃ t, exec (.cp d r) s = .next t ∧
    exec (.breq k) t = .next (if s.reg d = s.reg r then t.goTo (t.pc.toNat + 1 + k.toInt) 2 else t.after 1 1) ∧
    exec (.brne k) t = .next (if s.reg d = s.reg r then t.after 1 1 else t.goTo (t.pc.toNat + 1 + k.toInt) 2) ∧
    exec (.brlo k) t =
      .next (if (s.reg d).toNat < (s.reg r).toNat then t.goTo (t.pc.toNat + 1 + k.toInt) 2 else t.after 1 1) ∧
    exec (.brsh k) t =
      .next (if (s.reg d).toNat < (s.reg r).toNat then t.after 1 1 else t.goTo (t.pc.toNat + 1 + k.toInt) 2) ∧
    exec (.brlt k) t =
      .next (if (s.reg d).toInt < (s.reg r).toInt then t.goTo (t.pc.toNat + 1 + k.toInt) 2 else t.after 1 1) ∧
    exec (.brge k) t =
      .next (if (s.reg d).toInt < (s.reg r).toInt then t.after 1 1 else t.goTo (t.pc.toNat + 1 + k.toInt) 2)

/-- R23: ADD on the low bytes and then ADC on the high bytes is the addition of the 16-bit numbers: the two destination
registers hold the sum modulo 65536, C is its carry, and V its signed overflow. -/
def Obligations.AddThenAdcAddsWords : Prop :=
  ∀ (dl dh rl rh : Reg) (s : State), dl ≠ dh → dl ≠ rh →
    ∃ t u, exec (.add dl rl) s = .next t ∧ exec (.adc dh rh) t = .next u ∧
      (u.reg dh).toNat * 256 + (u.reg dl).toNat =
        (((s.reg dh).toNat * 256 + (s.reg dl).toNat) + ((s.reg rh).toNat * 256 + (s.reg rl).toNat)) % 65536 ∧
      u.flag 0 =
        decide (65535 < ((s.reg dh).toNat * 256 + (s.reg dl).toNat) + ((s.reg rh).toNat * 256 + (s.reg rl).toNat)) ∧
      u.flag 3 =
        overflows 16 (((s.reg dh).toInt * 256 + (s.reg dl).toNat) + ((s.reg rh).toInt * 256 + (s.reg rl).toNat)) ∧
      (∀ q, q ≠ dl → q ≠ dh → u.reg q = s.reg q)

/-- R146, R154, R156: CP on the low bytes and then CPC on the high bytes compares the 16-bit numbers: Z is equality, C the
unsigned and S the signed order, and no register changes. -/
def Obligations.CpThenCpcComparesWords : Prop :=
  ∀ (dl dh rl rh : Reg) (s : State), ∃ t u, exec (.cp dl rl) s = .next t ∧ exec (.cpc dh rh) t = .next u ∧
    u.regs = s.regs ∧
    u.flag 1 = decide ((s.reg dh).toNat * 256 + (s.reg dl).toNat = (s.reg rh).toNat * 256 + (s.reg rl).toNat) ∧
    u.flag 0 = decide ((s.reg dh).toNat * 256 + (s.reg dl).toNat < (s.reg rh).toNat * 256 + (s.reg rl).toNat) ∧
    u.flag 4 = decide ((s.reg dh).toInt * 256 + (s.reg dl).toNat < (s.reg rh).toInt * 256 + (s.reg rl).toNat)

/-! Logic, shifts and bits. -/

/-- R42 for AND, ANDI, OR, ORI, EOR, TST, CLR, CBR, SBR and COM: the result, V cleared, N, Z and S from it, H and C as they
were (COM: C set), and nothing else. -/
def Obligations.LogicClass : Prop :=
  ∀ (d r : Reg) (k : Byte) (s : State),
    (∀ p ∈ [(Instr.and d r, s.reg d &&& s.reg r), (.andi d k, s.reg d &&& k), (.or d r, s.reg d ||| s.reg r),
        (.ori d k, s.reg d ||| k), (.eor d r, s.reg d ^^^ s.reg r), (.tst d, s.reg d), (.clr d, 0),
        (.cbr d k, s.reg d &&& ~~~k), (.sbr d k, s.reg d ||| k)],
      exec p.1 s = .next ({ s.withReg d p.2 with sreg := logicSreg s.sreg p.2 (s.flag 0) }.after 1 1)) ∧
    exec (.com d) s =
      .next ({ s.withReg d (BitVec.ofNat 8 (255 - (s.reg d).toNat)) with
        sreg := logicSreg s.sreg (BitVec.ofNat 8 (255 - (s.reg d).toNat)) true }.after 1 1)

/-- R43 for ASR, LSR and ROR: division by 2 toward minus infinity, unsigned division by 2, and the rotation through the
carry; C is the bit shifted out, V = N ^ C, S = N ^ V, H as it was, and nothing else. V = N ^ C, and with it S, is general
knowledge of the family that the spec decides on (D25) and not in its source: PRESUMED, log entry 24. -/
def Obligations.RightShiftClass : Prop :=
  ∀ (d : Reg) (s : State),
    (∀ p ∈ [(Instr.asr d, BitVec.ofInt 8 ((s.reg d).toInt / 2)), (.lsr d, BitVec.ofNat 8 ((s.reg d).toNat / 2)),
        (.ror d, BitVec.ofNat 8 ((s.flag 0).toNat * 128 + (s.reg d).toNat / 2))],
      exec p.1 s =
        .next ({ s.withReg d p.2 with sreg := shiftSreg s.sreg p.2 (decide ((s.reg d).toNat % 2 = 1)) }.after 1 1))

/-- R194, R195: LSL and ROL in the words of a shift: bit 7 goes to C, the old C (LSL: 0) enters bit 0, H is the old bit 3, N
the old bit 6, V the exclusive or of the old bits 7 and 6, S = N ^ V, Z the zero test. -/
def Obligations.LeftShiftsByBits : Prop :=
  ∀ (d : Reg) (s : State),
    ∀ p ∈ [(Instr.lsl d, false), (Instr.rol d, s.flag 0)],
      ∃ v : Byte, v.getLsbD 0 = p.2 ∧ (∀ k, k < 7 → v.getLsbD (k + 1) = (s.reg d).getLsbD k) ∧
        exec p.1 s =
          .next ({ s.withReg d v with
            sreg := packSreg (s.flag 7) (s.flag 6) ((s.reg d).getLsbD 3)
              ((s.reg d).getLsbD 6 ^^ ((s.reg d).getLsbD 7 ^^ (s.reg d).getLsbD 6))
              ((s.reg d).getLsbD 7 ^^ (s.reg d).getLsbD 6) ((s.reg d).getLsbD 6) (decide (v = 0))
              ((s.reg d).getLsbD 7) }.after 1 1)

/-- R196, R198, R199: SWAP exchanges the digits of a register, BLD copies T into one bit of a register, BST one bit of a
register into T; nothing else changes. -/
def Obligations.SwapAndTransferBit : Prop :=
  ∀ (d : Reg) (b : BitVec 3) (s : State),
    exec (.swap d) s =
      .next ((s.withReg d (BitVec.ofNat 8 ((s.reg d).toNat % 16 * 16 + (s.reg d).toNat / 16))).after 1 1) ∧
    (∃ v, FlagWritten (s.reg d) v b.toNat (s.flag 6) ∧ exec (.bld d b) s = .next ((s.withReg d v).after 1 1)) ∧
    ∃ f, FlagWritten s.sreg f 6 ((s.reg d).getLsbD b.toNat) ∧ exec (.bst d b) s = .next ({ s with sreg := f }.after 1 1)

/-- R200, R202, R352: BSET s and its eight names set flag s and no other; setting I from 0 to 1 sets `irq_inhibit`. -/
def Obligations.FlagsAreSet : Prop :=
  ∀ (b : BitVec 3) (s : State),
    ∀ p ∈ [(Instr.bset b, b.toNat), (.sec, 0), (.sez, 1), (.sen, 2), (.sev, 3), (.ses, 4), (.seh, 5), (.setT, 6), (.sei, 7)],
      ∃ f, FlagWritten s.sreg f p.2 true ∧
        exec p.1 s =
          .next ({ s with sreg := f, irqInhibit := s.irqInhibit || (decide (p.2 = 7) && !s.flag 7) }.after 1 1)

/-- R201, R203: BCLR s and its eight names clear flag s and no other. -/
def Obligations.FlagsAreCleared : Prop :=
  ∀ (b : BitVec 3) (s : State),
    ∀ p ∈ [(Instr.bclr b, b.toNat), (.clc, 0), (.clz, 1), (.cln, 2), (.clv, 3), (.cls, 4), (.clh, 5), (.clt, 6), (.cli, 7)],
      ∃ f, FlagWritten s.sreg f p.2 false ∧ exec p.1 s = .next ({ s with sreg := f }.after 1 1)

/-- R204, R205, R74: SBI and CBI read the whole I/O register once and write it once, with one bit set or cleared and the
seven others as read. How a device access is answered and recorded (the free value, the list `events`) is the model's
choice, log entries 7 and 8. -/
def Obligations.IoBitsAreReadModifyWrite : Prop :=
  ∀ (a : BitVec 5) (b : BitVec 3) (s : State),
    ∀ p ∈ [(Instr.sbi a b, true), (Instr.cbi a b, false)],
      ∃ v t w u, ReadsAs (ioData a.toNat) s v t ∧ FlagWritten v w b.toNat p.2 ∧ StoredAt (ioData a.toNat) w t u ∧
        exec p.1 s = .next (u.after 1 2)

/-! Branches, jumps, calls, returns, skips. -/

/-- R221 to R223: BRBS, BRBC and the 18 names: to `pc + 1 + k` in two cycles when the flag has the value named, else on in
one cycle; nothing else changes. -/
def Obligations.ConditionalBranches : Prop :=
  ∀ (b : BitVec 3) (k : BitVec 7) (s : State),
    ∀ p ∈ [(Instr.brbs b k, b.toNat, true), (.brbc b k, b.toNat, false), (.brcs k, 0, true), (.brlo k, 0, true),
        (.brcc k, 0, false), (.brsh k, 0, false), (.breq k, 1, true), (.brne k, 1, false), (.brmi k, 2, true),
        (.brpl k, 2, false), (.brvs k, 3, true), (.brvc k, 3, false), (.brlt k, 4, true), (.brge k, 4, false),
        (.brhs k, 5, true), (.brhc k, 5, false), (.brts k, 6, true), (.brtc k, 6, false), (.brie k, 7, true),
        (.brid k, 7, false)],
      exec p.1 s = .next (if s.flag p.2.1 = p.2.2 then s.goTo (s.pc.toNat + 1 + k.toInt) 2 else s.after 1 1)

/-- R224 to R227: where RJMP, JMP, IJMP and EIJMP go; nothing else changes. -/
def Obligations.Jumps : Prop :=
  ∀ (k : BitVec 12) (a : PcWord) (s : State),
    exec (.rjmp k) s = .next (s.goTo (s.pc.toNat + 1 + k.toInt) 2) ∧
    (s.cfg.hasJmpCall = true → exec (.jmp a) s = .next (s.goTo a.toNat 3)) ∧
    (s.cfg.hasIjmpIcall = true → exec .ijmp s = .next (s.goTo (s.pairNat 30) 2)) ∧
    (s.cfg.hasExtended = true → exec .eijmp s = .next (s.goTo (s.eind.toNat % 64 * 65536 + s.pairNat 30) 2))

/-- R228 to R231 with the stack in SRAM: RCALL, CALL, ICALL and EICALL push the address of the next instruction as R29 says
and go to their target; no other byte and nothing else changes. -/
def Obligations.CallsWithStackInSram : Prop :=
  ∀ (k : BitVec 12) (a : PcWord) (s : State), PushRoom s →
    (∃ t, ReturnPushed (pcOf s.cfg (s.pc.toNat + 1)) s t ∧
      exec (.rcall k) s = .next (t.goTo (s.pc.toNat + 1 + k.toInt) (cyclesBy s.cfg 3 4))) ∧
    (s.cfg.hasJmpCall = true → ∃ t, ReturnPushed (pcOf s.cfg (s.pc.toNat + 2)) s t ∧
      exec (.call a) s = .next (t.goTo a.toNat (cyclesBy s.cfg 4 5))) ∧
    (s.cfg.hasIjmpIcall = true → ∃ t, ReturnPushed (pcOf s.cfg (s.pc.toNat + 1)) s t ∧
      exec .icall s = .next (t.goTo (s.pairNat 30) (cyclesBy s.cfg 3 4))) ∧
    (s.cfg.hasExtended = true → ∃ t, ReturnPushed (pcOf s.cfg (s.pc.toNat + 1)) s t ∧
      exec .eicall s = .next (t.goTo (s.eind.toNat % 64 * 65536 + s.pairNat 30) 4))

/-- R81, R228 to R231, R341 with the stack anywhere: when every address pushed to holds something, the call completes, and the
pushes are writes of the data space one after the other, whatever they reach; otherwise it is the fault UnmappedAccess of the
first address that holds nothing, be it the first, the second or the third byte's. How a device access is answered and recorded
(the free value, the list `events`) is the model's choice, log entries 7 and 8; that a push which reaches SPL or SPH moves the
next one is read from the "then" of R28, log entry 21. That EICALL reads its target before the push is read from R12 and R230,
log entry 28. -/
def Obligations.CallsWithStackAnywhere : Prop :=
  ∀ (k : BitVec 12) (a : PcWord) (s : State),
    ∀ p ∈ [(Instr.rcall k, pcOf s.cfg (s.pc.toNat + 1), (s.pc.toNat + 1 + k.toInt : Int), cyclesBy s.cfg 3 4, true),
        (.call a, pcOf s.cfg (s.pc.toNat + 2), (a.toNat : Int), cyclesBy s.cfg 4 5, s.cfg.hasJmpCall),
        (.icall, pcOf s.cfg (s.pc.toNat + 1), (s.pairNat 30 : Int), cyclesBy s.cfg 3 4, s.cfg.hasIjmpIcall),
        (.eicall, pcOf s.cfg (s.pc.toNat + 1), (s.eind.toNat % 64 * 65536 + s.pairNat 30 : Int), 4, s.cfg.hasExtended)],
      p.2.2.2.2 = true →
      ((∀ b ∈ pushAddrs s.cfg (stackBytes s.cfg p.2.1) s.sp, Mapped s.cfg b) →
        ∃ t, Pushes (stackBytes s.cfg p.2.1) s t ∧ exec p.1 s = .next (t.goTo p.2.2.1 p.2.2.2.1)) ∧
      ∀ b, FirstUnmapped s.cfg (pushAddrs s.cfg (stackBytes s.cfg p.2.1) s.sp) b → exec p.1 s = .fault (.unmappedAccess b)

/-- R232, R233, R30, R341: RET and RETI go to the address on the stack and raise SP over it; RETI sets I and `irq_inhibit`;
nothing else changes. With the stack anywhere, when every address popped from holds something they complete, with the address
that the bytes make, read one after the other from the data space, the bits above `PC_BITS` dropped; otherwise they are the
fault UnmappedAccess of the first address that holds nothing. How a device access is answered and recorded (the free value, the
list `events`) is the model's choice, log entries 7 and 8. -/
def Obligations.Returns : Prop :=
  (∀ s : State, PopRoom s (returnLength s.cfg) →
    exec .ret s = .next ({ s with sp := BitVec.ofInt 16 (s.sp.toNat + returnLength s.cfg) }.goTo (returnNat s)
      (cyclesBy s.cfg 4 5)) ∧
    ∃ f, FlagWritten s.sreg f 7 true ∧
      exec .reti s = .next ({ s with sp := BitVec.ofInt 16 (s.sp.toNat + returnLength s.cfg), sreg := f,
                                     irqInhibit := true }.goTo (returnNat s) (cyclesBy s.cfg 4 5))) ∧
  ∀ s : State,
    ((∀ b ∈ popAddrs s.cfg (returnLength s.cfg) s.sp, Mapped s.cfg b) →
      ∃ vs t f, vs.length = returnLength s.cfg ∧ Pops vs s t ∧ FlagWritten t.sreg f 7 true ∧
        exec .ret s = .next (t.goTo (returnOf vs) (cyclesBy s.cfg 4 5)) ∧
        exec .reti s = .next ({ t with sreg := f, irqInhibit := true }.goTo (returnOf vs) (cyclesBy s.cfg 4 5))) ∧
    ∀ b, FirstUnmapped s.cfg (popAddrs s.cfg (returnLength s.cfg) s.sp) b →
      exec .ret s = .fault (.unmappedAccess b) ∧ exec .reti s = .fault (.unmappedAccess b)

/-- R29, R30, R228, R232: RET behind RCALL continues behind the call, with SP, the registers, the flags and every byte
outside the stack's as before the call. -/
def Obligations.CallThenReturn : Prop :=
  ∀ (k : BitVec 12) (s : State), PushRoom s →
    ∃ t u, exec (.rcall k) s = .next t ∧ exec .ret t = .next u ∧ u.pc = pcOf s.cfg (s.pc.toNat + 1) ∧ u.sp = s.sp ∧
      u.regs = s.regs ∧ u.sreg = s.sreg ∧
      ∀ b : Addr, (∀ n : Nat, n < returnLength s.cfg → (b.toNat : Int) ≠ s.sp.toNat - n) → u.ramByte b = s.ramByte b

/-- R234 to R239: the five skips; SBIC and SBIS first read the I/O register once; with the next word inside program memory
each of them answers a next state. How a device access is answered and recorded (the free value, the list `events`) is the
model's choice, log entries 7 and 8. -/
def Obligations.SkipInstructions : Prop :=
  ∀ (d r : Reg) (a : BitVec 5) (b : BitVec 3) (s : State),
    Skips (decide (s.reg d = s.reg r)) s (exec (.cpse d r) s) ∧
    Skips (!(s.reg r).getLsbD b.toNat) s (exec (.sbrc r b) s) ∧
    Skips ((s.reg r).getLsbD b.toNat) s (exec (.sbrs r b) s) ∧
    (∃ v t, ReadsAs (ioData a.toNat) s v t ∧ Skips (!v.getLsbD b.toNat) t (exec (.sbic a b) s)) ∧
    (∃ v t, ReadsAs (ioData a.toNat) s v t ∧ Skips (v.getLsbD b.toNat) t (exec (.sbis a b) s)) ∧
    ((pcOf s.cfg (s.pc.toNat + 1)).toNat < s.cfg.flashWords →
      ∀ i ∈ [Instr.cpse d r, .sbrc r b, .sbrs r b, .sbic a b, .sbis a b], ∃ t, exec i s = .next t)

/-! Data transfer. -/

/-- R260 to R262, R180: MOV, MOVW, LDI and SER write their register or pair and nothing else. -/
def Obligations.RegisterCopies : Prop :=
  ∀ (d r : Reg) (k : Byte) (s : State),
    exec (.mov d r) s = .next ((s.withReg d (s.reg r)).after 1 1) ∧
    (s.cfg.hasMovw = true → exec (.movw d r) s = .next ((s.withPair d (s.pairNat r)).after 1 1)) ∧
    exec (.ldi d k) s = .next ((s.withReg d k).after 1 1) ∧
    exec (.ser d) s = .next ((s.withReg d 255).after 1 1)

/-- R263, R265 to R274: where every load reads, what it does to its pointer, and that it changes nothing else. How a device
access is answered and recorded (the free value, the list `events`) is the model's choice, log entries 7 and 8. -/
def Obligations.DataLoads : Prop :=
  ∀ (d : Reg) (q : BitVec 6) (k : Addr) (s : State),
    LoadsFrom (.ldX d) d (BitVec.ofNat 16 (s.pairNat 26)) 1 id s ∧
    LoadsFrom (.ldY d) d (BitVec.ofNat 16 (s.pairNat 28)) 1 id s ∧
    LoadsFrom (.ldZ d) d (BitVec.ofNat 16 (s.pairNat 30)) 1 id s ∧
    LoadsFrom (.lddY d q) d (BitVec.ofNat 16 (s.pairNat 28 + q.toNat)) 1 id s ∧
    LoadsFrom (.lddZ d q) d (BitVec.ofNat 16 (s.pairNat 30 + q.toNat)) 1 id s ∧
    LoadsFrom (.lds d k) d k 2 id s ∧
    ∀ p ∈ [(Instr.ldXInc d, Instr.ldXDec d, (26 : Reg)), (.ldYInc d, .ldYDec d, 28), (.ldZInc d, .ldZDec d, 30)],
      d ≠ p.2.2 → d ≠ p.2.2 + 1 →
        LoadsFrom p.1 d (BitVec.ofNat 16 (s.pairNat p.2.2)) 1 (fun t => t.withPair p.2.2 (s.pairNat p.2.2 + 1)) s ∧
        LoadsFrom p.2.1 d (BitVec.ofInt 16 (s.pairNat p.2.2 - 1)) 1 (fun t => t.withPair p.2.2 (s.pairNat p.2.2 - 1)) s

/-- R263, R277 to R286: where every store writes, what it does to its pointer, and that it changes nothing else. How a
device access is answered and recorded (the free value, the list `events`) is the model's choice, log entries 7 and 8. -/
def Obligations.DataStores : Prop :=
  ∀ (r : Reg) (q : BitVec 6) (k : Addr) (s : State),
    StoresTo (.stX r) r (BitVec.ofNat 16 (s.pairNat 26)) 1 id s ∧
    StoresTo (.stY r) r (BitVec.ofNat 16 (s.pairNat 28)) 1 id s ∧
    StoresTo (.stZ r) r (BitVec.ofNat 16 (s.pairNat 30)) 1 id s ∧
    StoresTo (.stdY q r) r (BitVec.ofNat 16 (s.pairNat 28 + q.toNat)) 1 id s ∧
    StoresTo (.stdZ q r) r (BitVec.ofNat 16 (s.pairNat 30 + q.toNat)) 1 id s ∧
    StoresTo (.sts k r) r k 2 id s ∧
    ∀ p ∈ [(Instr.stXInc r, Instr.stXDec r, (26 : Reg)), (.stYInc r, .stYDec r, 28), (.stZInc r, .stZDec r, 30)],
      r ≠ p.2.2 → r ≠ p.2.2 + 1 →
        StoresTo p.1 r (BitVec.ofNat 16 (s.pairNat p.2.2)) 1 (fun t => t.withPair p.2.2 (s.pairNat p.2.2 + 1)) s ∧
        StoresTo p.2.1 r (BitVec.ofInt 16 (s.pairNat p.2.2 - 1)) 1 (fun t => t.withPair p.2.2 (s.pairNat p.2.2 - 1)) s

/-- R264: a form that updates a pointer stops with UndefinedOperands when its data register is in the pointer. -/
def Obligations.PointerAsDataRegister : Prop :=
  ∀ (d : Reg) (s : State),
    (d = 26 ∨ d = 27 → ∀ i ∈ [Instr.ldXInc d, .ldXDec d, .stXInc d, .stXDec d],
      exec i s = .fault (.undefinedOperands s.pc (firstWord i))) ∧
    (d = 28 ∨ d = 29 → ∀ i ∈ [Instr.ldYInc d, .ldYDec d, .stYInc d, .stYDec d],
      exec i s = .fault (.undefinedOperands s.pc (firstWord i))) ∧
    (d = 30 ∨ d = 31 → ∀ i ∈ [Instr.ldZInc d, .ldZDec d, .stZInc d, .stZDec d],
      exec i s = .fault (.undefinedOperands s.pc (firstWord i))) ∧
    (d = 30 ∨ d = 31 → s.cfg.hasLpmRd = true →
      exec (.lpmZInc d) s = .fault (.undefinedOperands s.pc (firstWord (.lpmZInc d)))) ∧
    (d = 30 ∨ d = 31 → s.cfg.hasExtended = true →
      exec (.elpmZInc d) s = .fault (.undefinedOperands s.pc (firstWord (.elpmZInc d))))

/-- R63, R304: IN and OUT reach the I/O registers under the same rules as LDS and STS at the data address A + $20; only the
length and the cycles differ. -/
def Obligations.IoThroughTheDataSpace : Prop :=
  ∀ (d : Reg) (a : BitVec 6) (s : State),
    (∃ (v : Byte) (t : State), exec (.inIo d a) s = .next ((t.withReg d v).after 1 1) ∧
      exec (.lds d (ioData a.toNat)) s = .next ((t.withReg d v).after 2 2)) ∧
    ∃ t : State, exec (.outIo a d) s = .next (t.after 1 1) ∧ exec (.sts (ioData a.toNat) d) s = .next (t.after 2 2)

/-- R64, R81: a call or an interrupt entry with SP at an address that holds nothing, and a return whose first byte would come
from such an address, stop with UnmappedAccess. -/
def Obligations.StackOutsideMemoryFaults : Prop :=
  ∀ (k : BitVec 12) (a : PcWord) (n : Nat) (s : State),
    (¬Mapped s.cfg s.sp → exec (.rcall k) s = .fault (.unmappedAccess s.sp) ∧
      (s.cfg.hasJmpCall = true → exec (.call a) s = .fault (.unmappedAccess s.sp)) ∧
      (s.cfg.hasIjmpIcall = true → exec .icall s = .fault (.unmappedAccess s.sp)) ∧
      (s.cfg.hasExtended = true → exec .eicall s = .fault (.unmappedAccess s.sp)) ∧
      interruptEntry n s = .fault (.unmappedAccess s.sp)) ∧
    (¬Mapped s.cfg (spOf s.cfg (s.sp.toNat + 1)) → ∀ i ∈ [Instr.ret, .reti],
      exec i s = .fault (.unmappedAccess (spOf s.cfg (s.sp.toNat + 1))))

/-- R74, R75: a read of a working register's or an SRAM address answers the latest write to it, without a side effect, and
every other such address reads as before the write. What an unwritten byte of SRAM reads as is free, the model's choice, log
entry 6. -/
def Obligations.ReadAfterWrite : Prop :=
  ∀ (a b : Addr) (v : Byte) (s t : State),
    (a.toNat < 0x20 ∨ InSram s.cfg a.toNat) → (b.toNat < 0x20 ∨ InSram s.cfg b.toNat) → memWrite a v s = .ok t →
      memRead a t = .ok (v, t) ∧
      ∃ w, memRead b s = .ok (w, s) ∧ (b ≠ a → memRead b t = .ok (w, t))

/-- R290 to R298: the six program-memory loads: the byte they read, their destination, their pointer, and their fault outside
program memory. -/
def Obligations.ProgramLoads : Prop :=
  ∀ (d : Reg) (s : State),
    LoadsProgram .lpm 0 (s.pairNat 30) id s ∧
    (s.cfg.hasLpmRd = true → LoadsProgram (.lpmZ d) d (s.pairNat 30) id s) ∧
    (s.cfg.hasLpmRd = true → d ≠ 30 → d ≠ 31 →
      LoadsProgram (.lpmZInc d) d (s.pairNat 30) (fun t => t.withPair 30 (s.pairNat 30 + 1)) s) ∧
    (s.cfg.hasExtended = true → LoadsProgram .elpm 0 (s.rampz.toNat * 65536 + s.pairNat 30) id s ∧
      LoadsProgram (.elpmZ d) d (s.rampz.toNat * 65536 + s.pairNat 30) id s) ∧
    (s.cfg.hasExtended = true → d ≠ 30 → d ≠ 31 →
      LoadsProgram (.elpmZInc d) d (s.rampz.toNat * 65536 + s.pairNat 30)
        (fun t => { t.withPair 30 (s.pairNat 30 + 1) with
          rampz := BitVec.ofNat 8 ((s.rampz.toNat * 65536 + s.pairNat 30 + 1) / 65536) }) s)

/-- R69, R291: the two bytes of a word of program memory, and the fault of a byte outside it. That the low byte lies at the even
address is general knowledge of the family that the spec decides on (D14), and the fault is its decision D3: PRESUMED, log
entry 24. -/
def Obligations.ProgramBytesOfWord : Prop :=
  ∀ (a : PcWord) (w : Word) (b : Nat) (s : State),
    (progWord s a = some w →
      progByte s (2 * a.toNat) = .ok (BitVec.ofNat 8 (w.toNat % 256)) ∧
      progByte s (2 * a.toNat + 1) = .ok (BitVec.ofNat 8 (w.toNat / 256))) ∧
    (s.cfg.flashWords ≤ b / 2 → progByte s b = .error (.progReadOutOfRange b))

/-- R300, R301: IN reads the I/O register once and writes Rd; OUT writes it once; nothing else changes. How a device access
is answered and recorded (the free value, the list `events`) is the model's choice, log entries 7 and 8. -/
def Obligations.InAndOut : Prop :=
  ∀ (d : Reg) (a : BitVec 6) (s : State),
    (∃ v t, ReadsAs (ioData a.toNat) s v t ∧ exec (.inIo d a) s = .next ((t.withReg d v).after 1 1)) ∧
    ∃ t, StoredAt (ioData a.toNat) (s.reg d) s t ∧ exec (.outIo a d) s = .next (t.after 1 1)

/-- R28, R302, R303: PUSH stores at SP and then lowers it; POP raises SP and then reads there; either faults where its
address holds nothing. How a device access is answered and recorded (the free value, the list `events`) is the model's
choice, log entries 7 and 8. -/
def Obligations.PushAndPop : Prop :=
  ∀ (d : Reg) (s : State), s.cfg.hasPushPop = true →
    (Mapped s.cfg s.sp → ∃ u, StoredAt s.sp (s.reg d) s u ∧
      exec (.push d) s = .next ({ u with sp := spOf u.cfg (u.sp.toNat - 1) }.after 1 2)) ∧
    (¬Mapped s.cfg s.sp → exec (.push d) s = .fault (.unmappedAccess s.sp)) ∧
    (Mapped s.cfg (spOf s.cfg (s.sp.toNat + 1)) →
      ∃ v t, ReadsAs (spOf s.cfg (s.sp.toNat + 1)) { s with sp := spOf s.cfg (s.sp.toNat + 1) } v t ∧
        exec (.pop d) s = .next ((t.withReg d v).after 1 2)) ∧
    (¬Mapped s.cfg (spOf s.cfg (s.sp.toNat + 1)) →
      exec (.pop d) s = .fault (.unmappedAccess (spOf s.cfg (s.sp.toNat + 1))))

/-! Multiply. -/

/-- R320 to R323: MUL, MULS and MULSU: the 16-bit product in R1:R0, Z from it, C its bit 15, and nothing else. -/
def Obligations.IntegerProducts : Prop :=
  ∀ (d r : Reg) (s : State), s.cfg.hasMul = true →
    ∀ p ∈ [(Instr.mul d r, ((s.reg d).toNat * (s.reg r).toNat : Int)), (.muls d r, (s.reg d).toInt * (s.reg r).toInt),
        (.mulsu d r, (s.reg d).toInt * (s.reg r).toNat)],
      exec p.1 s =
        .next ({ s.withPair 0 p.2 with
          sreg := productSreg s.sreg (decide (p.2 % 65536 = 0)) (decide (32768 ≤ p.2 % 65536)) }.after 1 2)

/-- R320, R324 to R326: FMUL, FMULS and FMULSU: twice the product in R1:R0, Z from the 16 bits written, C bit 15 of the
product before the shift, and nothing else. -/
def Obligations.FractionalProducts : Prop :=
  ∀ (d r : Reg) (s : State), s.cfg.hasMul = true →
    ∀ p ∈ [(Instr.fmul d r, ((s.reg d).toNat * (s.reg r).toNat : Int)), (.fmuls d r, (s.reg d).toInt * (s.reg r).toInt),
        (.fmulsu d r, (s.reg d).toInt * (s.reg r).toNat)],
      exec p.1 s =
        .next ({ s.withPair 0 (2 * p.2) with
          sreg := productSreg s.sreg (decide (2 * p.2 % 65536 = 0)) (decide (32768 ≤ p.2 % 65536)) }.after 1 2)

/-! System. -/

/-- R330 to R334: NOP, BREAK without a debugger, WDR and SLEEP, and the two stops: SPM, and BREAK with a debugger. The list
`events`, the bit `sleepEnabled` and the refusal `debugStop` are the model's choice, log entries 8, 11 and 16. -/
def Obligations.SystemInstructions : Prop :=
  ∀ s : State,
    exec .nop s = .next (s.after 1 1) ∧
    (s.cfg.ocdAttached = false → exec .brk s = .next (s.after 1 1)) ∧
    (s.cfg.ocdAttached = true → exec .brk s = .refused (.debugStop s.pc)) ∧
    exec .wdr s = .next ({ s with events := s.events ++ [OutEvent.wdr] }.after 1 1) ∧
    exec .sleep s = .next ({ s with sleeping := s.sleeping || s.sleepEnabled }.after 1 1) ∧
    exec .spm s = .fault (.illegalEncoding s.pc 0x95E8)

/-- R6, R125: the instructions of each option, one line an option; an instruction whose option the member lacks is an illegal
encoding at the program counter; and no other instruction but SPM (R334) is one. -/
def Obligations.MissingOptionIsIllegal : Prop :=
  ∀ (i : Instr) (s : State),
    (s.cfg.hasInstr i = false ↔
      (s.cfg.hasJmpCall = false ∧ ∃ a, i = .jmp a ∨ i = .call a) ∨
      (s.cfg.hasIjmpIcall = false ∧ (i = .ijmp ∨ i = .icall)) ∨
      (s.cfg.hasMovw = false ∧ ∃ d r, i = .movw d r) ∨
      (s.cfg.hasMul = false ∧
        ∃ d r, i = .mul d r ∨ i = .muls d r ∨ i = .mulsu d r ∨ i = .fmul d r ∨ i = .fmuls d r ∨ i = .fmulsu d r) ∨
      (s.cfg.hasLpmRd = false ∧ ∃ d, i = .lpmZ d ∨ i = .lpmZInc d) ∨
      (s.cfg.hasPushPop = false ∧ ∃ d, i = .push d ∨ i = .pop d) ∨
      (s.cfg.hasSpm = false ∧ i = .spm) ∨
      (s.cfg.hasExtended = false ∧
        (i = .eicall ∨ i = .eijmp ∨ i = .elpm ∨ ∃ d, i = .elpmZ d ∨ i = .elpmZInc d))) ∧
    (s.cfg.hasInstr i = false → exec i s = .fault (.illegalEncoding s.pc (firstWord i))) ∧
    (s.cfg.hasInstr i = true → i ≠ .spm → ∀ pc w, exec i s ≠ .fault (.illegalEncoding pc w))

/-! Frames over all instructions. -/

/-- R46: an instruction that does not write the data space changes no flag but those of its row. -/
def Obligations.FlagsOutsideTheRowStay : Prop :=
  ∀ (i : Instr) (s t : State) (n : Nat), storesData i = false → exec i s = .next t → n < 8 →
    (flagsOf i).getLsbD n = false → t.flag n = s.flag n

/-- An instruction that does not write the data space leaves every byte of data memory, EIND, and outside POP, RET and RETI
the stack pointer, outside ELPM Rd,Z+ RAMPZ; no instruction changes the configuration, program memory, the pending requests,
`SleepEnabled` or the environment's coming actions; only SLEEP changes `sleeping`, only BSET, SEI and RETI `irq_inhibit`.
The fields `cfg`, `env` and `sleepEnabled` are the model's choice, log entries 1, 9 and 11. -/
def Obligations.SpecialStateFrame : Prop :=
  ∀ (i : Instr) (s t : State), exec i s = .next t →
    (t.cfg = s.cfg ∧ t.flash = s.flash ∧ t.pending = s.pending ∧ t.sleepEnabled = s.sleepEnabled ∧ t.env = s.env) ∧
    (i ≠ .sleep → t.sleeping = s.sleeping) ∧
    (i ≠ .sei → i ≠ .bset 7 → i ≠ .reti → t.irqInhibit = s.irqInhibit) ∧
    (storesData i = false →
      (∀ a, t.ramByte a = s.ramByte a) ∧ t.eind = s.eind ∧
      (i ≠ .ret → i ≠ .reti → (∀ d, i ≠ .pop d) → t.sp = s.sp) ∧ ((∀ d, i ≠ .elpmZInc d) → t.rampz = s.rampz))

/-! Encoding. -/

/-- Words written out from the patterns of R110 to R122, one for each family, decode to the instruction they stand for. -/
def Obligations.WordsDecode : Prop :=
  decodeWord 0x0F01 0 = some (.add 16 17) ∧ decodeWord 0x96DF 0 = some (.adiw 26 63) ∧
  decodeWord 0x700F 0 = some (.andi 16 0x0F) ∧ decodeWord 0x9505 0 = some (.asr 16) ∧
  decodeWord 0x9AC7 0 = some (.sbi 0x18 7) ∧ decodeWord 0xF7F1 0 = some (.brbc 1 0x7E) ∧
  decodeWord 0x95FD 0x1234 = some (.jmp 0x3F1234) ∧ decodeWord 0xADF7 0 = some (.lddZ 31 63) ∧
  decodeWord 0xBF0E 0 = some (.outIo 0x3E 16) ∧ decodeWord 0x9300 0x0100 = some (.sts 0x0100 16) ∧
  decodeWord 0x0376 0 = some (.mulsu 23 22) ∧ decodeWord 0x9588 0 = some .sleep

/-- Decoding the bytes of any well-formed instruction gives that instruction, an alias row its core instruction, and leaves
the bytes that follow. The alias constructors are the model's choice, log entry 19; the word of ELPM Rd,Z+ is the spec's
decision, log entry 18. -/
def Obligations.DecodeOfEncode : Prop :=
  ∀ (i : Instr) (rest : List Byte), wellFormed i = true → decode (encodeBytes i ++ rest) = .ok (i.base, rest)

/-- What a first word decodes to is a well-formed instruction, and its words are the word itself and, where it has two, the
second one. The word of ELPM Rd,Z+ is the spec's decision, log entry 18. -/
def Obligations.EncodeOfDecode : Prop :=
  ∀ (w w2 : Word) (i : Instr), decodeWord w w2 = some i →
    wellFormed i = true ∧ encode i = if wordCount w = 2 then [w, w2] else [w]

/-- R124: the words of the table of unassigned encodings are refused by the decoder. -/
def Obligations.UnassignedWords : Prop :=
  ∀ w w2 : Word,
    (w &&& 0xFF00 = 0 ∧ w ≠ 0) ∨
    w &&& 0xFE0F ∈ [0x9007#16, 0x9008#16, 0x900B#16, 0x9203#16, 0x9204#16, 0x9205#16, 0x9206#16, 0x9207#16, 0x9208#16,
      0x920B#16, 0x9404#16, 0x940B#16] ∨
    (w &&& 0xFE0F = 0x9409 ∧ w ∉ [0x9409#16, 0x9419#16, 0x9509#16, 0x9519#16]) ∨
    w ∈ [0x9528#16, 0x9538#16, 0x9548#16, 0x9558#16, 0x9568#16, 0x9578#16, 0x95B8#16, 0x95F8#16] ∨
    w &&& 0xF808 = 0xF808 →
    decodeWord w w2 = none

/-! The step. -/

/-- R16: when no interrupt is accepted, the core is awake, and the bytes of program memory at the program counter decode to
an instruction that the member has, the step is that instruction's meaning, in the state in which the environment has acted
and `irq_inhibit` is used up. The list `env` of the environment's actions is the model's choice, log entry 9. -/
def Obligations.StepRunsTheDecodedInstruction : Prop :=
  ∀ (s : State) (i : Instr) (rest : List Byte), acceptable (applyEnv s) = none → (begun s).sleeping = false →
    decode (codeBytes (begun s)) = .ok (i, rest) → FetchInside (begun s) (encode i).length →
    (begun s).cfg.hasInstr i = true → i ≠ .spm → step s = exec i (begun s)

/-- R341: the checks of the fetch, in their order: the first word is inside program memory, it is the word of an instruction
of this member, the second word is inside. The list `env` of the environment's actions is the model's choice, log entry 9.
That the second word's address wraps is read from R26, log entry 27. -/
def Obligations.FetchFaultsInOrder : Prop :=
  ∀ (s : State) (w : Word), acceptable (applyEnv s) = none → (begun s).sleeping = false →
    ((begun s).cfg.flashWords ≤ (begun s).pc.toNat → step s = .fault (.fetchOutOfRange (begun s).pc)) ∧
    (progWord (begun s) (begun s).pc = some w →
      (decodeWord w 0 = none → step s = .fault (.illegalEncoding (begun s).pc w)) ∧
      (∀ i, decodeWord w 0 = some i → (begun s).cfg.hasInstr i = false ∨ i = .spm →
        step s = .fault (.illegalEncoding (begun s).pc w)) ∧
      ∀ i, decodeWord w 0 = some i → (begun s).cfg.hasInstr i = true → wordCount w = 2 →
        (begun s).cfg.flashWords ≤ (pcOf (begun s).cfg ((begun s).pc.toNat + 1)).toNat →
        step s = .fault (.fetchOutOfRange (pcOf (begun s).cfg ((begun s).pc.toNat + 1))))

/-- R348 to R350 with the stack in SRAM: with I set and `irq_inhibit` clear the pending request with the lowest number is
entered: the program counter is pushed as R29 says, I cleared, the core awake, the environment told, and the program counter at
the vector. The list `events`, the list `env` and
what clears the request (`ackClears`) are the model's choice, log entries 8, 9 and 10. -/
def Obligations.InterruptIsAccepted : Prop :=
  ∀ (s : State) (n : Nat), (applyEnv s).flag 7 = true → (applyEnv s).irqInhibit = false → 1 ≤ n →
    n < (applyEnv s).cfg.nVectors → n ∈ (applyEnv s).pending → (∀ m, 1 ≤ m → m < n → m ∉ (applyEnv s).pending) →
    PushRoom (applyEnv s) →
    ∃ t f, ReturnPushed (applyEnv s).pc (applyEnv s) t ∧ FlagWritten (applyEnv s).sreg f 7 false ∧
      step s =
        .next ({ t with sleeping := false, sreg := f, events := t.events ++ [OutEvent.ack n],
                        pending := if n ∈ t.cfg.ackClears then t.pending.erase n else t.pending }.goTo
          (n * t.cfg.vectorStride) t.cfg.irqEntryCycles)

/-- R350, R81, R341 with the stack anywhere: when every address pushed to holds something, the accepted interrupt is entered,
and the pushes are writes of the data space one after the other, after which I is cleared; otherwise the step is the fault
UnmappedAccess of the first address that holds nothing. The lists `events` and `env`, what clears the request, how a device
access is recorded and that a push which reaches SPL or SPH moves the next one are the model's choice, log entries 7 to 10
and 21. -/
def Obligations.InterruptEntryWithStackAnywhere : Prop :=
  ∀ (s : State) (n : Nat), (applyEnv s).flag 7 = true → (applyEnv s).irqInhibit = false → 1 ≤ n →
    n < (applyEnv s).cfg.nVectors → n ∈ (applyEnv s).pending → (∀ m, 1 ≤ m → m < n → m ∉ (applyEnv s).pending) →
    ((∀ b ∈ pushAddrs (applyEnv s).cfg (stackBytes (applyEnv s).cfg (applyEnv s).pc) (applyEnv s).sp,
        Mapped (applyEnv s).cfg b) →
      ∃ t f, Pushes (stackBytes (applyEnv s).cfg (applyEnv s).pc) { applyEnv s with sleeping := false } t ∧
        FlagWritten t.sreg f 7 false ∧
        step s =
          .next ({ t with sreg := f, events := t.events ++ [OutEvent.ack n],
                          pending := if n ∈ t.cfg.ackClears then t.pending.erase n else t.pending }.goTo
            (n * t.cfg.vectorStride) t.cfg.irqEntryCycles)) ∧
    ∀ b, FirstUnmapped (applyEnv s).cfg
        (pushAddrs (applyEnv s).cfg (stackBytes (applyEnv s).cfg (applyEnv s).pc) (applyEnv s).sp) b →
      step s = .fault (.unmappedAccess b)

/-- R349, R352: with I clear, with `irq_inhibit` set, or with no request of an existing vector pending, the step accepts no
interrupt: it uses up `irq_inhibit`, and an awake core fetches and runs an instruction. The list `env` of the environment's
actions is the model's choice, log entry 9. -/
def Obligations.InterruptIsHeldOff : Prop :=
  ∀ s : State, (applyEnv s).flag 7 = false ∨ (applyEnv s).irqInhibit = true ∨
      (∀ n ∈ (applyEnv s).pending, n = 0 ∨ (applyEnv s).cfg.nVectors ≤ n) →
    step s = if (begun s).sleeping then .next (begun s) else fetchAndRun (begun s)

/-- R352: after SEI that sets I, written as SEI or as the BSET 7 that its word $9478 decodes to, and after RETI, the next step
of an awake core runs an instruction, whatever is pending; and in that instruction `irq_inhibit` is already clear. The list
`env` of the environment's actions is the model's choice, log entry 9. -/
def Obligations.OneInstructionAfterSeiAndReti : Prop :=
  ∀ s t : State, s.env = [] → s.sleeping = false →
    (s.flag 7 = false ∧ (exec .sei s = .next t ∨ exec (.bset 7) s = .next t)) ∨ exec .reti s = .next t →
    t.flag 7 = true ∧ step t = fetchAndRun { t with irqInhibit := false }

/-- R233, R350, R351: RETI directly at the vector of an entered interrupt continues where the program was interrupted, with
SP and the registers as they were and I set. The entry's record in `events` and its effect on `pending` are the model's
choice, log entries 8 and 10; the statement says nothing of them. -/
def Obligations.InterruptThenReturn : Prop :=
  ∀ (s : State) (n : Nat), PushRoom s → s.pc.toNat < 2 ^ s.cfg.pcBits →
    ∃ t u, interruptEntry n s = .next t ∧ t.flag 7 = false ∧ t.sleeping = false ∧ exec .reti t = .next u ∧
      u.pc = s.pc ∧ u.sp = s.sp ∧ u.regs = s.regs ∧ u.flag 7 = true ∧ u.irqInhibit = true ∧
      ∀ k, k < 7 → u.flag k = s.flag k

/-- R332, R360 (b): a sleeping core that no interrupt can wake stays as it is, however many steps go by. The list `env` of
the environment's actions, and that such a core takes further steps at all, are the model's choice, log entries 9 and 32. -/
def Obligations.PermanentSleep : Prop :=
  ∀ (s : State) (k : Nat), s.sleeping = true → s.Uninterrupted →
    Host.Core.run Sys2Proof.core (k + 1) s = .next { s with irqInhibit := false }

/-- R224, R360 (c): RJMP with k = -1 (`$CFFF`), interrupts impossible, changes nothing but the count of cycles, however many
steps go by. The list `env` of the environment's actions, and that such a core takes further steps at all, are the model's
choice, log entries 9 and 32. -/
def Obligations.JumpToItself : Prop :=
  ∀ (s : State) (k : Nat), s.sleeping = false → s.irqInhibit = false → s.Uninterrupted →
    s.pc.toNat < 2 ^ s.cfg.pcBits → progWord s s.pc = some 0xCFFF →
    Host.Core.run Sys2Proof.core k s = .next { s with cycles := s.cycles + 2 * k }

/-- R346, R371: what the environment's actions at a step boundary do: a request raised or withdrawn, `SleepEnabled` changed,
a reset; several actions are applied one after the other, in the order of their list; later steps' actions stay for later
steps. The form of the list `env` is the model's choice, log entry 9, and that a reset leaves the requests and `SleepEnabled`
is log entry 13. -/
def Obligations.EnvironmentActsBetweenSteps : Prop :=
  ∀ (s : State) (n m : Nat) (b : Bool) (e : EnvEvent) (more : List EnvEvent) (rest : List (List EnvEvent)),
    (∃ l, applyEnv { s with env := [.raise n] :: rest } = { s with env := rest, pending := l } ∧
      (m ∈ l ↔ m = n ∨ m ∈ s.pending)) ∧
    (s.pending.Nodup → ∃ l, applyEnv { s with env := [.withdraw n] :: rest } = { s with env := rest, pending := l } ∧
      (m ∈ l ↔ m ≠ n ∧ m ∈ s.pending)) ∧
    applyEnv { s with env := [.sleepEnabled b] :: rest } = { s with env := rest, sleepEnabled := b } ∧
    applyEnv { s with env := [.reset] :: rest } = { applyReset s with env := rest } ∧
    applyEnv { s with env := [] :: rest } = { s with env := rest } ∧
    applyEnv { s with env := (e :: more) :: rest } = applyEnv { applyEnv { s with env := [[e]] } with env := more :: rest } ∧
    applyEnv { s with env := [] } = { s with env := [] }

/-! The machine as a whole. -/

/-- Every step keeps the invariant: program counter and stack pointer within their widths, both memories in canonical form,
no entry outside SRAM and storage registers, no request listed twice. The canonical form, the storage registers and the list
`pending` are the model's choice, log entries 7, 9 and 23. -/
def Obligations.StepKeepsInvariant : Prop := ∀ s t : State, s.Inv → step s = .next t → t.Inv

/-- The reset state meets the invariant. The configuration of the reset state is the model's choice, log entry 2. -/
def Obligations.ResetMeetsInvariant : Prop := State.reset.Inv

/-- R78: no step changes program memory; every word reads as before. -/
def Obligations.ProgramMemoryIsConstant : Prop :=
  ∀ s t : State, step s = .next t → t.flash = s.flash ∧ ∀ a, progWord t a = progWord s a

/-- R75: what has reached the environment is never taken back, merged or reordered: a step only adds events behind the
earlier ones; and the cycle count never falls. The list `events` and the counter `cycles` are the model's choice, log
entries 8 and 22. -/
def Obligations.EventsAreAppended : Prop :=
  ∀ s t : State, step s = .next t → (∃ l, t.events = s.events ++ l) ∧ s.cycles ≤ t.cycles
end

