-- ==== Sys2Proof/Laws/State.lean ====
section
/-! SUPPORT. One lemma per field per update of the state, so that no proof unfolds a record update. -/

namespace Sys2Proof.Machine

/-! `State.setReg`. -/

@[simp] theorem State.setReg_cfg (s : State) (r : Reg) (v : Byte) : (s.setReg r v).cfg = s.cfg := rfl
@[simp] theorem State.setReg_regs (s : State) (r : Reg) (v : Byte) : (s.setReg r v).regs = s.regs.set r.val v r.isLt := rfl
@[simp] theorem State.setReg_pc (s : State) (r : Reg) (v : Byte) : (s.setReg r v).pc = s.pc := rfl
@[simp] theorem State.setReg_sp (s : State) (r : Reg) (v : Byte) : (s.setReg r v).sp = s.sp := rfl
@[simp] theorem State.setReg_sreg (s : State) (r : Reg) (v : Byte) : (s.setReg r v).sreg = s.sreg := rfl
@[simp] theorem State.setReg_rampz (s : State) (r : Reg) (v : Byte) : (s.setReg r v).rampz = s.rampz := rfl
@[simp] theorem State.setReg_eind (s : State) (r : Reg) (v : Byte) : (s.setReg r v).eind = s.eind := rfl
@[simp] theorem State.setReg_irqInhibit (s : State) (r : Reg) (v : Byte) : (s.setReg r v).irqInhibit = s.irqInhibit := rfl
@[simp] theorem State.setReg_sleeping (s : State) (r : Reg) (v : Byte) : (s.setReg r v).sleeping = s.sleeping := rfl
@[simp] theorem State.setReg_ram (s : State) (r : Reg) (v : Byte) : (s.setReg r v).ram = s.ram := rfl
@[simp] theorem State.setReg_flash (s : State) (r : Reg) (v : Byte) : (s.setReg r v).flash = s.flash := rfl
@[simp] theorem State.setReg_pending (s : State) (r : Reg) (v : Byte) : (s.setReg r v).pending = s.pending := rfl
@[simp] theorem State.setReg_sleepEnabled (s : State) (r : Reg) (v : Byte) : (s.setReg r v).sleepEnabled = s.sleepEnabled := rfl
@[simp] theorem State.setReg_env (s : State) (r : Reg) (v : Byte) : (s.setReg r v).env = s.env := rfl
@[simp] theorem State.setReg_events (s : State) (r : Reg) (v : Byte) : (s.setReg r v).events = s.events := rfl
@[simp] theorem State.setReg_ioDraws (s : State) (r : Reg) (v : Byte) : (s.setReg r v).ioDraws = s.ioDraws := rfl
@[simp] theorem State.setReg_cycles (s : State) (r : Reg) (v : Byte) : (s.setReg r v).cycles = s.cycles := rfl

/-! `State.setPair`. -/

@[simp] theorem State.setPair_cfg (s : State) (d : Reg) (v : Word) : (s.setPair d v).cfg = s.cfg := rfl
@[simp] theorem State.setPair_regs (s : State) (d : Reg) (v : Word) : (s.setPair d v).regs = (s.regs.set d.val (v.extractLsb' 0 8) d.isLt).set (d + 1).val (v.extractLsb' 8 8) (d + 1).isLt := rfl
@[simp] theorem State.setPair_pc (s : State) (d : Reg) (v : Word) : (s.setPair d v).pc = s.pc := rfl
@[simp] theorem State.setPair_sp (s : State) (d : Reg) (v : Word) : (s.setPair d v).sp = s.sp := rfl
@[simp] theorem State.setPair_sreg (s : State) (d : Reg) (v : Word) : (s.setPair d v).sreg = s.sreg := rfl
@[simp] theorem State.setPair_rampz (s : State) (d : Reg) (v : Word) : (s.setPair d v).rampz = s.rampz := rfl
@[simp] theorem State.setPair_eind (s : State) (d : Reg) (v : Word) : (s.setPair d v).eind = s.eind := rfl
@[simp] theorem State.setPair_irqInhibit (s : State) (d : Reg) (v : Word) : (s.setPair d v).irqInhibit = s.irqInhibit := rfl
@[simp] theorem State.setPair_sleeping (s : State) (d : Reg) (v : Word) : (s.setPair d v).sleeping = s.sleeping := rfl
@[simp] theorem State.setPair_ram (s : State) (d : Reg) (v : Word) : (s.setPair d v).ram = s.ram := rfl
@[simp] theorem State.setPair_flash (s : State) (d : Reg) (v : Word) : (s.setPair d v).flash = s.flash := rfl
@[simp] theorem State.setPair_pending (s : State) (d : Reg) (v : Word) : (s.setPair d v).pending = s.pending := rfl
@[simp] theorem State.setPair_sleepEnabled (s : State) (d : Reg) (v : Word) : (s.setPair d v).sleepEnabled = s.sleepEnabled := rfl
@[simp] theorem State.setPair_env (s : State) (d : Reg) (v : Word) : (s.setPair d v).env = s.env := rfl
@[simp] theorem State.setPair_events (s : State) (d : Reg) (v : Word) : (s.setPair d v).events = s.events := rfl
@[simp] theorem State.setPair_ioDraws (s : State) (d : Reg) (v : Word) : (s.setPair d v).ioDraws = s.ioDraws := rfl
@[simp] theorem State.setPair_cycles (s : State) (d : Reg) (v : Word) : (s.setPair d v).cycles = s.cycles := rfl

/-! `State.setSreg`. -/

@[simp] theorem State.setSreg_cfg (s : State) (v : Byte) : (s.setSreg v).cfg = s.cfg := rfl
@[simp] theorem State.setSreg_regs (s : State) (v : Byte) : (s.setSreg v).regs = s.regs := rfl
@[simp] theorem State.setSreg_pc (s : State) (v : Byte) : (s.setSreg v).pc = s.pc := rfl
@[simp] theorem State.setSreg_sp (s : State) (v : Byte) : (s.setSreg v).sp = s.sp := rfl
@[simp] theorem State.setSreg_sreg (s : State) (v : Byte) : (s.setSreg v).sreg = v := rfl
@[simp] theorem State.setSreg_rampz (s : State) (v : Byte) : (s.setSreg v).rampz = s.rampz := rfl
@[simp] theorem State.setSreg_eind (s : State) (v : Byte) : (s.setSreg v).eind = s.eind := rfl
@[simp] theorem State.setSreg_irqInhibit (s : State) (v : Byte) : (s.setSreg v).irqInhibit = s.irqInhibit := rfl
@[simp] theorem State.setSreg_sleeping (s : State) (v : Byte) : (s.setSreg v).sleeping = s.sleeping := rfl
@[simp] theorem State.setSreg_ram (s : State) (v : Byte) : (s.setSreg v).ram = s.ram := rfl
@[simp] theorem State.setSreg_flash (s : State) (v : Byte) : (s.setSreg v).flash = s.flash := rfl
@[simp] theorem State.setSreg_pending (s : State) (v : Byte) : (s.setSreg v).pending = s.pending := rfl
@[simp] theorem State.setSreg_sleepEnabled (s : State) (v : Byte) : (s.setSreg v).sleepEnabled = s.sleepEnabled := rfl
@[simp] theorem State.setSreg_env (s : State) (v : Byte) : (s.setSreg v).env = s.env := rfl
@[simp] theorem State.setSreg_events (s : State) (v : Byte) : (s.setSreg v).events = s.events := rfl
@[simp] theorem State.setSreg_ioDraws (s : State) (v : Byte) : (s.setSreg v).ioDraws = s.ioDraws := rfl
@[simp] theorem State.setSreg_cycles (s : State) (v : Byte) : (s.setSreg v).cycles = s.cycles := rfl

/-! `State.setPc`. -/

@[simp] theorem State.setPc_cfg (s : State) (a : PcWord) : (s.setPc a).cfg = s.cfg := rfl
@[simp] theorem State.setPc_regs (s : State) (a : PcWord) : (s.setPc a).regs = s.regs := rfl
@[simp] theorem State.setPc_pc (s : State) (a : PcWord) : (s.setPc a).pc = wrapPc s.cfg a := rfl
@[simp] theorem State.setPc_sp (s : State) (a : PcWord) : (s.setPc a).sp = s.sp := rfl
@[simp] theorem State.setPc_sreg (s : State) (a : PcWord) : (s.setPc a).sreg = s.sreg := rfl
@[simp] theorem State.setPc_rampz (s : State) (a : PcWord) : (s.setPc a).rampz = s.rampz := rfl
@[simp] theorem State.setPc_eind (s : State) (a : PcWord) : (s.setPc a).eind = s.eind := rfl
@[simp] theorem State.setPc_irqInhibit (s : State) (a : PcWord) : (s.setPc a).irqInhibit = s.irqInhibit := rfl
@[simp] theorem State.setPc_sleeping (s : State) (a : PcWord) : (s.setPc a).sleeping = s.sleeping := rfl
@[simp] theorem State.setPc_ram (s : State) (a : PcWord) : (s.setPc a).ram = s.ram := rfl
@[simp] theorem State.setPc_flash (s : State) (a : PcWord) : (s.setPc a).flash = s.flash := rfl
@[simp] theorem State.setPc_pending (s : State) (a : PcWord) : (s.setPc a).pending = s.pending := rfl
@[simp] theorem State.setPc_sleepEnabled (s : State) (a : PcWord) : (s.setPc a).sleepEnabled = s.sleepEnabled := rfl
@[simp] theorem State.setPc_env (s : State) (a : PcWord) : (s.setPc a).env = s.env := rfl
@[simp] theorem State.setPc_events (s : State) (a : PcWord) : (s.setPc a).events = s.events := rfl
@[simp] theorem State.setPc_ioDraws (s : State) (a : PcWord) : (s.setPc a).ioDraws = s.ioDraws := rfl
@[simp] theorem State.setPc_cycles (s : State) (a : PcWord) : (s.setPc a).cycles = s.cycles := rfl

/-! `State.setSp`. -/

@[simp] theorem State.setSp_cfg (s : State) (v : Word) : (s.setSp v).cfg = s.cfg := rfl
@[simp] theorem State.setSp_regs (s : State) (v : Word) : (s.setSp v).regs = s.regs := rfl
@[simp] theorem State.setSp_pc (s : State) (v : Word) : (s.setSp v).pc = s.pc := rfl
@[simp] theorem State.setSp_sp (s : State) (v : Word) : (s.setSp v).sp = wrapSp s.cfg v := rfl
@[simp] theorem State.setSp_sreg (s : State) (v : Word) : (s.setSp v).sreg = s.sreg := rfl
@[simp] theorem State.setSp_rampz (s : State) (v : Word) : (s.setSp v).rampz = s.rampz := rfl
@[simp] theorem State.setSp_eind (s : State) (v : Word) : (s.setSp v).eind = s.eind := rfl
@[simp] theorem State.setSp_irqInhibit (s : State) (v : Word) : (s.setSp v).irqInhibit = s.irqInhibit := rfl
@[simp] theorem State.setSp_sleeping (s : State) (v : Word) : (s.setSp v).sleeping = s.sleeping := rfl
@[simp] theorem State.setSp_ram (s : State) (v : Word) : (s.setSp v).ram = s.ram := rfl
@[simp] theorem State.setSp_flash (s : State) (v : Word) : (s.setSp v).flash = s.flash := rfl
@[simp] theorem State.setSp_pending (s : State) (v : Word) : (s.setSp v).pending = s.pending := rfl
@[simp] theorem State.setSp_sleepEnabled (s : State) (v : Word) : (s.setSp v).sleepEnabled = s.sleepEnabled := rfl
@[simp] theorem State.setSp_env (s : State) (v : Word) : (s.setSp v).env = s.env := rfl
@[simp] theorem State.setSp_events (s : State) (v : Word) : (s.setSp v).events = s.events := rfl
@[simp] theorem State.setSp_ioDraws (s : State) (v : Word) : (s.setSp v).ioDraws = s.ioDraws := rfl
@[simp] theorem State.setSp_cycles (s : State) (v : Word) : (s.setSp v).cycles = s.cycles := rfl

/-! `State.tick`. -/

@[simp] theorem State.tick_cfg (s : State) (n : Nat) : (s.tick n).cfg = s.cfg := rfl
@[simp] theorem State.tick_regs (s : State) (n : Nat) : (s.tick n).regs = s.regs := rfl
@[simp] theorem State.tick_pc (s : State) (n : Nat) : (s.tick n).pc = s.pc := rfl
@[simp] theorem State.tick_sp (s : State) (n : Nat) : (s.tick n).sp = s.sp := rfl
@[simp] theorem State.tick_sreg (s : State) (n : Nat) : (s.tick n).sreg = s.sreg := rfl
@[simp] theorem State.tick_rampz (s : State) (n : Nat) : (s.tick n).rampz = s.rampz := rfl
@[simp] theorem State.tick_eind (s : State) (n : Nat) : (s.tick n).eind = s.eind := rfl
@[simp] theorem State.tick_irqInhibit (s : State) (n : Nat) : (s.tick n).irqInhibit = s.irqInhibit := rfl
@[simp] theorem State.tick_sleeping (s : State) (n : Nat) : (s.tick n).sleeping = s.sleeping := rfl
@[simp] theorem State.tick_ram (s : State) (n : Nat) : (s.tick n).ram = s.ram := rfl
@[simp] theorem State.tick_flash (s : State) (n : Nat) : (s.tick n).flash = s.flash := rfl
@[simp] theorem State.tick_pending (s : State) (n : Nat) : (s.tick n).pending = s.pending := rfl
@[simp] theorem State.tick_sleepEnabled (s : State) (n : Nat) : (s.tick n).sleepEnabled = s.sleepEnabled := rfl
@[simp] theorem State.tick_env (s : State) (n : Nat) : (s.tick n).env = s.env := rfl
@[simp] theorem State.tick_events (s : State) (n : Nat) : (s.tick n).events = s.events := rfl
@[simp] theorem State.tick_ioDraws (s : State) (n : Nat) : (s.tick n).ioDraws = s.ioDraws := rfl
@[simp] theorem State.tick_cycles (s : State) (n : Nat) : (s.tick n).cycles = s.cycles + n := rfl

/-! `State.advance`. -/

@[simp] theorem State.advance_cfg (s : State) (w n : Nat) : (s.advance w n).cfg = s.cfg := rfl
@[simp] theorem State.advance_regs (s : State) (w n : Nat) : (s.advance w n).regs = s.regs := rfl
@[simp] theorem State.advance_pc (s : State) (w n : Nat) : (s.advance w n).pc = wrapPc s.cfg (s.pc + BitVec.ofNat 22 w) := rfl
@[simp] theorem State.advance_sp (s : State) (w n : Nat) : (s.advance w n).sp = s.sp := rfl
@[simp] theorem State.advance_sreg (s : State) (w n : Nat) : (s.advance w n).sreg = s.sreg := rfl
@[simp] theorem State.advance_rampz (s : State) (w n : Nat) : (s.advance w n).rampz = s.rampz := rfl
@[simp] theorem State.advance_eind (s : State) (w n : Nat) : (s.advance w n).eind = s.eind := rfl
@[simp] theorem State.advance_irqInhibit (s : State) (w n : Nat) : (s.advance w n).irqInhibit = s.irqInhibit := rfl
@[simp] theorem State.advance_sleeping (s : State) (w n : Nat) : (s.advance w n).sleeping = s.sleeping := rfl
@[simp] theorem State.advance_ram (s : State) (w n : Nat) : (s.advance w n).ram = s.ram := rfl
@[simp] theorem State.advance_flash (s : State) (w n : Nat) : (s.advance w n).flash = s.flash := rfl
@[simp] theorem State.advance_pending (s : State) (w n : Nat) : (s.advance w n).pending = s.pending := rfl
@[simp] theorem State.advance_sleepEnabled (s : State) (w n : Nat) : (s.advance w n).sleepEnabled = s.sleepEnabled := rfl
@[simp] theorem State.advance_env (s : State) (w n : Nat) : (s.advance w n).env = s.env := rfl
@[simp] theorem State.advance_events (s : State) (w n : Nat) : (s.advance w n).events = s.events := rfl
@[simp] theorem State.advance_ioDraws (s : State) (w n : Nat) : (s.advance w n).ioDraws = s.ioDraws := rfl
@[simp] theorem State.advance_cycles (s : State) (w n : Nat) : (s.advance w n).cycles = s.cycles + n := rfl

/-! `State.jump`. -/

@[simp] theorem State.jump_cfg (s : State) (a : PcWord) (n : Nat) : (s.jump a n).cfg = s.cfg := rfl
@[simp] theorem State.jump_regs (s : State) (a : PcWord) (n : Nat) : (s.jump a n).regs = s.regs := rfl
@[simp] theorem State.jump_pc (s : State) (a : PcWord) (n : Nat) : (s.jump a n).pc = wrapPc s.cfg a := rfl
@[simp] theorem State.jump_sp (s : State) (a : PcWord) (n : Nat) : (s.jump a n).sp = s.sp := rfl
@[simp] theorem State.jump_sreg (s : State) (a : PcWord) (n : Nat) : (s.jump a n).sreg = s.sreg := rfl
@[simp] theorem State.jump_rampz (s : State) (a : PcWord) (n : Nat) : (s.jump a n).rampz = s.rampz := rfl
@[simp] theorem State.jump_eind (s : State) (a : PcWord) (n : Nat) : (s.jump a n).eind = s.eind := rfl
@[simp] theorem State.jump_irqInhibit (s : State) (a : PcWord) (n : Nat) : (s.jump a n).irqInhibit = s.irqInhibit := rfl
@[simp] theorem State.jump_sleeping (s : State) (a : PcWord) (n : Nat) : (s.jump a n).sleeping = s.sleeping := rfl
@[simp] theorem State.jump_ram (s : State) (a : PcWord) (n : Nat) : (s.jump a n).ram = s.ram := rfl
@[simp] theorem State.jump_flash (s : State) (a : PcWord) (n : Nat) : (s.jump a n).flash = s.flash := rfl
@[simp] theorem State.jump_pending (s : State) (a : PcWord) (n : Nat) : (s.jump a n).pending = s.pending := rfl
@[simp] theorem State.jump_sleepEnabled (s : State) (a : PcWord) (n : Nat) : (s.jump a n).sleepEnabled = s.sleepEnabled := rfl
@[simp] theorem State.jump_env (s : State) (a : PcWord) (n : Nat) : (s.jump a n).env = s.env := rfl
@[simp] theorem State.jump_events (s : State) (a : PcWord) (n : Nat) : (s.jump a n).events = s.events := rfl
@[simp] theorem State.jump_ioDraws (s : State) (a : PcWord) (n : Nat) : (s.jump a n).ioDraws = s.ioDraws := rfl
@[simp] theorem State.jump_cycles (s : State) (a : PcWord) (n : Nat) : (s.jump a n).cycles = s.cycles + n := rfl

/-! `State.emit`. -/

@[simp] theorem State.emit_cfg (s : State) (e : OutEvent) : (s.emit e).cfg = s.cfg := rfl
@[simp] theorem State.emit_regs (s : State) (e : OutEvent) : (s.emit e).regs = s.regs := rfl
@[simp] theorem State.emit_pc (s : State) (e : OutEvent) : (s.emit e).pc = s.pc := rfl
@[simp] theorem State.emit_sp (s : State) (e : OutEvent) : (s.emit e).sp = s.sp := rfl
@[simp] theorem State.emit_sreg (s : State) (e : OutEvent) : (s.emit e).sreg = s.sreg := rfl
@[simp] theorem State.emit_rampz (s : State) (e : OutEvent) : (s.emit e).rampz = s.rampz := rfl
@[simp] theorem State.emit_eind (s : State) (e : OutEvent) : (s.emit e).eind = s.eind := rfl
@[simp] theorem State.emit_irqInhibit (s : State) (e : OutEvent) : (s.emit e).irqInhibit = s.irqInhibit := rfl
@[simp] theorem State.emit_sleeping (s : State) (e : OutEvent) : (s.emit e).sleeping = s.sleeping := rfl
@[simp] theorem State.emit_ram (s : State) (e : OutEvent) : (s.emit e).ram = s.ram := rfl
@[simp] theorem State.emit_flash (s : State) (e : OutEvent) : (s.emit e).flash = s.flash := rfl
@[simp] theorem State.emit_pending (s : State) (e : OutEvent) : (s.emit e).pending = s.pending := rfl
@[simp] theorem State.emit_sleepEnabled (s : State) (e : OutEvent) : (s.emit e).sleepEnabled = s.sleepEnabled := rfl
@[simp] theorem State.emit_env (s : State) (e : OutEvent) : (s.emit e).env = s.env := rfl
@[simp] theorem State.emit_events (s : State) (e : OutEvent) : (s.emit e).events = s.events ++ [e] := rfl
@[simp] theorem State.emit_ioDraws (s : State) (e : OutEvent) : (s.emit e).ioDraws = s.ioDraws := rfl
@[simp] theorem State.emit_cycles (s : State) (e : OutEvent) : (s.emit e).cycles = s.cycles := rfl

/-! `State.setRam`. -/

@[simp] theorem State.setRam_cfg (s : State) (a : Addr) (v : Byte) : (s.setRam a v).cfg = s.cfg := rfl
@[simp] theorem State.setRam_regs (s : State) (a : Addr) (v : Byte) : (s.setRam a v).regs = s.regs := rfl
@[simp] theorem State.setRam_pc (s : State) (a : Addr) (v : Byte) : (s.setRam a v).pc = s.pc := rfl
@[simp] theorem State.setRam_sp (s : State) (a : Addr) (v : Byte) : (s.setRam a v).sp = s.sp := rfl
@[simp] theorem State.setRam_sreg (s : State) (a : Addr) (v : Byte) : (s.setRam a v).sreg = s.sreg := rfl
@[simp] theorem State.setRam_rampz (s : State) (a : Addr) (v : Byte) : (s.setRam a v).rampz = s.rampz := rfl
@[simp] theorem State.setRam_eind (s : State) (a : Addr) (v : Byte) : (s.setRam a v).eind = s.eind := rfl
@[simp] theorem State.setRam_irqInhibit (s : State) (a : Addr) (v : Byte) : (s.setRam a v).irqInhibit = s.irqInhibit := rfl
@[simp] theorem State.setRam_sleeping (s : State) (a : Addr) (v : Byte) : (s.setRam a v).sleeping = s.sleeping := rfl
@[simp] theorem State.setRam_ram (s : State) (a : Addr) (v : Byte) : (s.setRam a v).ram = Memory.write ramUnlisted s.ram a.toNat v := rfl
@[simp] theorem State.setRam_flash (s : State) (a : Addr) (v : Byte) : (s.setRam a v).flash = s.flash := rfl
@[simp] theorem State.setRam_pending (s : State) (a : Addr) (v : Byte) : (s.setRam a v).pending = s.pending := rfl
@[simp] theorem State.setRam_sleepEnabled (s : State) (a : Addr) (v : Byte) : (s.setRam a v).sleepEnabled = s.sleepEnabled := rfl
@[simp] theorem State.setRam_env (s : State) (a : Addr) (v : Byte) : (s.setRam a v).env = s.env := rfl
@[simp] theorem State.setRam_events (s : State) (a : Addr) (v : Byte) : (s.setRam a v).events = s.events := rfl
@[simp] theorem State.setRam_ioDraws (s : State) (a : Addr) (v : Byte) : (s.setRam a v).ioDraws = s.ioDraws := rfl
@[simp] theorem State.setRam_cycles (s : State) (a : Addr) (v : Byte) : (s.setRam a v).cycles = s.cycles := rfl

/-! Registers after a write. -/

@[simp] theorem State.reg_setReg_same (s : State) (r : Reg) (v : Byte) : (s.setReg r v).reg r = v := by
  simp [State.reg]

theorem State.reg_setReg (s : State) (r q : Reg) (v : Byte) :
    (s.setReg r v).reg q = if q = r then v else s.reg q := by
  by_cases h : q = r
  · subst h; simp
  · have : r.val ≠ q.val := fun e => h (Fin.ext e.symm)
    simp [State.reg, this, h]

end Sys2Proof.Machine
end

