-- ==== Sys2Proof/Laws/Bits.lean ====
section
/-! SUPPORT. The bits of the status register, the flag formulas of Flags.lean as the arithmetic of Safety.lean, and the
counters as numbers modulo their width. -/

namespace Sys2Proof.Machine

/-- One bit written, all others kept. -/
theorem putBit_getLsbD {n : Nat} (v : BitVec n) (i k : Nat) (b : Bool) :
    (putBit v i b).getLsbD k = if k = i ∧ k < n then b else v.getLsbD k := by
  unfold putBit
  by_cases hk : k < n
  · by_cases hi : k = i
    · subst hi
      have : 0 < n := by omega
      cases b <;> simp [hk, this, BitVec.getLsbD_shiftLeft, BitVec.getLsbD_one, -BitVec.getLsbD_eq_getElem]
    · have : ¬(k - i = 0 ∧ ¬k < i) := by omega
      cases b <;> simp [hk, hi, BitVec.getLsbD_shiftLeft, BitVec.getLsbD_one, -BitVec.getLsbD_eq_getElem] <;> omega
  · have : (k = i ∧ k < n) ↔ False := by simp [hk]
    simp only [this, if_false]
    rw [BitVec.getLsbD_of_ge _ _ (by omega), BitVec.getLsbD_of_ge _ _ (by omega)]

/-- Two bytes with the same eight bits are equal. -/
theorem byte_ext {x y : Byte} (h0 : x.getLsbD 0 = y.getLsbD 0) (h1 : x.getLsbD 1 = y.getLsbD 1)
    (h2 : x.getLsbD 2 = y.getLsbD 2) (h3 : x.getLsbD 3 = y.getLsbD 3) (h4 : x.getLsbD 4 = y.getLsbD 4)
    (h5 : x.getLsbD 5 = y.getLsbD 5) (h6 : x.getLsbD 6 = y.getLsbD 6) (h7 : x.getLsbD 7 = y.getLsbD 7) : x = y := by
  refine BitVec.eq_of_getLsbD_eq (fun i hi => ?_)
  rcases i with _ | _ | _ | _ | _ | _ | _ | _ | i
  all_goals first | assumption | omega

/-- The eight bits of a packed status register. -/
theorem packSreg_bits (i t h s v n z c : Bool) :
    (packSreg i t h s v n z c).getLsbD 0 = c ∧ (packSreg i t h s v n z c).getLsbD 1 = z ∧
    (packSreg i t h s v n z c).getLsbD 2 = n ∧ (packSreg i t h s v n z c).getLsbD 3 = v ∧
    (packSreg i t h s v n z c).getLsbD 4 = s ∧ (packSreg i t h s v n z c).getLsbD 5 = h ∧
    (packSreg i t h s v n z c).getLsbD 6 = t ∧ (packSreg i t h s v n z c).getLsbD 7 = i := by
  revert i t h s v n z c
  decide

/-- A status register is the packing of its bits. -/
theorem eq_packSreg (x : Byte) :
    x = packSreg (x.getLsbD 7) (x.getLsbD 6) (x.getLsbD 5) (x.getLsbD 4) (x.getLsbD 3) (x.getLsbD 2) (x.getLsbD 1)
      (x.getLsbD 0) := by
  obtain ⟨h0, h1, h2, h3, h4, h5, h6, h7⟩ := packSreg_bits (x.getLsbD 7) (x.getLsbD 6) (x.getLsbD 5) (x.getLsbD 4)
    (x.getLsbD 3) (x.getLsbD 2) (x.getLsbD 1) (x.getLsbD 0)
  exact byte_ext h0.symm h1.symm h2.symm h3.symm h4.symm h5.symm h6.symm h7.symm

theorem putSVNZ_eq (x : Byte) (v n z : Bool) :
    putSVNZ x v n z = packSreg (x.getLsbD 7) (x.getLsbD 6) (x.getLsbD 5) (n ^^ v) v n z (x.getLsbD 0) := by
  rw [eq_packSreg (putSVNZ x v n z)]
  simp [putSVNZ, putBit_getLsbD, bitS, bitV, bitN, bitZ, -BitVec.getLsbD_eq_getElem]

theorem putSVNZC_eq (x : Byte) (v n z c : Bool) :
    putSVNZC x v n z c = packSreg (x.getLsbD 7) (x.getLsbD 6) (x.getLsbD 5) (n ^^ v) v n z c := by
  rw [eq_packSreg (putSVNZC x v n z c)]
  simp [putSVNZC, putSVNZ, putBit_getLsbD, bitS, bitV, bitN, bitZ, bitC, -BitVec.getLsbD_eq_getElem]

theorem putHSVNZC_eq (x : Byte) (h v n z c : Bool) :
    putHSVNZC x h v n z c = packSreg (x.getLsbD 7) (x.getLsbD 6) h (n ^^ v) v n z c := by
  rw [eq_packSreg (putHSVNZC x h v n z c)]
  simp [putHSVNZC, putSVNZC, putSVNZ, putBit_getLsbD, bitS, bitV, bitN, bitZ, bitC, bitH,
    -BitVec.getLsbD_eq_getElem]

/-- Bit 7 of a byte is its upper half. -/
theorem bit7_eq (x : Byte) : x.getLsbD 7 = decide (128 ≤ x.toNat) := by
  have := x.isLt
  rw [← BitVec.testBit_toNat, Nat.testBit_eq_decide_div_mod_eq]
  congr 1
  exact propext (by omega)

/-- Bit 3 of a byte is the upper half of its low digit. -/
theorem bit3_eq (x : Byte) : x.getLsbD 3 = decide (8 ≤ x.toNat % 16) := by
  rw [← BitVec.testBit_toNat, Nat.testBit_eq_decide_div_mod_eq]
  congr 1
  exact propext (by omega)

/-- Bit 15 of a word is its upper half. -/
theorem bit15_eq (x : Word) : x.getLsbD 15 = decide (32768 ≤ x.toNat) := by
  have := x.isLt
  rw [← BitVec.testBit_toNat, Nat.testBit_eq_decide_div_mod_eq]
  congr 1
  exact propext (by omega)

theorem beq_zero_eq {n : Nat} (x : BitVec n) : (x == 0) = decide (x.toNat = 0) := by
  by_cases h : x = 0
  · subst h; simp
  · have : x.toNat ≠ 0 := fun e => h (BitVec.eq_of_toNat_eq (by simpa using e))
    have hx : (x == 0) = false := by simpa using h
    rw [hx, eq_comm, decide_eq_false_iff_not]
    exact this

theorem toInt_byte (x : Byte) : x.toInt = if x.toNat < 128 then (x.toNat : Int) else x.toNat - 256 := by
  rw [BitVec.toInt_eq_toNat_cond]
  split <;> split <;> omega

theorem toInt_word (x : Word) : x.toInt = if x.toNat < 32768 then (x.toNat : Int) else x.toNat - 65536 := by
  rw [BitVec.toInt_eq_toNat_cond]
  split <;> split <;> omega

/-- The number of the carry flag. -/
theorem State.carry_toNat (s : State) : s.carry.toNat = if s.flag 0 then 1 else 0 := by
  unfold State.carry bitC
  split <;> rfl

/-- Two truth values are equal when each follows from the other. -/
theorem bool_eq_of_iff {p q : Bool} (h : p = true ↔ q = true) : p = q := Bool.eq_iff_iff.mpr h

/-- The addition class in arithmetic (R40). -/
theorem addFlags_eq (x a b c : Byte) (hc : c.toNat ≤ 1) :
    addFlags x a b (a + b + c) = addSreg x a b c.toNat := by
  have ha := a.isLt
  have hb := b.isLt
  have hr : (a + b + c).toNat = (a.toNat + b.toNat + c.toNat) % 256 := by simp [BitVec.toNat_add]
  have hl : (a + b + c).toNat < 256 := (a + b + c).isLt
  have hN : (a + b + c).getLsbD 7 = decide (128 ≤ (a.toNat + b.toNat + c.toNat) % 256) := by rw [bit7_eq, hr]
  have hZ : ((a + b + c) == 0) = decide ((a.toNat + b.toNat + c.toNat) % 256 = 0) := by rw [beq_zero_eq, hr]
  have hH : carryAt 3 a b (a + b + c) = decide (15 < a.toNat % 16 + b.toNat % 16 + c.toNat) := by
    simp only [carryAt, bit3_eq]
    generalize (a + b + c).toNat = r at *
    apply bool_eq_of_iff
    simp
    omega
  have hC : carryAt 7 a b (a + b + c) = decide (255 < a.toNat + b.toNat + c.toNat) := by
    simp only [carryAt, bit7_eq]
    generalize (a + b + c).toNat = r at *
    apply bool_eq_of_iff
    simp
    omega
  have hV : addOverflow a b (a + b + c) = overflows 8 (a.toInt + b.toInt + c.toNat) := by
    simp only [addOverflow, bit7_eq, overflows, toInt_byte]
    generalize (a + b + c).toNat = r at *
    apply bool_eq_of_iff
    simp
    split_ifs <;> omega
  unfold addFlags
  rw [putHSVNZC_eq, hH, hC, hV, hN, hZ]
  rfl

/-- The result of a subtraction as a number. -/
theorem toNat_sub_sub (a b c : Byte) (hc : c.toNat ≤ 1) :
    ((a - b - c).toNat : Int) = ((a.toNat : Int) - b.toNat - c.toNat) % 256 := by
  have ha := a.isLt
  have hb := b.isLt
  simp only [BitVec.toNat_sub]
  omega

/-- The subtraction class in arithmetic, for any zero flag (R41). -/
theorem subClass_eq (x a b c : Byte) (z : Bool) (hc : c.toNat ≤ 1) :
    putHSVNZC x (borrowAt 3 a b (a - b - c)) (subOverflow a b (a - b - c)) ((a - b - c).getLsbD 7)
      ((a - b - c) == 0 && z) (borrowAt 7 a b (a - b - c)) = subSreg x a b c.toNat z := by
  have ha := a.isLt
  have hb := b.isLt
  have hr := toNat_sub_sub a b c hc
  have hl : (a - b - c).toNat < 256 := (a - b - c).isLt
  have hN : (a - b - c).getLsbD 7 = decide (128 ≤ ((a.toNat : Int) - b.toNat - c.toNat) % 256) := by
    rw [bit7_eq, ← hr]
    exact bool_eq_of_iff (by simp only [decide_eq_true_iff]; omega)
  have hZ : ((a - b - c) == 0) = decide (((a.toNat : Int) - b.toNat - c.toNat) % 256 = 0) := by
    rw [beq_zero_eq, ← hr]
    exact bool_eq_of_iff (by simp only [decide_eq_true_iff]; omega)
  have hH : borrowAt 3 a b (a - b - c) = decide (a.toNat % 16 < b.toNat % 16 + c.toNat) := by
    simp only [borrowAt, bit3_eq]
    generalize (a - b - c).toNat = r at *
    apply bool_eq_of_iff
    simp
    omega
  have hC : borrowAt 7 a b (a - b - c) = decide (a.toNat < b.toNat + c.toNat) := by
    simp only [borrowAt, bit7_eq]
    generalize (a - b - c).toNat = r at *
    apply bool_eq_of_iff
    simp
    omega
  have hV : subOverflow a b (a - b - c) = overflows 8 (a.toInt - b.toInt - c.toNat) := by
    simp only [subOverflow, bit7_eq, overflows, toInt_byte]
    generalize (a - b - c).toNat = r at *
    apply bool_eq_of_iff
    simp
    split_ifs <;> omega
  rw [putHSVNZC_eq, hH, hC, hV, hN, hZ]
  rfl

/-- The subtraction class with a plain Z (R41). -/
theorem subFlags_eq (x a b : Byte) : subFlags x a b (a - b) = subSreg x a b 0 true := by
  have h := subClass_eq x a b 0 true (by decide)
  simpa [subFlags, -BitVec.getLsbD_eq_getElem] using h

/-- The subtraction class with carry (R41). -/
theorem subCarryFlags_eq (x a b c : Byte) (hc : c.toNat ≤ 1) :
    subCarryFlags x a b (a - b - c) = subSreg x a b c.toNat (x.getLsbD 1) :=
  subClass_eq x a b c (x.getLsbD 1) hc

/-- The logic class in arithmetic (R42). -/
theorem logicFlags_eq (x r : Byte) : logicFlags x r = logicSreg x r (x.getLsbD 0) := by
  unfold logicFlags
  rw [putSVNZ_eq, bit7_eq r, beq_zero_eq, Bool.xor_false]
  rfl

/-- COM in arithmetic (R42). -/
theorem comFlags_eq (x r : Byte) : comFlags x r = logicSreg x r true := by
  unfold comFlags
  rw [putSVNZC_eq, bit7_eq r, beq_zero_eq, Bool.xor_false]
  rfl

/-- The right shifts in arithmetic (R43). -/
theorem shiftFlags_eq (x r : Byte) (c : Bool) : shiftFlags x r c = shiftSreg x r c := by
  unfold shiftFlags
  rw [putSVNZC_eq, bit7_eq r, beq_zero_eq]
  rfl

/-- ADIW in arithmetic (R44). -/
theorem adiwFlags_eq (x : Byte) (w : Word) (k : BitVec 6) :
    adiwFlags x w (w + k.setWidth 16) = wordSreg x w k.toNat := by
  have hw := w.isLt
  have hk := k.isLt
  have hr : (w + k.setWidth 16).toNat = (w.toNat + k.toNat) % 65536 := by simp [BitVec.toNat_add]
  have hl : (w + k.setWidth 16).toNat < 65536 := (w + k.setWidth 16).isLt
  have hN : (w + k.setWidth 16).getLsbD 15 = decide (32768 ≤ ((w.toNat : Int) + k.toNat) % 65536) := by
    rw [bit15_eq, hr]
    exact bool_eq_of_iff (by simp; omega)
  have hZ : ((w + k.setWidth 16) == 0) = decide (((w.toNat : Int) + k.toNat) % 65536 = 0) := by
    rw [beq_zero_eq, hr]
    exact bool_eq_of_iff (by simp; omega)
  have hC : (!(w + k.setWidth 16).getLsbD 15 && w.getLsbD 15) =
      (decide ((w.toNat : Int) + k.toNat < 0) || decide (65535 < (w.toNat : Int) + k.toNat)) := by
    simp only [bit15_eq]
    generalize (w + k.setWidth 16).toNat = r at *
    apply bool_eq_of_iff
    simp
    omega
  have hV : (!w.getLsbD 15 && (w + k.setWidth 16).getLsbD 15) = overflows 16 (w.toInt + k.toNat) := by
    simp only [bit15_eq, overflows, toInt_word]
    generalize (w + k.setWidth 16).toNat = r at *
    apply bool_eq_of_iff
    simp
    split_ifs <;> omega
  unfold adiwFlags
  rw [putSVNZC_eq, hC, hV, hN, hZ]
  rfl

/-- SBIW in arithmetic (R44). -/
theorem sbiwFlags_eq (x : Byte) (w : Word) (k : BitVec 6) :
    sbiwFlags x w (w - k.setWidth 16) = wordSreg x w (-k.toNat) := by
  have hw := w.isLt
  have hk := k.isLt
  have hr : ((w - k.setWidth 16).toNat : Int) = ((w.toNat : Int) + -k.toNat) % 65536 := by
    simp only [BitVec.toNat_sub, BitVec.toNat_setWidth]
    omega
  have hl : (w - k.setWidth 16).toNat < 65536 := (w - k.setWidth 16).isLt
  have hN : (w - k.setWidth 16).getLsbD 15 = decide (32768 ≤ ((w.toNat : Int) + -k.toNat) % 65536) := by
    rw [bit15_eq, ← hr]
    exact bool_eq_of_iff (by simp only [decide_eq_true_iff]; omega)
  have hZ : ((w - k.setWidth 16) == 0) = decide (((w.toNat : Int) + -k.toNat) % 65536 = 0) := by
    rw [beq_zero_eq, ← hr]
    exact bool_eq_of_iff (by simp only [decide_eq_true_iff]; omega)
  have hC : ((w - k.setWidth 16).getLsbD 15 && !w.getLsbD 15) =
      (decide ((w.toNat : Int) + -k.toNat < 0) || decide (65535 < (w.toNat : Int) + -k.toNat)) := by
    simp only [bit15_eq]
    generalize (w - k.setWidth 16).toNat = r at *
    apply bool_eq_of_iff
    simp
    omega
  have hV : (w.getLsbD 15 && !(w - k.setWidth 16).getLsbD 15) = overflows 16 (w.toInt + -k.toNat) := by
    simp only [bit15_eq, overflows, toInt_word]
    generalize (w - k.setWidth 16).toNat = r at *
    apply bool_eq_of_iff
    simp
    split_ifs <;> omega
  unfold sbiwFlags
  rw [putSVNZC_eq, hC, hV, hN, hZ]
  rfl

theorem beq_lit (r : Byte) (n : Nat) (hn : n < 256) : (r == BitVec.ofNat 8 n) = decide (r.toNat = n) := by
  apply bool_eq_of_iff
  rw [beq_iff_eq, decide_eq_true_iff]
  constructor
  · intro h; subst h; simpa using hn
  · intro h; exact BitVec.eq_of_toNat_eq (by simp; omega)

/-- INC in arithmetic (R45). -/
theorem incFlags_eq (x a : Byte) : incFlags x (a + 1) = countSreg x a 1 := by
  have ha := a.isLt
  have hr : (a + 1).toNat = (a.toNat + 1) % 256 := by simp [BitVec.toNat_add]
  have hl : (a + 1).toNat < 256 := (a + 1).isLt
  have hN : (a + 1).getLsbD 7 = decide (128 ≤ ((a.toNat : Int) + 1) % 256) := by
    rw [bit7_eq, hr]
    exact bool_eq_of_iff (by simp; omega)
  have hZ : ((a + 1) == 0) = decide (((a.toNat : Int) + 1) % 256 = 0) := by
    rw [beq_zero_eq, hr]
    exact bool_eq_of_iff (by simp; omega)
  have hV : ((a + 1) == 0x80) = overflows 8 (a.toInt + 1) := by
    rw [show ((a + 1) == 0x80) = _ from beq_lit (a + 1) 128 (by omega)]
    simp only [overflows, toInt_byte]
    generalize (a + 1).toNat = r at *
    apply bool_eq_of_iff
    simp
    split_ifs <;> omega
  unfold incFlags
  rw [putSVNZ_eq, hV, hN, hZ]
  rfl

/-- DEC in arithmetic (R45). -/
theorem decFlags_eq (x a : Byte) : decFlags x (a - 1) = countSreg x a (-1) := by
  have ha := a.isLt
  have hr : (a - 1).toNat = (a.toNat + 255) % 256 := by
    simp only [BitVec.toNat_sub]
    simp
    omega
  have hl : (a - 1).toNat < 256 := (a - 1).isLt
  have hN : (a - 1).getLsbD 7 = decide (128 ≤ ((a.toNat : Int) + (-1)) % 256) := by
    rw [bit7_eq, hr]
    exact bool_eq_of_iff (by simp; omega)
  have hZ : ((a - 1) == 0) = decide (((a.toNat : Int) + (-1)) % 256 = 0) := by
    rw [beq_zero_eq, hr]
    exact bool_eq_of_iff (by simp; omega)
  have hV : ((a - 1) == 0x7F) = overflows 8 (a.toInt + (-1)) := by
    rw [show ((a - 1) == 0x7F) = _ from beq_lit (a - 1) 127 (by omega)]
    simp only [overflows, toInt_byte]
    generalize (a - 1).toNat = r at *
    apply bool_eq_of_iff
    simp
    split_ifs <;> omega
  unfold decFlags
  rw [putSVNZ_eq, hV, hN, hZ]
  rfl

/-- The multiplications: Z and C only (R320). -/
theorem mulFlags_eq (x : Byte) (r : Word) (c : Bool) : mulFlags x r c = productSreg x (decide (r.toNat = 0)) c := by
  rw [eq_packSreg (mulFlags x r c), ← beq_zero_eq]
  simp [mulFlags, productSreg, putBit_getLsbD, bitZ, bitC, -BitVec.getLsbD_eq_getElem]

/-! Counters. -/

/-- The program counter's wrap is the remainder (R26). -/
theorem wrapPc_eq (c : Config) (a : PcWord) : wrapPc c a = pcOf c a.toNat := by
  have := a.isLt
  apply BitVec.eq_of_toNat_eq
  unfold wrapPc pcOf Config.pcBits
  cases c.pcWidth <;> simp [PcWidth.bits, BitVec.toNat_ofInt] <;> omega

/-- A word address computed in 22 bits has the same remainder as the number (R26). -/
theorem wrapPc_of_emod (c : Config) (a : PcWord) (n : Int) (h : (a.toNat : Int) = n % 4194304) :
    wrapPc c a = pcOf c n := by
  rw [wrapPc_eq, h]
  unfold pcOf Config.pcBits
  cases c.pcWidth <;> simp [PcWidth.bits]

/-- The address some words further on. -/
theorem wrapPc_add (c : Config) (a : PcWord) (n : Nat) :
    wrapPc c (a + BitVec.ofNat 22 n) = pcOf c (a.toNat + n) := by
  apply wrapPc_of_emod
  simp [BitVec.toNat_add]

/-- The target of a relative branch, jump or call (R106, R220). -/
theorem wrapPc_relTarget {n : Nat} (s : State) (k : BitVec n) (hn : n ≤ 22) :
    wrapPc s.cfg (relTarget s k) = pcOf s.cfg (s.pc.toNat + 1 + k.toInt) := by
  apply wrapPc_of_emod
  have h := BitVec.toInt_signExtend_of_le (x := k) hn
  have h2 : ((k.signExtend 22).toNat : Int) = k.toInt % 4194304 := by
    rw [← h, BitVec.toInt_eq_toNat_bmod]
    have := (k.signExtend 22).isLt
    simp [Int.bmod]
    omega
  unfold relTarget
  simp only [BitVec.toNat_add]
  push_cast
  rw [h2]
  simp

/-- The stack pointer's wrap is the remainder (R27). -/
theorem wrapSp_eq (c : Config) (v : Word) : wrapSp c v = spOf c v.toNat := by
  have hv := v.isLt
  unfold wrapSp spOf
  apply BitVec.eq_of_toNat_eq
  rcases Nat.lt_or_ge c.spBits 16 with h | h
  · have hp : 2 ^ c.spBits < 65536 := by
      calc 2 ^ c.spBits < 2 ^ 16 := Nat.pow_lt_pow_right (by omega) h
        _ = 65536 := rfl
    have h1 : ((1#16 <<< c.spBits) - 1#16).toNat = 2 ^ c.spBits - 1 := by
      have h0 : (1#16 <<< c.spBits).toNat = 2 ^ c.spBits := by
        simp [BitVec.toNat_shiftLeft, Nat.shiftLeft_eq]
        omega
      have : 0 < 2 ^ c.spBits := by positivity
      rw [BitVec.toNat_sub, h0]
      simp
      omega
    rw [BitVec.toNat_and, h1, Nat.and_two_pow_sub_one_eq_mod, BitVec.toNat_ofInt]
    have hm : v.toNat % 2 ^ c.spBits < 65536 := lt_trans (Nat.mod_lt _ (by positivity)) hp
    have : ((v.toNat : Int) % 2 ^ c.spBits) = ((v.toNat % 2 ^ c.spBits : Nat) : Int) := by push_cast; rfl
    rw [this, show ((2 ^ 16 : Nat) : Int) = 65536 from rfl, Int.emod_eq_of_lt (by omega) (by omega), Int.toNat_natCast]
  · have h1 : (1#16 <<< c.spBits) = 0#16 := by
      apply BitVec.eq_of_toNat_eq
      simp [BitVec.toNat_shiftLeft, Nat.shiftLeft_eq]
      exact Nat.dvd_iff_mod_eq_zero.mp (Nat.pow_dvd_pow 2 h)
    have hp : 65536 ≤ 2 ^ c.spBits := by
      calc 65536 = 2 ^ 16 := rfl
        _ ≤ 2 ^ c.spBits := Nat.pow_le_pow_right (by omega) h
    have hm : ((v.toNat : Int) % 2 ^ c.spBits) = v.toNat := by
      have : ((v.toNat % 2 ^ c.spBits : Nat) : Int) = v.toNat := by rw [Nat.mod_eq_of_lt (by omega)]
      exact_mod_cast this
    rw [h1, hm, BitVec.toNat_and]
    have : v.toNat &&& 65535 = v.toNat := by
      rw [show (65535 : Nat) = 2 ^ 16 - 1 from rfl, Nat.and_two_pow_sub_one_eq_mod]
      omega
    simp [this]

/-- A stack pointer computed in 16 bits has the same remainder as the number. -/
theorem wrapSp_of_emod (c : Config) (v : Word) (n : Int) (h : (v.toNat : Int) = n % 65536) : wrapSp c v = spOf c n := by
  rw [wrapSp_eq, h]
  unfold spOf
  rcases Nat.le_total c.spBits 16 with hc | hc
  · rw [Int.emod_emod_of_dvd]
    exact_mod_cast (show (2 : Nat) ^ c.spBits ∣ 65536 from (Nat.pow_dvd_pow 2 hc : 2 ^ c.spBits ∣ 2 ^ 16))
  · have hd : (65536 : Int) ∣ 2 ^ c.spBits := by
      exact_mod_cast (show 65536 ∣ (2 : Nat) ^ c.spBits from (Nat.pow_dvd_pow 2 hc : 2 ^ 16 ∣ 2 ^ c.spBits))
    have hp : (65536 : Int) ≤ 2 ^ c.spBits := Int.le_of_dvd (by positivity) hd
    rw [Int.emod_eq_of_lt (a := n % 65536) (by omega) (by omega)]
    apply BitVec.eq_of_toNat_eq
    simp only [BitVec.toNat_ofInt]
    congr 1
    show n % 65536 % 65536 = n % 2 ^ c.spBits % 65536
    rw [Int.emod_emod_of_dvd n hd]
    omega

/-- Going on to the next instruction, in the words of the claims. -/
theorem State.advance_eq (s : State) (w n : Nat) : s.advance w n = s.after w n := by
  have : s.advance w n = { s with pc := wrapPc s.cfg (s.pc + BitVec.ofNat 22 w), cycles := s.cycles + n } := rfl
  rw [this, wrapPc_add]
  rfl

/-- A jump, in the words of the claims. -/
theorem State.jump_eq (s : State) (a : PcWord) (m : Int) (n : Nat) (h : wrapPc s.cfg a = pcOf s.cfg m) :
    s.jump a n = s.goTo m n := by
  have : s.jump a n = { s with pc := wrapPc s.cfg a, cycles := s.cycles + n } := rfl
  rw [this, h]
  rfl

end Sys2Proof.Machine
end

