-- ==== Sys2Proof/Laws/Decode.lean ====
section
/-! SUPPORT. Decoding: a word that fits a row of the opcode map is that row's instruction, and the length of the words that
the formats build. -/

namespace Sys2Proof

/-- Any two rows of the opcode map differ in a bit that both fix (R103). -/
theorem opcodeMap_disjoint :
    opcodeMap.Pairwise (fun x y => x.mask &&& y.mask &&& (x.pat ^^^ y.pat) ≠ 0) := by decide +kernel

/-- Two rows that differ in a bit that both fix have no word in common. -/
theorem Row.not_both {x y : Row} (h : x.mask &&& y.mask &&& (x.pat ^^^ y.pat) ≠ 0) {w : Word}
    (hx : x.matches w = true) (hy : y.matches w = true) : False := by
  apply h
  simp only [Row.matches, beq_iff_eq] at hx hy
  rw [← hx, ← hy]
  apply BitVec.eq_of_getLsbD_eq
  intro i hi
  simp only [BitVec.getLsbD_and, BitVec.getLsbD_xor]
  cases w.getLsbD i <;> cases x.mask.getLsbD i <;> cases y.mask.getLsbD i <;> simp

/-- A word that fits a row decodes to that row's instruction (R103). -/
theorem decodeWord_of_row {row : Row} (hm : row ∈ opcodeMap) {w : Word} (w2 : Word) (h : row.matches w = true) :
    decodeWord w w2 = some (row.make w w2) := by
  unfold decodeWord
  have key : ∀ l : List Row, l.Pairwise (fun x y => x.mask &&& y.mask &&& (x.pat ^^^ y.pat) ≠ 0) → row ∈ l →
      l.find? (fun r => r.matches w) = some row := by
    intro l hl hr
    induction l with
    | nil => simp at hr
    | cons x l ih =>
      have hp := List.pairwise_cons.mp hl
      rcases List.mem_cons.mp hr with rfl | hr
      · simp [h]
      · have hx : x.matches w = false := by
          by_contra hx
          exact Row.not_both (hp.1 row hr) (by simpa using hx) h
        simp [hx, ih hp.2 hr]
  rw [key opcodeMap opcodeMap_disjoint hm]
  rfl

/-- A word that fits no row decodes to nothing (R124). -/
theorem decodeWord_none {w : Word} (w2 : Word) (h : ∀ row ∈ opcodeMap, row.matches w = false) :
    decodeWord w w2 = none := by
  unfold decodeWord
  rw [List.find?_eq_none.mpr (fun r hr => by simp [h r hr])]
  rfl

/-! The number of words. -/

/-- The two-word patterns of R101, by their bits. -/
theorem wordCount_eq (w : Word) :
    wordCount w =
      if w.getLsbD 15 && !w.getLsbD 14 && !w.getLsbD 13 && w.getLsbD 12 &&
        ((!w.getLsbD 11 && w.getLsbD 10 && !w.getLsbD 9 && w.getLsbD 3 && w.getLsbD 2) ||
          (!w.getLsbD 11 && !w.getLsbD 10 && !w.getLsbD 3 && !w.getLsbD 2 && !w.getLsbD 1 && !w.getLsbD 0))
      then 2 else 1 := by
  have h1 : (w &&& 0xFE0C = 0x940C) ↔ (w.getLsbD 15 && !w.getLsbD 14 && !w.getLsbD 13 && w.getLsbD 12 &&
      (!w.getLsbD 11 && w.getLsbD 10 && !w.getLsbD 9 && w.getLsbD 3 && w.getLsbD 2)) = true := by
    constructor
    · intro h
      have b := fun i => congrArg (fun x : Word => x.getLsbD i) h
      have b15 := b 15; have b14 := b 14; have b13 := b 13; have b12 := b 12; have b11 := b 11; have b10 := b 10
      have b9 := b 9; have b3 := b 3; have b2 := b 2
      simp at b15 b14 b13 b12 b11 b10 b9 b3 b2
      simp [b15, b14, b13, b12, b11, b10, b9, b3, b2]
    · intro h
      simp at h
      apply BitVec.eq_of_getLsbD_eq
      intro i hi
      rcases i with _ | _ | _ | _ | _ | _ | _ | _ | _ | _ | _ | _ | _ | _ | _ | _ | i
      all_goals first | omega | simp [h]
  have h2 : (w &&& 0xFC0F = 0x9000) ↔ (w.getLsbD 15 && !w.getLsbD 14 && !w.getLsbD 13 && w.getLsbD 12 &&
      (!w.getLsbD 11 && !w.getLsbD 10 && !w.getLsbD 3 && !w.getLsbD 2 && !w.getLsbD 1 && !w.getLsbD 0)) = true := by
    constructor
    · intro h
      have b := fun i => congrArg (fun x : Word => x.getLsbD i) h
      have b15 := b 15; have b14 := b 14; have b13 := b 13; have b12 := b 12; have b11 := b 11; have b10 := b 10
      have b3 := b 3; have b2 := b 2; have b1 := b 1; have b0 := b 0
      simp at b15 b14 b13 b12 b11 b10 b3 b2 b1 b0
      simp [b15, b14, b13, b12, b11, b10, b3, b2, b1, b0]
    · intro h
      simp at h
      apply BitVec.eq_of_getLsbD_eq
      intro i hi
      rcases i with _ | _ | _ | _ | _ | _ | _ | _ | _ | _ | _ | _ | _ | _ | _ | _ | i
      all_goals first | omega | simp [h]
  unfold wordCount
  simp only [h1, h2]
  have k : ∀ p q r : Bool, (if (p && q) = true then 2 else if (p && r) = true then 2 else 1) =
      if (p && (q || r)) = true then (2 : Nat) else 1 := by decide
  exact k _ _ _

/-! The bits of the words that the formats build (R109). -/

theorem wordRR_bit (op : BitVec 6) (d r : Reg) (i : Nat) : (wordRR op d r).getLsbD i =
    if i < 4 then (r.field.extractLsb' 0 4).getLsbD (i - 0)
    else if i < 9 then d.field.getLsbD (i - 4)
    else if i < 10 then (r.field.extractLsb' 4 1).getLsbD (i - 9)
    else op.getLsbD (i - 10) := by
  simp only [wordRR, BitVec.getLsbD_append, Nat.sub_sub]
  split_ifs <;> first | rfl | omega

theorem wordRI_bit (op : BitVec 4) (d : Reg) (k : Byte) (i : Nat) : (wordRI op d k).getLsbD i =
    if i < 4 then (k.extractLsb' 0 4).getLsbD (i - 0)
    else if i < 8 then (d.lowField 4).getLsbD (i - 4)
    else if i < 12 then (k.extractLsb' 4 4).getLsbD (i - 8)
    else op.getLsbD (i - 12) := by
  simp only [wordRI, BitVec.getLsbD_append, Nat.sub_sub]
  split_ifs <;> first | rfl | omega

theorem wordR1_bit (op : BitVec 7) (d : Reg) (low : BitVec 4) (i : Nat) : (wordR1 op d low).getLsbD i =
    if i < 4 then low.getLsbD (i - 0)
    else if i < 9 then d.field.getLsbD (i - 4)
    else op.getLsbD (i - 9) := by
  simp only [wordR1, BitVec.getLsbD_append, Nat.sub_sub]
  split_ifs <;> first | rfl | omega

theorem wordWI_bit (op : BitVec 8) (d : Reg) (k : BitVec 6) (i : Nat) : (wordWI op d k).getLsbD i =
    if i < 4 then (k.extractLsb' 0 4).getLsbD (i - 0)
    else if i < 6 then (BitVec.ofNat 2 (d.val / 2)).getLsbD (i - 4)
    else if i < 8 then (k.extractLsb' 4 2).getLsbD (i - 6)
    else op.getLsbD (i - 8) := by
  simp only [wordWI, BitVec.getLsbD_append, Nat.sub_sub]
  split_ifs <;> first | rfl | omega

theorem wordRB_bit (op : BitVec 7) (d : Reg) (b : BitVec 3) (i : Nat) : (wordRB op d b).getLsbD i =
    if i < 3 then b.getLsbD (i - 0)
    else if i < 4 then (0b0#1).getLsbD (i - 3)
    else if i < 9 then d.field.getLsbD (i - 4)
    else op.getLsbD (i - 9) := by
  simp only [wordRB, BitVec.getLsbD_append, Nat.sub_sub]
  split_ifs <;> first | rfl | omega

theorem wordIO_bit (op : BitVec 5) (d : Reg) (a : BitVec 6) (i : Nat) : (wordIO op d a).getLsbD i =
    if i < 4 then (a.extractLsb' 0 4).getLsbD (i - 0)
    else if i < 9 then d.field.getLsbD (i - 4)
    else if i < 11 then (a.extractLsb' 4 2).getLsbD (i - 9)
    else op.getLsbD (i - 11) := by
  simp only [wordIO, BitVec.getLsbD_append, Nat.sub_sub]
  split_ifs <;> first | rfl | omega

theorem wordABS_bit (op : BitVec 3) (k : PcWord) (i : Nat) : (wordABS op k).getLsbD i =
    if i < 1 then (k.extractLsb' 16 1).getLsbD (i - 0)
    else if i < 4 then op.getLsbD (i - 1)
    else if i < 9 then (k.extractLsb' 17 5).getLsbD (i - 4)
    else (0b1001010#7).getLsbD (i - 9) := by
  simp only [wordABS, BitVec.getLsbD_append, Nat.sub_sub]
  split_ifs <;> first | rfl | omega

theorem wordLSQ_bit (store y : BitVec 1) (d : Reg) (q : BitVec 6) (i : Nat) : (wordLSQ store y d q).getLsbD i =
    if i < 3 then (q.extractLsb' 0 3).getLsbD (i - 0)
    else if i < 4 then y.getLsbD (i - 3)
    else if i < 9 then d.field.getLsbD (i - 4)
    else if i < 10 then store.getLsbD (i - 9)
    else if i < 12 then (q.extractLsb' 3 2).getLsbD (i - 10)
    else if i < 13 then (0b0#1).getLsbD (i - 12)
    else if i < 14 then (q.extractLsb' 5 1).getLsbD (i - 13)
    else (0b10#2).getLsbD (i - 14) := by
  simp only [wordLSQ, BitVec.getLsbD_append, Nat.sub_sub]
  split_ifs <;> first | rfl | omega

theorem wordM3_bit (hi lo : BitVec 1) (d r : Reg) (i : Nat) : (wordM3 hi lo d r).getLsbD i =
    if i < 3 then (r.lowField 3).getLsbD (i - 0)
    else if i < 4 then lo.getLsbD (i - 3)
    else if i < 7 then (d.lowField 3).getLsbD (i - 4)
    else if i < 8 then hi.getLsbD (i - 7)
    else (0b00000011#8).getLsbD (i - 8) := by
  simp only [wordM3, BitVec.getLsbD_append, Nat.sub_sub]
  split_ifs <;> first | rfl | omega

theorem append853_bit (x : BitVec 8) (y : BitVec 5) (z : BitVec 3) (i : Nat) : (x ++ y ++ z : Word).getLsbD i =
    if i < 3 then z.getLsbD (i - 0)
    else if i < 8 then y.getLsbD (i - 3)
    else x.getLsbD (i - 8) := by
  simp only [BitVec.getLsbD_append, Nat.sub_sub]
  split_ifs <;> first | rfl | omega

theorem append934_bit (x : BitVec 9) (y : BitVec 3) (z : BitVec 4) (i : Nat) : (x ++ y ++ z : Word).getLsbD i =
    if i < 4 then z.getLsbD (i - 0)
    else if i < 7 then y.getLsbD (i - 4)
    else x.getLsbD (i - 7) := by
  simp only [BitVec.getLsbD_append, Nat.sub_sub]
  split_ifs <;> first | rfl | omega

theorem append673_bit (x : BitVec 6) (y : BitVec 7) (z : BitVec 3) (i : Nat) : (x ++ y ++ z : Word).getLsbD i =
    if i < 3 then z.getLsbD (i - 0)
    else if i < 10 then y.getLsbD (i - 3)
    else x.getLsbD (i - 10) := by
  simp only [BitVec.getLsbD_append, Nat.sub_sub]
  split_ifs <;> first | rfl | omega

theorem append412_bit (x : BitVec 4) (y : BitVec 12) (i : Nat) : (x ++ y : Word).getLsbD i =
    if i < 12 then y.getLsbD (i - 0)
    else x.getLsbD (i - 12) := by
  simp only [BitVec.getLsbD_append]
  split_ifs <;> rfl

theorem append844_bit (x : BitVec 8) (y : BitVec 4) (z : BitVec 4) (i : Nat) : (x ++ y ++ z : Word).getLsbD i =
    if i < 4 then z.getLsbD (i - 0)
    else if i < 8 then y.getLsbD (i - 4)
    else x.getLsbD (i - 8) := by
  simp only [BitVec.getLsbD_append, Nat.sub_sub]
  split_ifs <;> first | rfl | omega

/-! The number of words that the first words of the formats announce (R101). -/

theorem wordRR_count (op : BitVec 6) (d r : Reg) (h : op.extractLsb' 1 5 ≠ 0b10010#5) : wordCount (wordRR op d r) = 1 := by
  have : ¬(op.getLsbD 5 = true ∧ op.getLsbD 4 = false ∧ op.getLsbD 3 = false ∧ op.getLsbD 2 = true ∧
      op.getLsbD 1 = false) := by
    revert op
    decide
  rw [wordCount_eq]
  simp only [wordRR_bit]
  simp [-BitVec.getLsbD_eq_getElem]
  tauto

theorem wordRI_count (op : BitVec 4) (d : Reg) (k : Byte) (h : op ≠ 0b1001#4) : wordCount (wordRI op d k) = 1 := by
  have : ¬(op.getLsbD 3 = true ∧ op.getLsbD 2 = false ∧ op.getLsbD 1 = false ∧ op.getLsbD 0 = true) := by
    revert op
    decide
  rw [wordCount_eq]
  simp only [wordRI_bit]
  simp [-BitVec.getLsbD_eq_getElem]
  tauto

/-- Format R1 outside JMP, CALL, LDS and STS. -/
theorem wordR1_count (op : BitVec 7) (d : Reg) (low : BitVec 4)
    (h : ¬(op = 0b1001010#7 ∧ low.extractLsb' 2 2 = 0b11#2) ∧ ¬(op.extractLsb' 1 6 = 0b100100#6 ∧ low = 0)) :
    wordCount (wordR1 op d low) = 1 := by
  rw [wordCount_eq]
  simp only [wordR1_bit]
  simp only [show ¬(15 < 4) by decide, show ¬(14 < 4) by decide, show ¬(13 < 4) by decide, show ¬(12 < 4) by decide,
    show ¬(11 < 4) by decide, show ¬(10 < 4) by decide, show ¬(9 < 4) by decide, show ¬(15 < 9) by decide,
    show ¬(14 < 9) by decide, show ¬(13 < 9) by decide, show ¬(12 < 9) by decide, show ¬(11 < 9) by decide,
    show ¬(10 < 9) by decide, show ¬(9 < 9) by decide, show 3 < 4 by decide, show 2 < 4 by decide, show 1 < 4 by decide,
    show 0 < 4 by decide, if_true, if_false]
  revert op low
  decide +kernel

/-- The format of the conditional branches. -/
theorem append673_count (x : BitVec 6) (y : BitVec 7) (z : BitVec 3) (h : x.getLsbD 3 = true) :
    wordCount (x ++ y ++ z) = 1 := by
  rw [wordCount_eq]
  simp only [append673_bit]
  simp [h, -BitVec.getLsbD_eq_getElem]

end Sys2Proof
end

