-- ==== Sys2Proof/Laws/Memory.lean ====
section
/-! SUPPORT. Sparse memory: a read after a write, what a write leaves alone, and that every write keeps the canonical form,
in which equal reads make equal lists. -/

namespace Sys2Proof.Machine

/-- Every listed address is above `b`. -/
def Memory.Above (b : Nat) (m : Memory) : Prop := ∀ cell ∈ m, b < cell.1

/-- The list is in rising order. -/
def Memory.Rising (m : Memory) : Prop := m.Pairwise (fun x y => x.1 < y.1)

theorem Memory.wf_iff (dflt : Option Byte) (m : Memory) :
    Memory.wf dflt m = true ↔ m.Rising ∧ ∀ cell ∈ m, dflt ≠ some cell.2 := by
  simp [Memory.wf, Memory.Rising]

theorem Memory.lookup_of_above {b : Nat} {m : Memory} (h : m.Above b) : Memory.lookup m b = none := by
  induction m with
  | nil => rfl
  | cons c m ih =>
    have h1 := h c (by simp)
    have h2 : c.1 ≠ b := by omega
    simp only [Memory.lookup, h2, if_false]
    exact ih (fun x hx => h x (by simp [hx]))

theorem Memory.lookup_insert (m : Memory) (a b : Nat) (v : Byte) (h : m.Rising) :
    Memory.lookup (Memory.insert m a v) b = if b = a then some v else Memory.lookup m b := by
  induction m with
  | nil => simp [Memory.insert, Memory.lookup, eq_comm]
  | cons c m ih =>
    obtain ⟨k, u⟩ := c
    have hr := List.pairwise_cons.mp h
    unfold Memory.insert
    split
    · rename_i hlt
      by_cases hb : b = a
      · simp [Memory.lookup, hb]
      · simp [Memory.lookup, hb, Ne.symm hb]
    · split
      · rename_i _ he
        subst he
        by_cases hb : b = a
        · simp [Memory.lookup, hb]
        · simp [Memory.lookup, hb, Ne.symm hb]
      · rename_i _ hne
        have := ih hr.2
        by_cases hb : b = a
        · subst hb
          simp [Memory.lookup, Ne.symm hne, this]
        · simp [Memory.lookup, this, hb]

theorem Memory.lookup_erase (m : Memory) (a b : Nat) (h : m.Rising) :
    Memory.lookup (Memory.erase m a) b = if b = a then none else Memory.lookup m b := by
  induction m with
  | nil => simp [Memory.erase, Memory.lookup]
  | cons c m ih =>
    obtain ⟨k, u⟩ := c
    have hr := List.pairwise_cons.mp h
    unfold Memory.erase
    split
    · rename_i he
      subst he
      by_cases hb : b = k
      · subst hb
        simp [Memory.lookup_of_above (m := m) hr.1]
      · simp [Memory.lookup, hb, Ne.symm hb]
    · rename_i hne
      have := ih hr.2
      by_cases hb : b = a
      · subst hb
        simp [Memory.lookup, hne, this]
      · simp [Memory.lookup, this, hb]

theorem Memory.mem_insert {m : Memory} {a : Nat} {v : Byte} {x : Host.Cell} (h : x ∈ Memory.insert m a v) :
    x = (a, v) ∨ x ∈ m := by
  induction m with
  | nil => simpa [Memory.insert] using h
  | cons c m ih =>
    obtain ⟨k, u⟩ := c
    unfold Memory.insert at h
    split at h
    · simpa using h
    · split at h
      · rcases List.mem_cons.mp h with h | h
        · exact .inl h
        · exact .inr (by simp [h])
      · rcases List.mem_cons.mp h with h | h
        · exact .inr (by simp [h])
        · rcases ih h with h | h
          · exact .inl h
          · exact .inr (by simp [h])

theorem Memory.mem_erase {m : Memory} {a : Nat} {x : Host.Cell} (h : x ∈ Memory.erase m a) : x ∈ m := by
  induction m with
  | nil => simp [Memory.erase] at h
  | cons c m ih =>
    obtain ⟨k, u⟩ := c
    unfold Memory.erase at h
    split at h
    · simp [h]
    · rcases List.mem_cons.mp h with h | h
      · simp [h]
      · simp [ih h]

theorem Memory.mem_write {dflt : Option Byte} {m : Memory} {a : Nat} {v : Byte} {x : Host.Cell}
    (h : x ∈ Memory.write dflt m a v) : x = (a, v) ∨ x ∈ m := by
  unfold Memory.write at h
  split at h
  · exact .inr (Memory.mem_erase h)
  · exact Memory.mem_insert h

theorem Memory.rising_insert {m : Memory} (a : Nat) (v : Byte) (h : m.Rising) : (Memory.insert m a v).Rising := by
  induction m with
  | nil => simp [Memory.insert, Memory.Rising]
  | cons c m ih =>
    obtain ⟨k, u⟩ := c
    have hr := List.pairwise_cons.mp h
    unfold Memory.insert
    split
    · rename_i hlt
      refine List.pairwise_cons.mpr ⟨fun x hx => ?_, h⟩
      rcases List.mem_cons.mp hx with hx | hx
      · subst hx; exact hlt
      · have : k < x.1 := hr.1 x hx
        show a < x.1
        omega
    · split
      · rename_i _ he
        subst he
        exact List.pairwise_cons.mpr ⟨hr.1, hr.2⟩
      · refine List.pairwise_cons.mpr ⟨fun x hx => ?_, ih hr.2⟩
        rcases Memory.mem_insert hx with hx | hx
        · subst hx
          show k < a
          omega
        · exact hr.1 x hx

theorem Memory.rising_erase {m : Memory} (a : Nat) (h : m.Rising) : (Memory.erase m a).Rising := by
  induction m with
  | nil => simp [Memory.erase, Memory.Rising]
  | cons c m ih =>
    obtain ⟨k, u⟩ := c
    have hr := List.pairwise_cons.mp h
    unfold Memory.erase
    split
    · exact hr.2
    · exact List.pairwise_cons.mpr ⟨fun x hx => hr.1 x (Memory.mem_erase hx), ih hr.2⟩

/-- A write keeps the canonical form. -/
theorem Memory.wf_write {dflt : Option Byte} {m : Memory} (a : Nat) (v : Byte) (h : Memory.wf dflt m = true) :
    Memory.wf dflt (Memory.write dflt m a v) = true := by
  rw [Memory.wf_iff] at *
  refine ⟨?_, fun x hx => ?_⟩
  · unfold Memory.write
    split
    · exact Memory.rising_erase a h.1
    · exact Memory.rising_insert a v h.1
  · unfold Memory.write at hx
    split at hx
    · exact h.2 x (Memory.mem_erase hx)
    · rename_i hv
      rcases Memory.mem_insert hx with hx | hx
      · subst hx; exact hv
      · exact h.2 x hx

/-- A read after a write, for a list in rising order. -/
theorem Memory.read_write {dflt : Option Byte} {m : Memory} (a b : Nat) (v : Byte) (h : m.Rising) :
    Memory.read dflt (Memory.write dflt m a v) b = if b = a then some v else Memory.read dflt m b := by
  by_cases hv : dflt = some v
  · have he := Memory.lookup_erase m a b h
    by_cases hb : b = a <;> simp [hb] at he <;> simp [Memory.read, Memory.write, hv, he, hb]
  · have he := Memory.lookup_insert m a b v h
    by_cases hb : b = a <;> simp [hb] at he <;> simp [Memory.read, Memory.write, hv, he, hb]

/-- Insertion answers the new byte at its own address, whatever the order of the list. -/
theorem Memory.lookup_insert_same (m : Memory) (a : Nat) (v : Byte) :
    Memory.lookup (Memory.insert m a v) a = some v := by
  induction m with
  | nil => simp [Memory.insert, Memory.lookup]
  | cons c m ih =>
    obtain ⟨k, u⟩ := c
    unfold Memory.insert
    split
    · simp [Memory.lookup]
    · split
      · simp [Memory.lookup]
      · rename_i _ hne
        simp [Memory.lookup, Ne.symm hne, ih]

/-- Insertion leaves every other address alone, whatever the order of the list. -/
theorem Memory.lookup_insert_other (m : Memory) (a b : Nat) (v : Byte) (hb : b ≠ a) :
    Memory.lookup (Memory.insert m a v) b = Memory.lookup m b := by
  induction m with
  | nil => simp [Memory.insert, Memory.lookup, Ne.symm hb]
  | cons c m ih =>
    obtain ⟨k, u⟩ := c
    unfold Memory.insert
    split
    · simp [Memory.lookup, Ne.symm hb]
    · split
      · rename_i _ he
        subst he
        simp [Memory.lookup, Ne.symm hb]
      · simp [Memory.lookup, ih]

/-- A list in canonical form is empty when it reads as an empty one. -/
theorem Memory.eq_nil_of_read {dflt : Option Byte} {m : Memory} (h : Memory.wf dflt m = true)
    (hr : ∀ a, Memory.read dflt m a = dflt) : m = [] := by
  cases m with
  | nil => rfl
  | cons c m =>
    obtain ⟨k, u⟩ := c
    have h1 := hr k
    have h2 := ((Memory.wf_iff dflt _).mp h).2 (k, u) (by simp)
    simp [Memory.read, Memory.lookup] at h1
    exact absurd h1.symm h2

/-- Two lists in canonical form that read alike are equal. -/
theorem Memory.eq_of_read {dflt : Option Byte} {m n : Memory} (hm : Memory.wf dflt m = true)
    (hn : Memory.wf dflt n = true) (h : ∀ a, Memory.read dflt m a = Memory.read dflt n a) : m = n := by
  induction m generalizing n with
  | nil => exact (Memory.eq_nil_of_read hn (fun a => (h a).symm)).symm
  | cons c m ih =>
    cases n with
    | nil => exact Memory.eq_nil_of_read hm h
    | cons d n =>
      obtain ⟨k, u⟩ := c
      obtain ⟨l, w⟩ := d
      rw [Memory.wf_iff] at hm hn
      have hmr := List.pairwise_cons.mp hm.1
      have hnr := List.pairwise_cons.mp hn.1
      have hku := hm.2 (k, u) (by simp)
      have hlw := hn.2 (l, w) (by simp)
      have hk := h k
      have hl := h l
      have kl : k = l := by
        rcases lt_trichotomy k l with hlt | he | hlt
        · exfalso
          have : Memory.lookup n k = none := Memory.lookup_of_above (fun x hx => lt_trans hlt (hnr.1 x hx))
          simp [Memory.read, Memory.lookup, (show l ≠ k by omega), this] at hk
          exact hku hk.symm
        · exact he
        · exfalso
          have : Memory.lookup m l = none := Memory.lookup_of_above (fun x hx => lt_trans hlt (hmr.1 x hx))
          simp [Memory.read, Memory.lookup, (show k ≠ l by omega), this] at hl
          exact hlw hl
      subst kl
      have uw : u = w := by simpa [Memory.read, Memory.lookup] using hk
      subst uw
      have : m = n := by
        refine ih ((Memory.wf_iff _ _).mpr ⟨hmr.2, fun x hx => hm.2 x (by simp [hx])⟩)
          ((Memory.wf_iff _ _).mpr ⟨hnr.2, fun x hx => hn.2 x (by simp [hx])⟩) (fun a => ?_)
        by_cases ha : k = a
        · subst ha
          simp [Memory.read, Memory.lookup_of_above (m := m) hmr.1, Memory.lookup_of_above (m := n) hnr.1]
        · simpa [Memory.read, Memory.lookup, ha] using h a
      rw [this]

/-- The reset memories have the canonical form. -/
theorem Memory.wf_reset :
    Memory.wf ramUnlisted State.reset.ram = true ∧ Memory.wf flashUnlisted State.reset.flash = true := by decide

/-! The bytes of `ram`. -/

/-- What the byte at an address is after a store: no entry of `ram` equals what is unlisted, so no order is needed. -/
theorem State.ramByte_setRam (s : State) (a b : Addr) (v : Byte) :
    (s.setRam a v).ramByte b = if b = a then v else s.ramByte b := by
  have hw : (s.setRam a v).ram = Memory.insert s.ram a.toNat v := by
    simp [Memory.write, ramUnlisted]
  unfold State.ramByte Memory.read
  rw [hw]
  by_cases hb : b = a
  · subst hb
    simp [Memory.lookup_insert_same]
  · have : b.toNat ≠ a.toNat := fun e => hb (BitVec.eq_of_toNat_eq e)
    simp [Memory.lookup_insert_other _ _ _ _ this, hb]

/-- A store to `ram` replaces one byte and nothing else. -/
theorem State.ramStored_setRam (s : State) (a : Addr) (v : Byte) : RamStored a v s (s.setRam a v) := by
  refine ⟨rfl, ?_, fun b hb => ?_⟩
  · simp [State.ramByte_setRam]
  · simp [State.ramByte_setRam, hb]

end Sys2Proof.Machine
end

