-- ==== Sys2Proof/Laws/Ops.lean ====
section
/-! SUPPORT. The shared operations: for each, one lemma that says everything it can do, in the words of Safety.lean. -/

namespace Sys2Proof.Machine

theorem mem_of_contains {l : List Nat} {n : Nat} : l.contains n = true ↔ n ∈ l := by simp

/-! The I/O space and the data space. -/

/-- A device read, by the two cases of R66. -/
theorem deviceRead_reads (a : Addr) (s : State) : DeviceReads a s (deviceRead a s).1 (deviceRead a s).2 := by
  unfold DeviceReads deviceRead isStorage
  by_cases h : a.toNat ∈ s.cfg.ioStorage
  · simp [h, State.emit]
  · simp [h, State.emit]

/-- A device write, by the two cases of R66. -/
theorem deviceWrite_stored (a : Addr) (v : Byte) (s : State) : DeviceStored a v s (deviceWrite a v s) := by
  unfold DeviceStored deviceWrite isStorage
  by_cases h : a.toNat ∈ s.cfg.ioStorage
  · simp only [h, if_true, mem_of_contains.mpr h]
    exact State.ramStored_setRam (s.emit (.ioWrite a v)) a v
  · simp [h, State.emit]

/-- The five core registers in the I/O space, by number (R67). -/
theorem coreIo_cases (c : Config) (n : BitVec 6) :
    (n = 0x3F ∧ coreIo c n = some .sreg) ∨ (n = 0x3E ∧ coreIo c n = some .sph) ∨
    (n = 0x3D ∧ coreIo c n = some .spl) ∨ (n = 0x3C ∧ c.hasExtended = true ∧ coreIo c n = some .eind) ∨
    (n = 0x3B ∧ c.hasExtended = true ∧ coreIo c n = some .rampz) ∨
    (n ≠ 0x3F ∧ n ≠ 0x3E ∧ n ≠ 0x3D ∧ ¬(n = 0x3C ∧ c.hasExtended = true) ∧ ¬(n = 0x3B ∧ c.hasExtended = true) ∧
      coreIo c n = none) := by
  unfold coreIo
  by_cases h1 : n = 0x3F
  · simp [h1]
  by_cases h2 : n = 0x3E
  · simp [h2]
  by_cases h3 : n = 0x3D
  · simp [h3]
  by_cases h4 : n = 0x3C ∧ c.hasExtended = true
  · simp [h4]
  by_cases h5 : n = 0x3B ∧ c.hasExtended = true
  · simp [h5]
  refine Or.inr (Or.inr (Or.inr (Or.inr (Or.inr ⟨h1, h2, h3, h4, h5, ?_⟩))))
  rw [if_neg h1, if_neg h2, if_neg h3, if_neg h4, if_neg h5]

theorem ioAddr_eq (n : BitVec 6) : ioAddr n = ioData n.toNat := by
  apply BitVec.eq_of_toNat_eq
  have := n.isLt
  simp [ioAddr, ioData, BitVec.toNat_add]

theorem ioData_toNat (n : BitVec 6) : (ioData n.toNat).toNat = n.toNat + 0x20 := by
  have := n.isLt
  simp [ioData]
  omega

theorem ioData_eq_iff (n : BitVec 6) (k : BitVec 6) (a : Addr) (ha : a = ioData k.toNat) :
    ioData n.toNat = a ↔ n = k := by
  subst ha
  constructor
  · intro h
    have := congrArg BitVec.toNat h
    rw [ioData_toNat, ioData_toNat] at this
    exact BitVec.eq_of_toNat_eq (by omega)
  · rintro rfl; rfl

theorem sp_high (w : Word) : w.extractLsb' 8 8 = BitVec.ofNat 8 (w.toNat / 256) := by
  apply BitVec.eq_of_toNat_eq
  simp [Nat.shiftRight_eq_div_pow]

theorem sp_low (w : Word) : w.extractLsb' 0 8 = BitVec.ofNat 8 (w.toNat % 256) := by
  apply BitVec.eq_of_toNat_eq
  simp

theorem append_toNat (h l : Byte) : (h ++ l : Word).toNat = h.toNat * 256 + l.toNat := by
  rw [BitVec.toNat_append]
  rw [← Nat.shiftLeft_add_eq_or_of_lt l.isLt, Nat.shiftLeft_eq]

/-- A read of an I/O register is the read of its data address (R63, R66, R67). -/
theorem ioRead_reads (n : BitVec 6) (s : State) : ReadsAs (ioData n.toNat) s (ioRead n s).1 (ioRead n s).2 := by
  have hn := n.isLt
  have ht := ioData_toNat n
  unfold ReadsAs ioRead
  rw [dif_neg (by omega), if_congr (ioData_eq_iff n 0x3F 0x5F rfl) rfl rfl,
    if_congr (ioData_eq_iff n 0x3E 0x5E rfl) rfl rfl, if_congr (ioData_eq_iff n 0x3D 0x5D rfl) rfl rfl,
    if_congr (and_congr (ioData_eq_iff n 0x3C 0x5C rfl) Iff.rfl) rfl rfl,
    if_congr (and_congr (ioData_eq_iff n 0x3B 0x5B rfl) Iff.rfl) rfl rfl,
    if_pos (show (ioData n.toNat).toNat < 0x60 ∨ _ by left; omega), ← ioAddr_eq]
  rcases coreIo_cases s.cfg n with ⟨h, e⟩ | ⟨h, e⟩ | ⟨h, e⟩ | ⟨h, x, e⟩ | ⟨h, x, e⟩ | ⟨h1, h2, h3, h4, h5, e⟩
  · rw [e]; simp [h, coreIoRead]
  · rw [e]; simp [h, coreIoRead, sp_high]
  · rw [e]; simp [h, coreIoRead, sp_low]
  · rw [e]; simp [h, x, coreIoRead]
  · rw [e]; simp [h, x, coreIoRead]
  · rw [e, if_neg h1, if_neg h2, if_neg h3, if_neg h4, if_neg h5]
    exact deviceRead_reads (ioAddr n) s

/-- A write of an I/O register is the write of its data address (R63, R66, R67). -/
theorem ioWrite_stored (n : BitVec 6) (v : Byte) (s : State) : StoredAt (ioData n.toNat) v s (ioWrite n v s) := by
  have hn := n.isLt
  have hv := v.isLt
  have ht := ioData_toNat n
  unfold StoredAt ioWrite
  rw [dif_neg (by omega), if_congr (ioData_eq_iff n 0x3F 0x5F rfl) rfl rfl,
    if_congr (ioData_eq_iff n 0x3E 0x5E rfl) rfl rfl, if_congr (ioData_eq_iff n 0x3D 0x5D rfl) rfl rfl,
    if_congr (and_congr (ioData_eq_iff n 0x3C 0x5C rfl) Iff.rfl) rfl rfl,
    if_congr (and_congr (ioData_eq_iff n 0x3B 0x5B rfl) Iff.rfl) rfl rfl,
    if_pos (show (ioData n.toNat).toNat < 0x60 ∨ _ by left; omega), ← ioAddr_eq]
  rcases coreIo_cases s.cfg n with ⟨h, e⟩ | ⟨h, e⟩ | ⟨h, e⟩ | ⟨h, x, e⟩ | ⟨h, x, e⟩ | ⟨h1, h2, h3, h4, h5, e⟩
  · rw [e]; simp [h, coreIoWrite, State.setSreg]
  · rw [e]
    have hw : wrapSp s.cfg (v ++ s.sp.extractLsb' 0 8) = spOf s.cfg (v.toNat * 256 + s.sp.toNat % 256) := by
      apply wrapSp_of_emod
      rw [append_toNat, sp_low]
      simp
      omega
    simp [h, coreIoWrite, State.setSp, hw]
  · rw [e]
    have hs := s.sp.isLt
    have hw : wrapSp s.cfg (s.sp.extractLsb' 8 8 ++ v) = spOf s.cfg (s.sp.toNat / 256 * 256 + v.toNat) := by
      apply wrapSp_of_emod
      rw [append_toNat, sp_high]
      simp
      omega
    simp [h, coreIoWrite, State.setSp, hw]
  · rw [e]; simp [h, x, coreIoWrite]
  · rw [e]; simp [h, x, coreIoWrite]
  · rw [e, if_neg h1, if_neg h2, if_neg h3, if_neg h4, if_neg h5]
    exact deviceWrite_stored (ioAddr n) v s

/-- What each data address names (R63). -/
theorem place_cases (c : Config) (a : Addr) :
    (a.toNat < 0x20 ∧ ∃ r : Reg, r.val = a.toNat ∧ place c a = .register r) ∨
    (0x20 ≤ a.toNat ∧ a.toNat < 0x60 ∧ ∃ n : BitVec 6, a = ioData n.toNat ∧ place c a = .io n) ∨
    (0x60 ≤ a.toNat ∧ a.toNat < c.ramStart ∧ a.toNat ∈ c.extendedIo ∧ place c a = .device) ∨
    (0x60 ≤ a.toNat ∧ c.ramStart ≤ a.toNat ∧ a.toNat ≤ c.ramEnd ∧ place c a = .sram) ∨
    (¬Mapped c a ∧ place c a = .nothing) := by
  have ha := a.isLt
  unfold place Mapped
  by_cases h1 : a.toNat < 0x20
  · left
    refine ⟨h1, (a.setWidth 5).toFin, ?_, by simp [h1]⟩
    simp
    omega
  by_cases h2 : a.toNat < 0x60
  · right; left
    refine ⟨by omega, h2, (a - 0x20).setWidth 6, ?_, by simp [h1, h2]⟩
    apply BitVec.eq_of_toNat_eq
    rw [ioData_toNat]
    simp only [BitVec.toNat_setWidth, BitVec.toNat_sub]
    simp
    omega
  by_cases h3 : a.toNat < c.ramStart
  · by_cases h4 : a.toNat ∈ c.extendedIo
    · right; right; left
      exact ⟨by omega, h3, h4, by simp [h1, h2, h3, h4]⟩
    · right; right; right; right
      refine ⟨?_, by simp [h1, h2, h3, h4]⟩
      rintro (h | ⟨-, h⟩ | ⟨h, h'⟩)
      · exact h2 h
      · exact h4 h
      · omega
  · by_cases h4 : a.toNat ≤ c.ramEnd
    · right; right; right; left
      exact ⟨by omega, by omega, h4, by simp [h1, h2, h3, h4]⟩
    · right; right; right; right
      refine ⟨?_, by simp [h1, h2, h3, h4]⟩
      rintro (h | ⟨h, -⟩ | ⟨-, h⟩) <;> omega

theorem ne_of_toNat_ge {a : Addr} {n : Nat} {b : Addr} (ha : n ≤ a.toNat) (hb : b.toNat < n) : a ≠ b := by
  rintro rfl
  omega

/-- A read of a mapped data address: the byte and the state it leaves (R13, R63). -/
theorem memRead_mapped {a : Addr} {s : State} (h : Mapped s.cfg a) :
    ∃ v t, memRead a s = .ok (v, t) ∧ ReadsAs a s v t := by
  rcases place_cases s.cfg a with ⟨h1, r, hr, e⟩ | ⟨h1, h2, n, rfl, e⟩ | ⟨h1, h2, h3, e⟩ | ⟨h1, h2, h3, e⟩ | ⟨h1, e⟩
  · refine ⟨s.reg r, s, by simp [memRead, e], ?_⟩
    unfold ReadsAs
    simp only [h1, dif_pos, State.reg, hr, and_self]
  · exact ⟨_, _, by simp [memRead, e], ioRead_reads n s⟩
  · refine ⟨(deviceRead a s).1, (deviceRead a s).2, by simp only [memRead, e], ?_⟩
    unfold ReadsAs
    rw [dif_neg (by omega), if_neg (ne_of_toNat_ge h1 (by decide)), if_neg (ne_of_toNat_ge h1 (by decide)),
      if_neg (ne_of_toNat_ge h1 (by decide)), if_neg (fun x => ne_of_toNat_ge h1 (by decide) x.1),
      if_neg (fun x => ne_of_toNat_ge h1 (by decide) x.1), if_pos (by omega)]
    exact deviceRead_reads a s
  · refine ⟨s.ramByte a, s, by simp only [memRead, e], ?_⟩
    unfold ReadsAs
    rw [dif_neg (by omega), if_neg (ne_of_toNat_ge h1 (by decide)), if_neg (ne_of_toNat_ge h1 (by decide)),
      if_neg (ne_of_toNat_ge h1 (by decide)), if_neg (fun x => ne_of_toNat_ge h1 (by decide) x.1),
      if_neg (fun x => ne_of_toNat_ge h1 (by decide) x.1), if_neg (by omega)]
    exact ⟨rfl, rfl⟩
  · exact absurd h h1

/-- A read of an address that holds nothing (R64). -/
theorem memRead_unmapped {a : Addr} {s : State} (h : ¬Mapped s.cfg a) : memRead a s = .error (.unmappedAccess a) := by
  rcases place_cases s.cfg a with ⟨h1, r, hr, e⟩ | ⟨h1, h2, n, rfl, e⟩ | ⟨h1, h2, h3, e⟩ | ⟨h1, h2, h3, e⟩ | ⟨h1, e⟩
  · exact absurd (Or.inl (by omega)) h
  · exact absurd (Or.inl h2) h
  · exact absurd (Or.inr (Or.inl ⟨h2, h3⟩)) h
  · exact absurd (Or.inr (Or.inr ⟨h2, h3⟩)) h
  · simp [memRead, e]

/-- A write of a mapped data address: the state it leaves (R13, R63). -/
theorem memWrite_mapped {a : Addr} (v : Byte) {s : State} (h : Mapped s.cfg a) :
    ∃ t, memWrite a v s = .ok t ∧ StoredAt a v s t := by
  rcases place_cases s.cfg a with ⟨h1, r, hr, e⟩ | ⟨h1, h2, n, rfl, e⟩ | ⟨h1, h2, h3, e⟩ | ⟨h1, h2, h3, e⟩ | ⟨h1, e⟩
  · refine ⟨s.setReg r v, by simp [memWrite, e], ?_⟩
    unfold StoredAt
    simp only [h1, dif_pos, State.setReg, hr]
  · exact ⟨_, by simp only [memWrite, e], ioWrite_stored n v s⟩
  · refine ⟨deviceWrite a v s, by simp only [memWrite, e], ?_⟩
    unfold StoredAt
    rw [dif_neg (by omega), if_neg (ne_of_toNat_ge h1 (by decide)), if_neg (ne_of_toNat_ge h1 (by decide)),
      if_neg (ne_of_toNat_ge h1 (by decide)), if_neg (fun x => ne_of_toNat_ge h1 (by decide) x.1),
      if_neg (fun x => ne_of_toNat_ge h1 (by decide) x.1), if_pos (by omega)]
    exact deviceWrite_stored a v s
  · refine ⟨s.setRam a v, by simp only [memWrite, e], ?_⟩
    unfold StoredAt
    rw [dif_neg (by omega), if_neg (ne_of_toNat_ge h1 (by decide)), if_neg (ne_of_toNat_ge h1 (by decide)),
      if_neg (ne_of_toNat_ge h1 (by decide)), if_neg (fun x => ne_of_toNat_ge h1 (by decide) x.1),
      if_neg (fun x => ne_of_toNat_ge h1 (by decide) x.1), if_neg (by omega)]
    exact State.ramStored_setRam s a v
  · exact absurd h h1

/-- A write of an address that holds nothing (R64). -/
theorem memWrite_unmapped {a : Addr} (v : Byte) {s : State} (h : ¬Mapped s.cfg a) :
    memWrite a v s = .error (.unmappedAccess a) := by
  rcases place_cases s.cfg a with ⟨h1, r, hr, e⟩ | ⟨h1, h2, n, rfl, e⟩ | ⟨h1, h2, h3, e⟩ | ⟨h1, h2, h3, e⟩ | ⟨h1, e⟩
  · exact absurd (Or.inl (by omega)) h
  · exact absurd (Or.inl h2) h
  · exact absurd (Or.inr (Or.inl ⟨h2, h3⟩)) h
  · exact absurd (Or.inr (Or.inr ⟨h2, h3⟩)) h
  · simp [memWrite, e]

/-- A read changes neither the configuration nor either memory. -/
theorem ReadsAs.frame {a : Addr} {s t : State} {v : Byte} (h : ReadsAs a s v t) :
    t = { s with ioDraws := t.ioDraws, events := t.events } := by
  unfold ReadsAs DeviceReads at h
  split_ifs at h <;> (obtain ⟨-, rfl⟩ := h; rfl)

/-- A write changes neither the configuration nor program memory nor any of the machine's other records. -/
theorem StoredAt.frame {a : Addr} {s t : State} {v : Byte} (h : StoredAt a v s t) :
    t = { s with regs := t.regs, sp := t.sp, sreg := t.sreg, rampz := t.rampz, eind := t.eind, ram := t.ram,
                 events := t.events } := by
  unfold StoredAt DeviceStored at h
  split_ifs at h
  all_goals first
    | (subst h; rfl)
    | (obtain ⟨h, -⟩ := h; rw [h])

end Sys2Proof.Machine
end

