-- ==== Sys2Proof/Laws/PerInstr.lean ====
section
/-! SUPPORT. Lemmas over all instructions, one per constructor. -/

namespace Sys2Proof.Laws.EncodedLength

/-- An instruction has as many words as its first word says by its pattern (R100, R101). -/
def Statement (i : Instr) : Prop := (encode i).length = wordCount (firstWord i)

theorem add (d r : Reg) : Statement (.add d r) :=
  (wordRR_count _ _ _ (by decide)).symm

theorem adc (d r : Reg) : Statement (.adc d r) :=
  (wordRR_count _ _ _ (by decide)).symm

theorem adiw (d : Reg) (k : BitVec 6) : Statement (.adiw d k) := by
  rw [Statement, wordCount_eq]
  simp [encode, Instr.base, encodeCore, firstWord, wordWI_bit, -BitVec.getLsbD_eq_getElem]

theorem sub (d r : Reg) : Statement (.sub d r) :=
  (wordRR_count _ _ _ (by decide)).symm

theorem subi (d : Reg) (k : Byte) : Statement (.subi d k) :=
  (wordRI_count _ _ _ (by decide)).symm

theorem sbc (d r : Reg) : Statement (.sbc d r) :=
  (wordRR_count _ _ _ (by decide)).symm

theorem sbci (d : Reg) (k : Byte) : Statement (.sbci d k) :=
  (wordRI_count _ _ _ (by decide)).symm

theorem sbiw (d : Reg) (k : BitVec 6) : Statement (.sbiw d k) := by
  rw [Statement, wordCount_eq]
  simp [encode, Instr.base, encodeCore, firstWord, wordWI_bit, -BitVec.getLsbD_eq_getElem]

theorem inc (d : Reg) : Statement (.inc d) :=
  (wordR1_count _ _ _ (by decide)).symm

theorem dec (d : Reg) : Statement (.dec d) :=
  (wordR1_count _ _ _ (by decide)).symm

theorem neg (d : Reg) : Statement (.neg d) :=
  (wordR1_count _ _ _ (by decide)).symm

theorem com (d : Reg) : Statement (.com d) :=
  (wordR1_count _ _ _ (by decide)).symm

theorem cp (d r : Reg) : Statement (.cp d r) :=
  (wordRR_count _ _ _ (by decide)).symm

theorem cpc (d r : Reg) : Statement (.cpc d r) :=
  (wordRR_count _ _ _ (by decide)).symm

theorem cpi (d : Reg) (k : Byte) : Statement (.cpi d k) :=
  (wordRI_count _ _ _ (by decide)).symm

theorem and (d r : Reg) : Statement (.and d r) :=
  (wordRR_count _ _ _ (by decide)).symm

theorem andi (d : Reg) (k : Byte) : Statement (.andi d k) :=
  (wordRI_count _ _ _ (by decide)).symm

theorem or (d r : Reg) : Statement (.or d r) :=
  (wordRR_count _ _ _ (by decide)).symm

theorem ori (d : Reg) (k : Byte) : Statement (.ori d k) :=
  (wordRI_count _ _ _ (by decide)).symm

theorem eor (d r : Reg) : Statement (.eor d r) :=
  (wordRR_count _ _ _ (by decide)).symm

theorem asr (d : Reg) : Statement (.asr d) :=
  (wordR1_count _ _ _ (by decide)).symm

theorem lsr (d : Reg) : Statement (.lsr d) :=
  (wordR1_count _ _ _ (by decide)).symm

theorem ror (d : Reg) : Statement (.ror d) :=
  (wordR1_count _ _ _ (by decide)).symm

theorem swap (d : Reg) : Statement (.swap d) :=
  (wordR1_count _ _ _ (by decide)).symm

theorem bld (d : Reg) (b : BitVec 3) : Statement (.bld d b) := by
  rw [Statement, wordCount_eq]
  simp [encode, Instr.base, encodeCore, firstWord, wordRB_bit, -BitVec.getLsbD_eq_getElem]

theorem bst (d : Reg) (b : BitVec 3) : Statement (.bst d b) := by
  rw [Statement, wordCount_eq]
  simp [encode, Instr.base, encodeCore, firstWord, wordRB_bit, -BitVec.getLsbD_eq_getElem]

theorem bset (b : BitVec 3) : Statement (.bset b) := by
  rw [Statement, wordCount_eq]
  simp [encode, Instr.base, encodeCore, firstWord, append934_bit, -BitVec.getLsbD_eq_getElem]

theorem bclr (b : BitVec 3) : Statement (.bclr b) := by
  rw [Statement, wordCount_eq]
  simp [encode, Instr.base, encodeCore, firstWord, append934_bit, -BitVec.getLsbD_eq_getElem]

theorem sbi (a : BitVec 5) (b : BitVec 3) : Statement (.sbi a b) := by
  rw [Statement, wordCount_eq]
  simp [encode, Instr.base, encodeCore, firstWord, append853_bit, -BitVec.getLsbD_eq_getElem]

theorem cbi (a : BitVec 5) (b : BitVec 3) : Statement (.cbi a b) := by
  rw [Statement, wordCount_eq]
  simp [encode, Instr.base, encodeCore, firstWord, append853_bit, -BitVec.getLsbD_eq_getElem]

theorem brbs (b : BitVec 3) (k : BitVec 7) : Statement (.brbs b k) :=
  (append673_count _ _ _ (by decide)).symm

theorem brbc (b : BitVec 3) (k : BitVec 7) : Statement (.brbc b k) :=
  (append673_count _ _ _ (by decide)).symm

theorem rjmp (k : BitVec 12) : Statement (.rjmp k) := by
  rw [Statement, wordCount_eq]
  simp [encode, Instr.base, encodeCore, firstWord, append412_bit, -BitVec.getLsbD_eq_getElem]

theorem jmp (k : PcWord) : Statement (.jmp k) := by
  rw [Statement, wordCount_eq]
  simp [encode, Instr.base, encodeCore, firstWord, wordABS_bit, -BitVec.getLsbD_eq_getElem]

theorem ijmp : Statement (.ijmp) := by
  rfl

theorem eijmp : Statement (.eijmp) := by
  rfl

theorem rcall (k : BitVec 12) : Statement (.rcall k) := by
  rw [Statement, wordCount_eq]
  simp [encode, Instr.base, encodeCore, firstWord, append412_bit, -BitVec.getLsbD_eq_getElem]

theorem call (k : PcWord) : Statement (.call k) := by
  rw [Statement, wordCount_eq]
  simp [encode, Instr.base, encodeCore, firstWord, wordABS_bit, -BitVec.getLsbD_eq_getElem]

theorem icall : Statement (.icall) := by
  rfl

theorem eicall : Statement (.eicall) := by
  rfl

theorem ret : Statement (.ret) := by
  rfl

theorem reti : Statement (.reti) := by
  rfl

theorem cpse (d r : Reg) : Statement (.cpse d r) :=
  (wordRR_count _ _ _ (by decide)).symm

theorem sbrc (r : Reg) (b : BitVec 3) : Statement (.sbrc r b) := by
  rw [Statement, wordCount_eq]
  simp [encode, Instr.base, encodeCore, firstWord, wordRB_bit, -BitVec.getLsbD_eq_getElem]

theorem sbrs (r : Reg) (b : BitVec 3) : Statement (.sbrs r b) := by
  rw [Statement, wordCount_eq]
  simp [encode, Instr.base, encodeCore, firstWord, wordRB_bit, -BitVec.getLsbD_eq_getElem]

theorem sbic (a : BitVec 5) (b : BitVec 3) : Statement (.sbic a b) := by
  rw [Statement, wordCount_eq]
  simp [encode, Instr.base, encodeCore, firstWord, append853_bit, -BitVec.getLsbD_eq_getElem]

theorem sbis (a : BitVec 5) (b : BitVec 3) : Statement (.sbis a b) := by
  rw [Statement, wordCount_eq]
  simp [encode, Instr.base, encodeCore, firstWord, append853_bit, -BitVec.getLsbD_eq_getElem]

theorem mov (d r : Reg) : Statement (.mov d r) :=
  (wordRR_count _ _ _ (by decide)).symm

theorem movw (d r : Reg) : Statement (.movw d r) := by
  rw [Statement, wordCount_eq]
  simp [encode, Instr.base, encodeCore, firstWord, append844_bit, -BitVec.getLsbD_eq_getElem]

theorem ldi (d : Reg) (k : Byte) : Statement (.ldi d k) :=
  (wordRI_count _ _ _ (by decide)).symm

theorem ldX (d : Reg) : Statement (.ldX d) :=
  (wordR1_count _ _ _ (by decide)).symm

theorem ldXInc (d : Reg) : Statement (.ldXInc d) :=
  (wordR1_count _ _ _ (by decide)).symm

theorem ldXDec (d : Reg) : Statement (.ldXDec d) :=
  (wordR1_count _ _ _ (by decide)).symm

theorem ldYInc (d : Reg) : Statement (.ldYInc d) :=
  (wordR1_count _ _ _ (by decide)).symm

theorem ldYDec (d : Reg) : Statement (.ldYDec d) :=
  (wordR1_count _ _ _ (by decide)).symm

theorem ldZInc (d : Reg) : Statement (.ldZInc d) :=
  (wordR1_count _ _ _ (by decide)).symm

theorem ldZDec (d : Reg) : Statement (.ldZDec d) :=
  (wordR1_count _ _ _ (by decide)).symm

theorem lddY (d : Reg) (q : BitVec 6) : Statement (.lddY d q) := by
  rw [Statement, wordCount_eq]
  simp [encode, Instr.base, encodeCore, firstWord, wordLSQ_bit, -BitVec.getLsbD_eq_getElem]

theorem lddZ (d : Reg) (q : BitVec 6) : Statement (.lddZ d q) := by
  rw [Statement, wordCount_eq]
  simp [encode, Instr.base, encodeCore, firstWord, wordLSQ_bit, -BitVec.getLsbD_eq_getElem]

theorem lds (d : Reg) (k : Addr) : Statement (.lds d k) := by
  rw [Statement, wordCount_eq]
  simp [encode, Instr.base, encodeCore, firstWord, wordR1_bit, -BitVec.getLsbD_eq_getElem]

theorem stX (r : Reg) : Statement (.stX r) :=
  (wordR1_count _ _ _ (by decide)).symm

theorem stXInc (r : Reg) : Statement (.stXInc r) :=
  (wordR1_count _ _ _ (by decide)).symm

theorem stXDec (r : Reg) : Statement (.stXDec r) :=
  (wordR1_count _ _ _ (by decide)).symm

theorem stYInc (r : Reg) : Statement (.stYInc r) :=
  (wordR1_count _ _ _ (by decide)).symm

theorem stYDec (r : Reg) : Statement (.stYDec r) :=
  (wordR1_count _ _ _ (by decide)).symm

theorem stZInc (r : Reg) : Statement (.stZInc r) :=
  (wordR1_count _ _ _ (by decide)).symm

theorem stZDec (r : Reg) : Statement (.stZDec r) :=
  (wordR1_count _ _ _ (by decide)).symm

theorem stdY (q : BitVec 6) (r : Reg) : Statement (.stdY q r) := by
  rw [Statement, wordCount_eq]
  simp [encode, Instr.base, encodeCore, firstWord, wordLSQ_bit, -BitVec.getLsbD_eq_getElem]

theorem stdZ (q : BitVec 6) (r : Reg) : Statement (.stdZ q r) := by
  rw [Statement, wordCount_eq]
  simp [encode, Instr.base, encodeCore, firstWord, wordLSQ_bit, -BitVec.getLsbD_eq_getElem]

theorem sts (k : Addr) (r : Reg) : Statement (.sts k r) := by
  rw [Statement, wordCount_eq]
  simp [encode, Instr.base, encodeCore, firstWord, wordR1_bit, -BitVec.getLsbD_eq_getElem]

theorem lpm : Statement (.lpm) := by
  rfl

theorem lpmZ (d : Reg) : Statement (.lpmZ d) :=
  (wordR1_count _ _ _ (by decide)).symm

theorem lpmZInc (d : Reg) : Statement (.lpmZInc d) :=
  (wordR1_count _ _ _ (by decide)).symm

theorem elpm : Statement (.elpm) := by
  rfl

theorem elpmZ (d : Reg) : Statement (.elpmZ d) :=
  (wordR1_count _ _ _ (by decide)).symm

theorem elpmZInc (d : Reg) : Statement (.elpmZInc d) :=
  (wordR1_count _ _ _ (by decide)).symm

theorem inIo (d : Reg) (a : BitVec 6) : Statement (.inIo d a) := by
  rw [Statement, wordCount_eq]
  simp [encode, Instr.base, encodeCore, firstWord, wordIO_bit, -BitVec.getLsbD_eq_getElem]

theorem outIo (a : BitVec 6) (r : Reg) : Statement (.outIo a r) := by
  rw [Statement, wordCount_eq]
  simp [encode, Instr.base, encodeCore, firstWord, wordIO_bit, -BitVec.getLsbD_eq_getElem]

theorem push (r : Reg) : Statement (.push r) :=
  (wordR1_count _ _ _ (by decide)).symm

theorem pop (d : Reg) : Statement (.pop d) :=
  (wordR1_count _ _ _ (by decide)).symm

theorem mul (d r : Reg) : Statement (.mul d r) :=
  (wordRR_count _ _ _ (by decide)).symm

theorem muls (d r : Reg) : Statement (.muls d r) := by
  rw [Statement, wordCount_eq]
  simp [encode, Instr.base, encodeCore, firstWord, append844_bit, -BitVec.getLsbD_eq_getElem]

theorem mulsu (d r : Reg) : Statement (.mulsu d r) := by
  rw [Statement, wordCount_eq]
  simp [encode, Instr.base, encodeCore, firstWord, wordM3_bit, -BitVec.getLsbD_eq_getElem]

theorem fmul (d r : Reg) : Statement (.fmul d r) := by
  rw [Statement, wordCount_eq]
  simp [encode, Instr.base, encodeCore, firstWord, wordM3_bit, -BitVec.getLsbD_eq_getElem]

theorem fmuls (d r : Reg) : Statement (.fmuls d r) := by
  rw [Statement, wordCount_eq]
  simp [encode, Instr.base, encodeCore, firstWord, wordM3_bit, -BitVec.getLsbD_eq_getElem]

theorem fmulsu (d r : Reg) : Statement (.fmulsu d r) := by
  rw [Statement, wordCount_eq]
  simp [encode, Instr.base, encodeCore, firstWord, wordM3_bit, -BitVec.getLsbD_eq_getElem]

theorem nop : Statement (.nop) := by
  rfl

theorem brk : Statement (.brk) := by
  rfl

theorem sleep : Statement (.sleep) := by
  rfl

theorem wdr : Statement (.wdr) := by
  rfl

theorem spm : Statement (.spm) := by
  rfl

theorem lsl (d : Reg) : Statement (.lsl d) :=
  (wordRR_count _ _ _ (by decide)).symm

theorem rol (d : Reg) : Statement (.rol d) :=
  (wordRR_count _ _ _ (by decide)).symm

theorem tst (d : Reg) : Statement (.tst d) :=
  (wordRR_count _ _ _ (by decide)).symm

theorem clr (d : Reg) : Statement (.clr d) :=
  (wordRR_count _ _ _ (by decide)).symm

theorem ser (d : Reg) : Statement (.ser d) :=
  (wordRI_count _ _ _ (by decide)).symm

theorem cbr (d : Reg) (k : Byte) : Statement (.cbr d k) :=
  (wordRI_count _ _ _ (by decide)).symm

theorem sbr (d : Reg) (k : Byte) : Statement (.sbr d k) :=
  (wordRI_count _ _ _ (by decide)).symm

theorem sec : Statement (.sec) := rfl

theorem sez : Statement (.sez) := rfl

theorem sen : Statement (.sen) := rfl

theorem sev : Statement (.sev) := rfl

theorem ses : Statement (.ses) := rfl

theorem seh : Statement (.seh) := rfl

theorem setT : Statement (.setT) := rfl

theorem sei : Statement (.sei) := rfl

theorem clc : Statement (.clc) := rfl

theorem clz : Statement (.clz) := rfl

theorem cln : Statement (.cln) := rfl

theorem clv : Statement (.clv) := rfl

theorem cls : Statement (.cls) := rfl

theorem clh : Statement (.clh) := rfl

theorem clt : Statement (.clt) := rfl

theorem cli : Statement (.cli) := rfl

theorem brcs (k : BitVec 7) : Statement (.brcs k) :=
  (append673_count _ _ _ (by decide)).symm

theorem brlo (k : BitVec 7) : Statement (.brlo k) :=
  (append673_count _ _ _ (by decide)).symm

theorem brcc (k : BitVec 7) : Statement (.brcc k) :=
  (append673_count _ _ _ (by decide)).symm

theorem brsh (k : BitVec 7) : Statement (.brsh k) :=
  (append673_count _ _ _ (by decide)).symm

theorem breq (k : BitVec 7) : Statement (.breq k) :=
  (append673_count _ _ _ (by decide)).symm

theorem brne (k : BitVec 7) : Statement (.brne k) :=
  (append673_count _ _ _ (by decide)).symm

theorem brmi (k : BitVec 7) : Statement (.brmi k) :=
  (append673_count _ _ _ (by decide)).symm

theorem brpl (k : BitVec 7) : Statement (.brpl k) :=
  (append673_count _ _ _ (by decide)).symm

theorem brvs (k : BitVec 7) : Statement (.brvs k) :=
  (append673_count _ _ _ (by decide)).symm

theorem brvc (k : BitVec 7) : Statement (.brvc k) :=
  (append673_count _ _ _ (by decide)).symm

theorem brlt (k : BitVec 7) : Statement (.brlt k) :=
  (append673_count _ _ _ (by decide)).symm

theorem brge (k : BitVec 7) : Statement (.brge k) :=
  (append673_count _ _ _ (by decide)).symm

theorem brhs (k : BitVec 7) : Statement (.brhs k) :=
  (append673_count _ _ _ (by decide)).symm

theorem brhc (k : BitVec 7) : Statement (.brhc k) :=
  (append673_count _ _ _ (by decide)).symm

theorem brts (k : BitVec 7) : Statement (.brts k) :=
  (append673_count _ _ _ (by decide)).symm

theorem brtc (k : BitVec 7) : Statement (.brtc k) :=
  (append673_count _ _ _ (by decide)).symm

theorem brie (k : BitVec 7) : Statement (.brie k) :=
  (append673_count _ _ _ (by decide)).symm

theorem brid (k : BitVec 7) : Statement (.brid k) :=
  (append673_count _ _ _ (by decide)).symm

theorem ldY (d : Reg) : Statement (.ldY d) := by
  rw [Statement, wordCount_eq]
  simp [encode, Instr.base, encodeCore, firstWord, wordLSQ_bit, -BitVec.getLsbD_eq_getElem]

theorem ldZ (d : Reg) : Statement (.ldZ d) := by
  rw [Statement, wordCount_eq]
  simp [encode, Instr.base, encodeCore, firstWord, wordLSQ_bit, -BitVec.getLsbD_eq_getElem]

theorem stY (r : Reg) : Statement (.stY r) := by
  rw [Statement, wordCount_eq]
  simp [encode, Instr.base, encodeCore, firstWord, wordLSQ_bit, -BitVec.getLsbD_eq_getElem]

theorem stZ (r : Reg) : Statement (.stZ r) := by
  rw [Statement, wordCount_eq]
  simp [encode, Instr.base, encodeCore, firstWord, wordLSQ_bit, -BitVec.getLsbD_eq_getElem]

end Sys2Proof.Laws.EncodedLength
end

