-- ==== Sys2Proof/Laws/Stack.lean ====
section
/-! SUPPORT. The stack: a push and a pop anywhere in the data space, return addresses in SRAM, and the skip. -/

namespace Sys2Proof.Machine

/-- A push to a mapped address (R28). -/
theorem push8_mapped (v : Byte) {s : State} (h : Mapped s.cfg s.sp) :
    ∃ u, StoredAt s.sp v s u ∧ push8 v s = .ok { u with sp := spOf u.cfg (u.sp.toNat - 1) } := by
  obtain ⟨u, hu, hs⟩ := memWrite_mapped v h
  refine ⟨u, hs, ?_⟩
  have hw : wrapSp u.cfg (u.sp - 1#16) = spOf u.cfg (u.sp.toNat - 1) := by
    apply wrapSp_of_emod
    have := u.sp.isLt
    simp only [BitVec.toNat_sub]
    simp
    omega
  simp [push8, hu, State.setSp, hw]

/-- A push to an address that holds nothing (R28, R64). -/
theorem push8_unmapped (v : Byte) {s : State} (h : ¬Mapped s.cfg s.sp) : push8 v s = .error (.unmappedAccess s.sp) := by
  simp [push8, memWrite_unmapped v h]

/-- The state in which a pop reads: SP is one higher (R28). -/
theorem setSp_succ (s : State) : s.setSp (s.sp + 1) = { s with sp := spOf s.cfg (s.sp.toNat + 1) } := by
  have hw : wrapSp s.cfg (s.sp + 1#16) = spOf s.cfg (s.sp.toNat + 1) := by
    apply wrapSp_of_emod
    simp [BitVec.toNat_add]
  simp [State.setSp, hw]

/-- A pop is the read at the new stack pointer (R28). -/
theorem pop8_eq (s : State) :
    pop8 s = memRead (spOf s.cfg (s.sp.toNat + 1)) { s with sp := spOf s.cfg (s.sp.toNat + 1) } := by
  show memRead (s.setSp (s.sp + 1)).sp (s.setSp (s.sp + 1)) = _
  rw [setSp_succ]

/-- An SRAM address is SRAM (R63). -/
theorem place_of_inSram {c : Config} {n : Int} (h : InSram c n) : place c (BitVec.ofInt 16 n) = .sram := by
  obtain ⟨h1, h2, h3, h4⟩ := h
  have hn : (BitVec.ofInt 16 n).toNat = n.toNat := by
    simp only [BitVec.toNat_ofInt]
    omega
  rcases place_cases c (BitVec.ofInt 16 n) with ⟨x, -⟩ | ⟨-, x, -⟩ | ⟨-, x, -⟩ | ⟨-, -, -, e⟩ | ⟨x, -⟩
  · omega
  · omega
  · omega
  · exact e
  · exact absurd (Or.inr (Or.inr ⟨by omega, by omega⟩)) x

/-- The word whose number is `n`. -/
theorem ofInt_toNat (a : Addr) : BitVec.ofInt 16 (a.toNat : Int) = a := by
  apply BitVec.eq_of_toNat_eq
  have := a.isLt
  simp only [BitVec.toNat_ofInt]
  omega

theorem ofInt_eq_iff {a : Addr} {n : Int} (h0 : 0 ≤ n) (h1 : n < 65536) : a = BitVec.ofInt 16 n ↔ (a.toNat : Int) = n := by
  constructor
  · rintro rfl
    simp only [BitVec.toNat_ofInt]
    omega
  · intro h
    rw [← h, ofInt_toNat]

/-- A stack pointer in range is its own remainder. -/
theorem spOf_of_range {c : Config} {n : Int} (h0 : 0 ≤ n) (h1 : n < 2 ^ c.spBits) : spOf c n = BitVec.ofInt 16 n := by
  unfold spOf
  rw [Int.emod_eq_of_lt h0 h1]

/-- Several bytes pushed in SRAM: the first at the old SP, each next one below, and nothing else changes (R28). -/
theorem pushBytes_sram (vs : List Byte) (s : State) (h0 : vs ≠ []) (h1 : InSram s.cfg (s.sp.toNat : Int))
    (h2 : InSram s.cfg ((s.sp.toNat : Int) - (vs.length - 1 : Nat))) (h3 : s.sp.toNat < 2 ^ s.cfg.spBits) :
    ∃ t, pushBytes vs s = .ok t ∧ t = { s with sp := BitVec.ofInt 16 (s.sp.toNat - vs.length), ram := t.ram } ∧
      (∀ k (hk : k < vs.length), t.ramAt (s.sp.toNat - k) = vs[k]) ∧
      ∀ b : Addr, (∀ k : Nat, k < vs.length → (b.toNat : Int) ≠ s.sp.toNat - k) → t.ramByte b = s.ramByte b := by
  induction vs generalizing s with
  | nil => exact absurd rfl h0
  | cons v vs ih =>
    have hp := place_of_inSram h1
    rw [ofInt_toNat] at hp
    obtain ⟨a1, a2, a3, a4⟩ := h1
    obtain ⟨b1, b2, b3, b4⟩ := h2
    have h3' : (s.sp.toNat : Int) < 2 ^ s.cfg.spBits := by exact_mod_cast h3
    have hw : wrapSp s.cfg (s.sp - 1#16) = BitVec.ofInt 16 (s.sp.toNat - 1) := by
      rw [wrapSp_of_emod s.cfg (s.sp - 1#16) (s.sp.toNat - 1) ?_, spOf_of_range (by omega) (by omega)]
      simp only [BitVec.toNat_sub]
      simp
      omega
    have hpush : push8 v s = .ok { s.setRam s.sp v with sp := BitVec.ofInt 16 (s.sp.toNat - 1) } := by
      simp [push8, memWrite, hp, State.setSp, hw]
    have hsp : ((BitVec.ofInt 16 ((s.sp.toNat : Int) - 1)).toNat : Int) = s.sp.toNat - 1 := by
      simp only [BitVec.toNat_ofInt]
      omega
    have hsn : (BitVec.ofInt 16 ((s.sp.toNat : Int) - 1)).toNat = s.sp.toNat - 1 := by omega
    simp only [pushBytes, hpush]
    rcases vs with _ | ⟨w, ws⟩
    · refine ⟨_, rfl, by simp [State.setRam], ?_, ?_⟩
      · intro k hk
        have : k = 0 := by simpa using hk
        subst this
        show (s.setRam s.sp v).ramByte _ = v
        rw [State.ramByte_setRam, if_pos (by simp)]
      · intro b hb
        show (s.setRam s.sp v).ramByte b = _
        rw [State.ramByte_setRam, if_neg ?_]
        rintro rfl
        exact hb 0 (by simp) (by simp)
    · have hr : InSram s.cfg ((s.sp.toNat : Int) - 1) := by
        refine ⟨?_, ?_, ?_, ?_⟩ <;> simp at b1 b2 b3 b4 ⊢ <;> omega
      obtain ⟨t, ht, he, hk, hb⟩ := ih { s.setRam s.sp v with sp := BitVec.ofInt 16 (s.sp.toNat - 1) } (by simp)
        (by simp only [hsp]; exact hr)
        (by
          simp only [hsp]
          refine ⟨?_, ?_, ?_, ?_⟩ <;> simp at b1 b2 b3 b4 ⊢ <;> omega)
        (by simp only [State.setRam_cfg, hsn]; omega)
      simp only [hsp] at hk hb he
      refine ⟨t, ht, ?_, ?_, ?_⟩
      · rw [he]
        simp [State.setRam]
        congr 1
        omega
      · intro k hk'
        rcases k with _ | k
        · show t.ramByte _ = v
          have : t.ramByte (BitVec.ofInt 16 ((s.sp.toNat : Int) - (0 : Nat))) = (s.setRam s.sp v).ramByte s.sp := by
            rw [show BitVec.ofInt 16 ((s.sp.toNat : Int) - (0 : Nat)) = s.sp by simp]
            exact hb s.sp (by intro j hj; omega)
          rw [this, State.ramByte_setRam, if_pos rfl]
        · have := hk k (by simpa using hk')
          simp only [List.getElem_cons_succ]
          rw [← this]
          congr 1
          push_cast
          omega
      · intro b hb'
        rw [hb b ?_]
        · show (s.setRam s.sp v).ramByte b = _
          rw [State.ramByte_setRam, if_neg ?_]
          rintro rfl
          exact hb' 0 (by simp) (by simp)
        · intro j hj
          have := hb' (j + 1) (by simpa using hj)
          push_cast at this
          omega

theorem returnBytes_length (c : Config) (ra : PcWord) : (returnBytes c ra).length = returnLength c := by
  unfold returnBytes returnLength
  cases c.pcWidth <;> rfl

theorem returnBytes_get (c : Config) (ra : PcWord) (k : Nat) (h : k < returnLength c) :
    (returnBytes c ra)[k]? = some (BitVec.ofNat 8 (ra.toNat / 256 ^ k)) := by
  have hr := ra.isLt
  unfold returnLength at h
  unfold returnBytes
  cases hc : c.pcWidth <;> simp only [hc] at h ⊢
  · rcases k with _ | _ | k
    · refine congrArg some (BitVec.eq_of_toNat_eq ?_)
      simp
    · refine congrArg some (BitVec.eq_of_toNat_eq ?_)
      simp [Nat.shiftRight_eq_div_pow]
    · omega
  · rcases k with _ | _ | _ | k
    · refine congrArg some (BitVec.eq_of_toNat_eq ?_)
      simp
    · refine congrArg some (BitVec.eq_of_toNat_eq ?_)
      simp [Nat.shiftRight_eq_div_pow]
    · refine congrArg some (BitVec.eq_of_toNat_eq ?_)
      simp [Nat.shiftRight_eq_div_pow]
      omega
    · omega

/-- A return address pushed in SRAM (R29). -/
theorem pushPc_sram (ra : PcWord) {s : State} (h : PushRoom s) : ∃ t, pushPc ra s = .ok t ∧ ReturnPushed ra s t := by
  have hl := returnBytes_length s.cfg ra
  have hne : returnBytes s.cfg ra ≠ [] := by
    unfold returnBytes
    cases s.cfg.pcWidth <;> simp
  obtain ⟨t, h1, h2, h3, h4⟩ := pushBytes_sram (returnBytes s.cfg ra) s hne h.1 (by rw [hl]; exact h.2.1) h.2.2
  rw [hl] at h2 h4
  refine ⟨t, h1, h2, fun k hk => ?_, h4⟩
  have hg := returnBytes_get s.cfg ra k hk
  rw [List.getElem?_eq_getElem (by omega), Option.some_inj] at hg
  rw [h3 k (by omega), hg]

/-- A pop in SRAM (R28). -/
theorem pop8_sram {s : State} (h : InSram s.cfg ((s.sp.toNat : Int) + 1)) (h2 : s.sp.toNat + 1 < 2 ^ s.cfg.spBits) :
    pop8 s = .ok (s.ramAt (s.sp.toNat + 1), { s with sp := BitVec.ofInt 16 (s.sp.toNat + 1) }) := by
  have hp := place_of_inSram h
  have hs : spOf s.cfg (s.sp.toNat + 1) = BitVec.ofInt 16 (s.sp.toNat + 1) :=
    spOf_of_range (by omega) (by exact_mod_cast h2)
  rw [pop8_eq, hs]
  unfold memRead
  rw [show place _ (BitVec.ofInt 16 ((s.sp.toNat : Int) + 1)) = Place.sram from hp]
  rfl

/-- A return address popped in SRAM (R30). -/
theorem popPc_sram {s : State} (h : PopRoom s (returnLength s.cfg)) :
    popPc s = .ok (BitVec.ofNat 22 (returnNat s),
      { s with sp := BitVec.ofInt 16 (s.sp.toNat + returnLength s.cfg) }) := by
  obtain ⟨h1, h2, h3⟩ := h
  have h1' := h1
  obtain ⟨a1, a2, a3, a4⟩ := h1
  obtain ⟨b1, b2, b3, b4⟩ := h2
  have step : ∀ (n : Nat), n + 1 ≤ returnLength s.cfg →
      pop8 { s with sp := BitVec.ofInt 16 (s.sp.toNat + n) } =
        .ok (s.ramAt (s.sp.toNat + (n + 1 : Nat)), { s with sp := BitVec.ofInt 16 (s.sp.toNat + (n + 1 : Nat)) }) := by
    intro n hn
    have hsp : (BitVec.ofInt 16 ((s.sp.toNat : Int) + n)).toNat = s.sp.toNat + n := by
      simp only [BitVec.toNat_ofInt]
      omega
    have := pop8_sram (s := { s with sp := BitVec.ofInt 16 (s.sp.toNat + n) })
      (by simp only [hsp]; refine ⟨?_, ?_, ?_, ?_⟩ <;> omega) (by simp only [hsp]; omega)
    rw [this]
    simp only [hsp]
    push_cast
    rfl
  have s0 := step 0
  have s1 := step 1
  have s2 := step 2
  rw [show BitVec.ofInt 16 ((s.sp.toNat : Int) + (0 : Nat)) = s.sp by simp] at s0
  unfold popPc
  cases hc : s.cfg.pcWidth
  · have hl : returnLength s.cfg = 2 := by simp [returnLength, hc]
    have e0 := s0 (by omega)
    have e1 := s1 (by omega)
    simp only [popWord, e0, e1, hl, returnNat, hc]
    refine congrArg Except.ok (Prod.ext ?_ rfl)
    apply BitVec.eq_of_toNat_eq
    simp [append_toNat]
  · have hl : returnLength s.cfg = 3 := by simp [returnLength, hc]
    have e0 := s0 (by omega)
    have e1 := s1 (by omega)
    have e2 := s2 (by omega)
    simp only [popWord, e0, e1, e2, hl, returnNat, hc]
    refine congrArg Except.ok (Prod.ext ?_ rfl)
    apply BitVec.eq_of_toNat_eq
    rw [BitVec.toNat_append, ← Nat.shiftLeft_add_eq_or_of_lt (BitVec.isLt _), Nat.shiftLeft_eq]
    simp [append_toNat]
    omega

/-- A write of the data space keeps the configuration. -/
theorem StoredAt.cfg {a : Addr} {s t : State} {v : Byte} (h : StoredAt a v s t) : t.cfg = s.cfg := by rw [h.frame]

/-- A read of the data space keeps the configuration. -/
theorem ReadsAs.cfg {a : Addr} {s t : State} {v : Byte} (h : ReadsAs a s v t) : t.cfg = s.cfg := by rw [h.frame]

/-- A read of the data space keeps the stack pointer. -/
theorem ReadsAs.sp {a : Addr} {s t : State} {v : Byte} (h : ReadsAs a s v t) : t.sp = s.sp := by rw [h.frame]

/-- What a write leaves in SP: only SPH and SPL reach it (R67). -/
theorem StoredAt.sp {a : Addr} {s t : State} {v : Byte} (h : StoredAt a v s t) :
    t.sp =
      if a = 0x5E then spOf s.cfg (v.toNat * 256 + s.sp.toNat % 256)
      else if a = 0x5D then spOf s.cfg (s.sp.toNat / 256 * 256 + v.toNat) else s.sp := by
  by_cases h1 : a = 0x5E
  · subst h1
    simp only [StoredAt] at h
    simp at h
    simp [h]
  by_cases h2 : a = 0x5D
  · subst h2
    simp only [StoredAt] at h
    simp at h
    simp [h]
  rw [if_neg h1, if_neg h2]
  unfold StoredAt DeviceStored at h
  split_ifs at h
  all_goals first
    | (subst h; rfl)
    | (obtain ⟨h, -⟩ := h; rw [h])

/-- Where the stack pointer stands after a push (R28). -/
theorem StoredAt.spAfterPush {s u : State} {v : Byte} (h : StoredAt s.sp v s u) :
    spOf s.cfg (u.sp.toNat - 1) = spAfterPush s.cfg s.sp v := by
  rw [h.sp]
  unfold Sys2Proof.Machine.spAfterPush
  split_ifs <;> rfl

/-- Several bytes pushed to mapped addresses (R28, R81). -/
theorem pushBytes_mapped (vs : List Byte) (s : State) (h : ∀ b ∈ pushAddrs s.cfg vs s.sp, Mapped s.cfg b) :
    ∃ t, pushBytes vs s = .ok t ∧ Pushes vs s t := by
  induction vs generalizing s with
  | nil => exact ⟨s, rfl, rfl⟩
  | cons v vs ih =>
    obtain ⟨u, hu, hp⟩ := push8_mapped v (h s.sp (by simp [pushAddrs]))
    have hc := hu.cfg
    obtain ⟨t, ht, hq⟩ := ih { u with sp := spOf u.cfg (u.sp.toNat - 1) } (by
      intro b hb
      simp only [hc, hu.spAfterPush] at hb
      rw [show ({ u with sp := spOf u.cfg (u.sp.toNat - 1) } : State).cfg = s.cfg from hc]
      exact h b (by simp [pushAddrs, hb]))
    exact ⟨t, by simp [pushBytes, hp, ht], u, hu, hq⟩

/-- Several bytes pushed, one of them to an address that holds nothing (R64, R341). -/
theorem pushBytes_unmapped (vs : List Byte) (s : State) {a : Addr} (h : FirstUnmapped s.cfg (pushAddrs s.cfg vs s.sp) a) :
    pushBytes vs s = .error (.unmappedAccess a) := by
  induction vs generalizing s with
  | nil =>
    obtain ⟨before, behind, h, -⟩ := h
    simp [pushAddrs] at h
  | cons v vs ih =>
    obtain ⟨before, behind, h, hb, ha⟩ := h
    rcases before with _ | ⟨b, before⟩
    · simp only [pushAddrs, List.nil_append, List.cons.injEq] at h
      obtain ⟨rfl, -⟩ := h
      simp [pushBytes, push8_unmapped v ha]
    · simp only [pushAddrs, List.cons_append, List.cons.injEq] at h
      obtain ⟨rfl, h⟩ := h
      obtain ⟨u, hu, hp⟩ := push8_mapped v (hb s.sp (by simp))
      have hc := hu.cfg
      have := ih { u with sp := spOf u.cfg (u.sp.toNat - 1) } ⟨before, behind, by
        simpa only [hc, hu.spAfterPush] using h, by
        simpa only [hc] using fun x hx => hb x (by simp [hx]), by simpa only [hc] using ha⟩
      simp [pushBytes, hp, this]

/-- The bytes of a return address, as numbers (R29). -/
theorem returnBytes_eq (c : Config) (ra : PcWord) : returnBytes c ra = stackBytes c ra := by
  refine List.ext_getElem? (fun k => ?_)
  by_cases hk : k < returnLength c
  · rw [returnBytes_get c ra k hk]
    simp [stackBytes, hk]
  · rw [List.getElem?_eq_none (by rw [returnBytes_length]; omega), List.getElem?_eq_none (by simp [stackBytes]; omega)]

/-- A return address pushed to mapped addresses (R29, R81). -/
theorem pushPc_mapped (ra : PcWord) {s : State} (h : ∀ b ∈ pushAddrs s.cfg (stackBytes s.cfg ra) s.sp, Mapped s.cfg b) :
    ∃ t, pushPc ra s = .ok t ∧ Pushes (stackBytes s.cfg ra) s t := by
  unfold pushPc
  rw [returnBytes_eq]
  exact pushBytes_mapped _ s h

/-- A return address pushed, one byte to an address that holds nothing (R64, R341). -/
theorem pushPc_unmapped (ra : PcWord) {s : State} {a : Addr}
    (h : FirstUnmapped s.cfg (pushAddrs s.cfg (stackBytes s.cfg ra) s.sp) a) :
    pushPc ra s = .error (.unmappedAccess a) := by
  unfold pushPc
  rw [returnBytes_eq]
  exact pushBytes_unmapped _ s h

/-- Pushes keep the configuration. -/
theorem Pushes.cfg {vs : List Byte} {s t : State} (h : Pushes vs s t) : t.cfg = s.cfg := by
  induction vs generalizing s with
  | nil => rw [h]
  | cons v vs ih =>
    obtain ⟨u, hu, h⟩ := h
    rw [ih h]
    exact hu.cfg

/-- One pop: the byte at the raised stack pointer, or the fault of its address (R28). -/
theorem pop8_cases (s : State) :
    (Mapped s.cfg (spOf s.cfg (s.sp.toNat + 1)) ∧ ∃ v u, pop8 s = .ok (v, u) ∧ u.cfg = s.cfg ∧
      u.sp = spOf s.cfg (s.sp.toNat + 1) ∧
      ReadsAs (spOf s.cfg (s.sp.toNat + 1)) { s with sp := spOf s.cfg (s.sp.toNat + 1) } v u) ∨
    (¬Mapped s.cfg (spOf s.cfg (s.sp.toNat + 1)) ∧
      pop8 s = .error (.unmappedAccess (spOf s.cfg (s.sp.toNat + 1)))) := by
  rw [pop8_eq]
  by_cases h : Mapped s.cfg (spOf s.cfg (s.sp.toNat + 1))
  · obtain ⟨v, u, h1, h2⟩ := memRead_mapped (s := { s with sp := spOf s.cfg (s.sp.toNat + 1) }) h
    exact Or.inl ⟨h, v, u, h1, h2.cfg, h2.sp, h2⟩
  · exact Or.inr ⟨h, memRead_unmapped (s := { s with sp := spOf s.cfg (s.sp.toNat + 1) }) h⟩

/-- The first of several addresses that holds nothing is the head, or behind a head that holds something. -/
theorem firstUnmapped_cons {c : Config} {b a : Addr} {as : List Addr} :
    FirstUnmapped c (b :: as) a ↔ (¬Mapped c b ∧ a = b) ∨ (Mapped c b ∧ FirstUnmapped c as a) := by
  constructor
  · rintro ⟨before, behind, h, hb, ha⟩
    rcases before with _ | ⟨x, before⟩
    · simp only [List.nil_append, List.cons.injEq] at h
      obtain ⟨rfl, -⟩ := h
      exact Or.inl ⟨ha, rfl⟩
    · simp only [List.cons_append, List.cons.injEq] at h
      obtain ⟨rfl, h⟩ := h
      exact Or.inr ⟨hb b (by simp), before, behind, h, fun y hy => hb y (by simp [hy]), ha⟩
  · rintro (⟨h, rfl⟩ | ⟨h, before, behind, rfl, hb, ha⟩)
    · exact ⟨[], as, rfl, by simp, h⟩
    · exact ⟨b :: before, behind, rfl, by simpa [h] using hb, ha⟩

/-- A pop from a mapped address, before others: what it answers and what is left to know of the others (R28). -/
theorem pop8_head {s : State} {n : Nat} (h : ∀ b ∈ popAddrs s.cfg (n + 1) s.sp, Mapped s.cfg b) :
    ∃ v u, pop8 s = .ok (v, u) ∧ u.cfg = s.cfg ∧ (∀ b ∈ popAddrs u.cfg n u.sp, Mapped u.cfg b) ∧
      ∀ vs t, Pops vs u t → Pops (v :: vs) s t := by
  simp only [popAddrs, List.mem_cons, forall_eq_or_imp] at h
  rcases pop8_cases s with ⟨-, v, u, e, hc, hs, hr⟩ | ⟨hm, -⟩
  · exact ⟨v, u, e, hc, by rw [hc, hs]; exact h.2, fun vs t ht => ⟨u, hr, ht⟩⟩
  · exact absurd h.1 hm

/-- A pop with one address among several that holds nothing: its own, or one of the others' (R64, R341). -/
theorem pop8_head_unmapped {s : State} {n : Nat} {a : Addr} (h : FirstUnmapped s.cfg (popAddrs s.cfg (n + 1) s.sp) a) :
    pop8 s = .error (.unmappedAccess a) ∨
    ∃ v u, pop8 s = .ok (v, u) ∧ u.cfg = s.cfg ∧ FirstUnmapped u.cfg (popAddrs u.cfg n u.sp) a := by
  rcases firstUnmapped_cons.1 h with ⟨hm, rfl⟩ | ⟨hm, h⟩
  · rcases pop8_cases s with ⟨hm', -⟩ | ⟨-, e⟩
    · exact absurd hm' hm
    · exact Or.inl e
  · rcases pop8_cases s with ⟨-, v, u, e, hc, hs, -⟩ | ⟨hm', -⟩
    · exact Or.inr ⟨v, u, e, hc, by rw [hc, hs]; exact h⟩
    · exact absurd hm hm'

theorem not_firstUnmapped_nil {c : Config} {a : Addr} : ¬FirstUnmapped c [] a := by
  rintro ⟨before, behind, h, -⟩
  simp at h

/-- A return address popped from mapped addresses: the number the bytes make, without the bits above `PC_BITS` (R30, R81). -/
theorem popPc_mapped {s : State} (h : ∀ b ∈ popAddrs s.cfg (returnLength s.cfg) s.sp, Mapped s.cfg b) :
    ∃ vs t, vs.length = returnLength s.cfg ∧ Pops vs s t ∧
      popPc s = .ok (BitVec.ofNat 22 (returnOf vs % 2 ^ s.cfg.pcBits), t) ∧ t.cfg = s.cfg := by
  unfold popPc
  cases hc : s.cfg.pcWidth
  · simp only [returnLength, hc] at h ⊢
    obtain ⟨v, u, e1, c1, h, p1⟩ := pop8_head h
    obtain ⟨w, t, e2, c2, -, p2⟩ := pop8_head h
    refine ⟨[v, w], t, rfl, p1 _ _ (p2 _ _ rfl), ?_, by rw [c2, c1]⟩
    have := v.isLt
    have := w.isLt
    simp only [popWord, e1, e2]
    refine congrArg Except.ok (Prod.ext ?_ rfl)
    apply BitVec.eq_of_toNat_eq
    simp [append_toNat, returnOf, Config.pcBits, hc, PcWidth.bits]
    omega
  · simp only [returnLength, hc] at h ⊢
    obtain ⟨x, r, e0, c0, h, p0⟩ := pop8_head h
    obtain ⟨v, u, e1, c1, h, p1⟩ := pop8_head h
    obtain ⟨w, t, e2, c2, -, p2⟩ := pop8_head h
    refine ⟨[x, v, w], t, rfl, p0 _ _ (p1 _ _ (p2 _ _ rfl)), ?_, by rw [c2, c1, c0]⟩
    have := x.isLt
    have := v.isLt
    have := w.isLt
    simp only [popWord, e0, e1, e2]
    refine congrArg Except.ok (Prod.ext ?_ rfl)
    apply BitVec.eq_of_toNat_eq
    rw [BitVec.toNat_append, ← Nat.shiftLeft_add_eq_or_of_lt (BitVec.isLt _), Nat.shiftLeft_eq]
    simp [append_toNat, returnOf, Config.pcBits, hc, PcWidth.bits]
    omega

/-- A return address popped, one byte from an address that holds nothing (R64, R341). -/
theorem popPc_unmapped {s : State} {a : Addr}
    (h : FirstUnmapped s.cfg (popAddrs s.cfg (returnLength s.cfg) s.sp) a) : popPc s = .error (.unmappedAccess a) := by
  unfold popPc
  cases hc : s.cfg.pcWidth
  · simp only [returnLength, hc] at h ⊢
    rcases pop8_head_unmapped h with e | ⟨v, u, e1, -, h⟩
    · simp [popWord, e]
    rcases pop8_head_unmapped h with e | ⟨w, t, -, -, h⟩
    · simp [popWord, e1, e]
    · exact absurd h not_firstUnmapped_nil
  · simp only [returnLength, hc] at h ⊢
    rcases pop8_head_unmapped h with e | ⟨x, r, e0, -, h⟩
    · simp [e]
    rcases pop8_head_unmapped h with e | ⟨v, u, e1, -, h⟩
    · simp [popWord, e0, e]
    rcases pop8_head_unmapped h with e | ⟨w, t, -, -, h⟩
    · simp [popWord, e0, e1, e]
    · exact absurd h not_firstUnmapped_nil

/-- A skip (R234). -/
theorem skip_eq (cond : Bool) (s : State) :
    skip cond s =
      if cond then
        match progWord s (pcOf s.cfg (s.pc.toNat + 1)) with
        | none => .fault (.fetchOutOfRange (pcOf s.cfg (s.pc.toNat + 1)))
        | some w => .next (s.after (1 + wordCount w) (1 + wordCount w))
      else .next (s.after 1 1) := by
  have hn : s.nextPc = pcOf s.cfg (s.pc.toNat + 1) := wrapPc_add s.cfg s.pc 1
  unfold skip
  rw [hn]
  cases progWord s (pcOf s.cfg (s.pc.toNat + 1)) <;> cases cond <;> simp [State.advance_eq]

end Sys2Proof.Machine
end

