-- ==== Sys2Proof/Tests/Slice0.lean ====
section
/-! SUPPORT. Tests. Encodings are written out bit by bit from the patterns of spec/30_encoding.md and the instruction rules;
expected results are the rows of spec/96_test_vectors_derived.md (sections 2.2 to 2.9) and the worked example R361, no value
is the model's own answer. Last, for every obligation with hypotheses a state and operands that meet them. -/

set_option Elab.async false

namespace Sys2Proof.Tests

open Sys2Proof.Machine

/-! Helpers. -/

/-- A setting of a state, or a thing to find in one. -/
inductive Item where
  | sreg (v : Byte)
  | reg (r : Reg) (v : Byte)
  | mem (a : Addr) (v : Byte)
  | prog (a : PcWord) (w : Word)
  | pc (a : PcWord)
  | sp (v : Word)
  | rampz (v : Byte)
  | eind (v : Byte)
  | wide

/-- The default member with RAMEND = $025F and every I/O register as storage, as section 2 of the vectors assumes. -/
def small : State :=
  { State.reset with
    cfg := { Config.default with ramEnd := 0x25F, ioStorage := List.range 0x60 }, sp := 0x25F }

/-- The same with a 22-bit program counter and the extended instructions. -/
def wide : State :=
  { small with
    cfg := { small.cfg with pcWidth := .pc22, flashWords := 0x400000, hasExtended := true } }

def put (s : State) : Item → State
  | .sreg v => s.setSreg v
  | .reg r v => s.setReg r v
  | .mem a v => s.setRam a v
  | .prog a w => loadWord s a w
  | .pc a => { s with pc := a }
  | .sp v => { s with sp := v }
  | .rampz v => { s with rampz := v }
  | .eind v => { s with eind := v }
  | .wide => { s with cfg := wide.cfg }

def holds (s : State) : Item → Bool
  | .sreg v => s.sreg == v
  | .reg r v => s.reg r == v
  | .mem a v => s.ramByte a == v
  | .prog a w => progWord s a == some w
  | .pc a => s.pc == a
  | .sp v => s.sp == v
  | .rampz v => s.rampz == v
  | .eind v => s.eind == v
  | .wide => true

/-- The program words of a list of settings. -/
def putProgram (s : State) : Item → State
  | .prog a w => loadWord s a w
  | .sreg _ | .reg _ _ | .mem _ _ | .pc _ | .sp _ | .rampz _ | .eind _ | .wide => s

/-- The first step of the instruction with bits `w` leads from the settings to a state in which all of `finish` holds. -/
def stepsTo (nbits w : Nat) (start finish : List Item) : Bool :=
  match step (start.foldl putProgram ((start.foldl put small).withFetchWord nbits w)) with
  | .next t => finish.all (holds t)
  | .fault _ => false
  | .refused _ => false

/-- The fault of a result. -/
def faultOf : Result → Option Fault
  | .next _ => none
  | .fault f => some f
  | .refused _ => none

/-- The state of a result. -/
def nextOf : Result → Option State
  | .next t => some t
  | .fault _ => none
  | .refused _ => none

/-- The first step of the instruction with bits `w` at pc = $0100 in a member stops with `f`. -/
def faults (c : Config) (nbits w : Nat) (start : List Item) (f : Fault) : Bool :=
  faultOf (step ((start.foldl put { small with cfg := c, pc := 0x100 }).withFetchWord nbits w)) == some f

/-- Every first word, with its second word, reads as its instruction. -/
def readsAll (l : List (Word × Word × Instr)) : Bool := l.all (fun x => decodeWord x.1 x.2.1 == some x.2.2)

/-! WellFormed: one ill-formed term for each check. -/

theorem test_wellFormed_refuses_word_pairs :
    wellFormed (.adiw 25 1) = false ∧ wellFormed (.adiw 22 1) = false ∧ wellFormed (.sbiw 31 1) = false ∧
    wellFormed (.sbiw 0 1) = false ∧ wellFormed (.movw 17 0) = false ∧ wellFormed (.movw 16 1) = false := by decide

theorem test_wellFormed_refuses_lower_half :
    wellFormed (.andi 15 1) = false ∧ wellFormed (.cpi 15 1) = false ∧ wellFormed (.ldi 15 1) = false ∧
    wellFormed (.ori 15 1) = false ∧ wellFormed (.sbci 15 1) = false ∧ wellFormed (.subi 15 1) = false ∧
    wellFormed (.cbr 15 1) = false ∧ wellFormed (.sbr 15 1) = false ∧ wellFormed (.ser 15) = false ∧
    wellFormed (.muls 15 16) = false ∧ wellFormed (.muls 16 15) = false := by decide

theorem test_wellFormed_refuses_outside_mid :
    wellFormed (.mulsu 15 16) = false ∧ wellFormed (.mulsu 16 24) = false ∧ wellFormed (.fmul 24 16) = false ∧
    wellFormed (.fmul 16 15) = false ∧ wellFormed (.fmuls 15 23) = false ∧ wellFormed (.fmuls 23 24) = false ∧
    wellFormed (.fmulsu 24 23) = false ∧ wellFormed (.fmulsu 16 15) = false := by decide

/-- The boundary registers of the classes are accepted. -/
theorem test_wellFormed_accepts_boundaries :
    wellFormed (.adiw 24 63) = true ∧ wellFormed (.sbiw 30 0) = true ∧ wellFormed (.movw 30 0) = true ∧
    wellFormed (.ldi 16 0) = true ∧ wellFormed (.muls 31 16) = true ∧ wellFormed (.fmulsu 16 23) = true := by decide

/-! Decoding: words written out from the patterns. -/

/-- Arithmetic and compare (40_arithmetic.md) -/
theorem test_decode_arithmetic_and_compare : readsAll [
    (0b0000111010101110, 0x0000, .add 10 30), (0b0001110001001100, 0x0000, .adc 4 12),
    (0b1001011010101001, 0x0000, .adiw 28 41), (0b0001100000111011, 0x0000, .sub 3 11),
    (0b0101100111100101, 0x0000, .subi 30 149), (0b0000100100000110, 0x0000, .sbc 16 6),
    (0b0100000000011001, 0x0000, .sbci 17 9), (0b1001011101011011, 0x0000, .sbiw 26 27),
    (0b1001010000100011, 0x0000, .inc 2), (0b1001010001111010, 0x0000, .dec 7),
    (0b1001010000100001, 0x0000, .neg 2), (0b1001010100010000, 0x0000, .com 17),
    (0b0001010011010001, 0x0000, .cp 13 1), (0b0000011110100010, 0x0000, .cpc 26 18),
    (0b0011000100111111, 0x0000, .cpi 19 31)] = true := by decide +kernel

/-- Logic (41_logic.md) -/
theorem test_decode_logic : readsAll [
    (0b0010001101000100, 0x0000, .and 20 20), (0b0111100110010101, 0x0000, .andi 25 149),
    (0b0010100100101100, 0x0000, .or 18 12), (0b0110000000111100, 0x0000, .ori 19 12),
    (0b0010011000010001, 0x0000, .eor 1 17)] = true := by decide +kernel

/-- Shifts and bits (42_shift_bit.md) -/
theorem test_decode_shifts_and_bits : readsAll [
    (0b1001010110110101, 0x0000, .asr 27), (0b1001010001000110, 0x0000, .lsr 4),
    (0b1001010010010111, 0x0000, .ror 9), (0b1001010011010010, 0x0000, .swap 13),
    (0b1111100100010001, 0x0000, .bld 17 1), (0b1111101010010100, 0x0000, .bst 9 4),
    (0b1001010001001000, 0x0000, .bset 4), (0b1001010011101000, 0x0000, .bclr 6),
    (0b1001101000101101, 0x0000, .sbi 5 5), (0b1001100010010100, 0x0000, .cbi 18 4)] = true := by decide +kernel

/-- Branches, jumps, calls, returns, skips (43_branch.md) -/
theorem test_decode_branches_jumps_calls_returns_skips : readsAll [
    (0b1111000011000101, 0x0000, .brbs 5 24), (0b1111010001100010, 0x0000, .brbc 2 12),
    (0b1100100011000011, 0x0000, .rjmp 2243), (0b1001010101101101, 0x9339, .jmp 2986809),
    (0b1001010000001001, 0x0000, .ijmp), (0b1001010000011001, 0x0000, .eijmp),
    (0b1101000100000001, 0x0000, .rcall 257), (0b1001010100101110, 0x1E9C, .call 2367132),
    (0b1001010100001001, 0x0000, .icall), (0b1001010100011001, 0x0000, .eicall),
    (0b1001010100001000, 0x0000, .ret), (0b1001010100011000, 0x0000, .reti),
    (0b0001001000010011, 0x0000, .cpse 1 19), (0b1111110011110001, 0x0000, .sbrc 15 1),
    (0b1111111100010101, 0x0000, .sbrs 17 5), (0b1001100111000011, 0x0000, .sbic 24 3),
    (0b1001101101110010, 0x0000, .sbis 14 2)] = true := by decide +kernel

/-- Data transfer (44_transfer.md) -/
theorem test_decode_data_transfer_1 : readsAll [
    (0b0010111100101101, 0x0000, .mov 18 29), (0b0000000101110101, 0x0000, .movw 14 10),
    (0b1110010000111100, 0x0000, .ldi 19 76), (0b1001000110011100, 0x0000, .ldX 25),
    (0b1001000001011101, 0x0000, .ldXInc 5), (0b1001000101101110, 0x0000, .ldXDec 22),
    (0b1001000110001001, 0x0000, .ldYInc 24), (0b1001000001111010, 0x0000, .ldYDec 7),
    (0b1001000000100001, 0x0000, .ldZInc 2), (0b1001000100100010, 0x0000, .ldZDec 18),
    (0b1000100100001011, 0x0000, .lddY 16 19), (0b1000110111000111, 0x0000, .lddZ 28 31),
    (0b1001000010100000, 0xBABC, .lds 10 47804), (0b1001001011101100, 0x0000, .stX 14),
    (0b1001001010011101, 0x0000, .stXInc 9), (0b1001001100111110, 0x0000, .stXDec 19),
    (0b1001001000101001, 0x0000, .stYInc 2), (0b1001001000111010, 0x0000, .stYDec 3),
    (0b1001001100000001, 0x0000, .stZInc 16), (0b1001001011010010, 0x0000, .stZDec 13),
    (0b1000011110001010, 0x0000, .stdY 10 24), (0b1000101001000101, 0x0000, .stdZ 21 4),
    (0b1001001111010000, 0x7D2C, .sts 32044 29), (0b1001010111001000, 0x0000, .lpm)] = true := by decide +kernel

/-- Data transfer (44_transfer.md) -/
theorem test_decode_data_transfer_2 : readsAll [
    (0b1001000011010100, 0x0000, .lpmZ 13), (0b1001000000010101, 0x0000, .lpmZInc 1),
    (0b1001010111011000, 0x0000, .elpm), (0b1001000111100110, 0x0000, .elpmZ 30),
    (0b1001000101010011, 0x0000, .elpmZInc 21), (0b1011000110000100, 0x0000, .inIo 24 4),
    (0b1011110100100011, 0x0000, .outIo 35 18), (0b1001001110011111, 0x0000, .push 25),
    (0b1001000111001111, 0x0000, .pop 28)] = true := by decide +kernel

/-- Multiply (45_multiply.md) -/
theorem test_decode_multiply : readsAll [
    (0b1001110110101010, 0x0000, .mul 26 10), (0b0000001001011011, 0x0000, .muls 21 27),
    (0b0000001100100100, 0x0000, .mulsu 18 20), (0b0000001100111100, 0x0000, .fmul 19 20),
    (0b0000001111100011, 0x0000, .fmuls 22 19), (0b0000001111101010, 0x0000, .fmulsu 22 18)] = true := by decide +kernel

/-- System (46_system.md) -/
theorem test_decode_system : readsAll [
    (0b0000000000000000, 0x0000, .nop), (0b1001010110011000, 0x0000, .brk), (0b1001010110001000, 0x0000, .sleep),
    (0b1001010110101000, 0x0000, .wdr), (0b1001010111101000, 0x0000, .spm)] = true := by decide +kernel

/-- Alias rows (R123, R114): other names for words of the instructions above -/
theorem test_decode_alias_rows_1 : readsAll [
    (0b0000110011111111, 0x0000, .add 15 15), (0b0001111101010101, 0x0000, .adc 21 21),
    (0b0010000000010001, 0x0000, .and 1 1), (0b0010011101100110, 0x0000, .eor 22 22),
    (0b1110111110101111, 0x0000, .ldi 26 0xFF), (0b0111100110100011, 0x0000, .andi 26 147),
    (0b0110110101110010, 0x0000, .ori 23 210), (0b1001010000001000, 0x0000, .bset 0),
    (0b1001010000011000, 0x0000, .bset 1), (0b1001010000101000, 0x0000, .bset 2),
    (0b1001010000111000, 0x0000, .bset 3), (0b1001010001001000, 0x0000, .bset 4),
    (0b1001010001011000, 0x0000, .bset 5), (0b1001010001101000, 0x0000, .bset 6),
    (0b1001010001111000, 0x0000, .bset 7), (0b1001010010001000, 0x0000, .bclr 0),
    (0b1001010010011000, 0x0000, .bclr 1), (0b1001010010101000, 0x0000, .bclr 2),
    (0b1001010010111000, 0x0000, .bclr 3), (0b1001010011001000, 0x0000, .bclr 4),
    (0b1001010011011000, 0x0000, .bclr 5), (0b1001010011101000, 0x0000, .bclr 6),
    (0b1001010011111000, 0x0000, .bclr 7), (0b1111000100100000, 0x0000, .brbs 0 36)] = true := by decide +kernel

/-- Alias rows (R123, R114): other names for words of the instructions above -/
theorem test_decode_alias_rows_2 : readsAll [
    (0b1111001011011000, 0x0000, .brbs 0 91), (0b1111010110001000, 0x0000, .brbc 0 49),
    (0b1111011110001000, 0x0000, .brbc 0 113), (0b1111001010101001, 0x0000, .brbs 1 85),
    (0b1111010101100001, 0x0000, .brbc 1 44), (0b1111000000010010, 0x0000, .brbs 2 2),
    (0b1111011111000010, 0x0000, .brbc 2 120), (0b1111000111011011, 0x0000, .brbs 3 59),
    (0b1111010101101011, 0x0000, .brbc 3 45), (0b1111000010101100, 0x0000, .brbs 4 21),
    (0b1111011001110100, 0x0000, .brbc 4 78), (0b1111000001110101, 0x0000, .brbs 5 14),
    (0b1111010111111101, 0x0000, .brbc 5 63), (0b1111000000111110, 0x0000, .brbs 6 7),
    (0b1111010011011110, 0x0000, .brbc 6 27), (0b1111001100010111, 0x0000, .brbs 7 98),
    (0b1111010100100111, 0x0000, .brbc 7 36), (0b1000000001001000, 0x0000, .lddY 4 0),
    (0b1000000101110000, 0x0000, .lddZ 23 0), (0b1000001001111000, 0x0000, .stdY 0 7),
    (0b1000001011000000, 0x0000, .stdZ 0 12)] = true := by decide +kernel
/-- Two words in program memory: low byte first (R69), first word first (R70); two bytes are left. -/
theorem test_decode_bytes :
    decode [0xFD, 0x95, 0x34, 0x12, 0xAA, 0xBB] = .ok (.jmp 0x3F1234, [0xAA, 0xBB]) ∧
    decode [0x01, 0x0F, 0xAA] = .ok (.add 16 17, [0xAA]) ∧ decode [0xFF, 0xFF] = .error (.unassigned 0xFFFF) ∧
    decode [0x0C, 0x94, 0x34] = .error .truncated := by decide +kernel

theorem test_decodeTableWord :
    decodeTableWord 16 0x0F01 = some (.add 16 17) ∧ decodeTableWord 32 0x123495FD = some (.jmp 0x3F1234) ∧
    decodeTableWord 16 0x9100 = some (.lds 16 0) := by decide +kernel

/-! One step for each instruction. -/

/-- `add r16,r17` -/
theorem test_add : stepsTo 16 0xF01 [.reg 16 0x80, .reg 17 0x80]
    [.sreg 0x1B, .reg 16 0x00, .pc 0x0001] = true := by decide +kernel
/-- `adc r17,r1` -/
theorem test_adc : stepsTo 16 0x1D11 [.sreg 0x01, .reg 17 0x7F, .reg 1 0x00]
    [.sreg 0x2C, .reg 17 0x80, .pc 0x0001] = true := by decide +kernel
/-- `adiw r31:r30,1` -/
theorem test_adiw : stepsTo 16 0x9631 [.reg 30 0xFF, .reg 31 0xFF]
    [.sreg 0x03, .reg 30 0x00, .reg 31 0x00, .pc 0x0001] = true := by decide +kernel
/-- `sub r16,r17` -/
theorem test_sub : stepsTo 16 0x1B01 [.reg 16 0x00, .reg 17 0x01]
    [.sreg 0x35, .reg 16 0xFF, .pc 0x0001] = true := by decide +kernel
/-- `subi r16,$D0` -/
theorem test_subi : stepsTo 16 0x5D00 [.reg 16 0x05]
    [.sreg 0x01, .reg 16 0x35, .pc 0x0001] = true := by decide +kernel
/-- `sbc r17,r1` -/
theorem test_sbc : stepsTo 16 0x911 [.sreg 0x03, .reg 17 0x00, .reg 1 0x00]
    [.sreg 0x35, .reg 17 0xFF, .pc 0x0001] = true := by decide +kernel
/-- `sbci r17,$04` -/
theorem test_sbci : stepsTo 16 0x4014 [.sreg 0x01, .reg 17 0x04]
    [.sreg 0x35, .reg 17 0xFF, .pc 0x0001] = true := by decide +kernel
/-- `sbiw r31:r30,1` -/
theorem test_sbiw : stepsTo 16 0x9731 [.reg 30 0x00, .reg 31 0x00]
    [.sreg 0x15, .reg 30 0xFF, .reg 31 0xFF, .pc 0x0001] = true := by decide +kernel
/-- `inc r16` -/
theorem test_inc : stepsTo 16 0x9503 [.sreg 0x01, .reg 16 0x7F]
    [.sreg 0x0D, .reg 16 0x80, .pc 0x0001] = true := by decide +kernel
/-- `dec r16` -/
theorem test_dec : stepsTo 16 0x950A [.reg 16 0x80] [.sreg 0x18, .reg 16 0x7F, .pc 0x0001] = true := by decide +kernel
/-- `neg r16` -/
theorem test_neg : stepsTo 16 0x9501 [.reg 16 0x08] [.sreg 0x35, .reg 16 0xF8, .pc 0x0001] = true := by decide +kernel
/-- `com r16` -/
theorem test_com : stepsTo 16 0x9500 [.sreg 0x08, .reg 16 0x00]
    [.sreg 0x15, .reg 16 0xFF, .pc 0x0001] = true := by decide +kernel
/-- `cp r16,r17` -/
theorem test_cp : stepsTo 16 0x1701 [.reg 16 0x05, .reg 17 0x06]
    [.sreg 0x35, .reg 16 0x05, .reg 17 0x06, .pc 0x0001] = true := by decide +kernel
/-- `cpc r17,r1` -/
theorem test_cpc : stepsTo 16 0x511 [.sreg 0x03, .reg 17 0x12, .reg 1 0x11]
    [.sreg 0x02, .reg 17 0x12, .pc 0x0001] = true := by decide +kernel
/-- `cpi r16,$30` -/
theorem test_cpi : stepsTo 16 0x3300 [.reg 16 0x2F] [.sreg 0x15, .reg 16 0x2F, .pc 0x0001] = true := by decide +kernel
/-- `and r0,r16` -/
theorem test_and : stepsTo 16 0x2200 [.sreg 0x21, .reg 0 0xF0, .reg 16 0x80]
    [.sreg 0x35, .reg 0 0x80, .pc 0x0001] = true := by decide +kernel
/-- `andi r16,$0F` -/
theorem test_andi : stepsTo 16 0x700F [.reg 16 0xA7]
    [.sreg 0x00, .reg 16 0x07, .pc 0x0001] = true := by decide +kernel
/-- `or r16,r17` -/
theorem test_or : stepsTo 16 0x2B01 [.sreg 0x09, .reg 16 0x00, .reg 17 0x00]
    [.sreg 0x03, .reg 16 0x00, .pc 0x0001] = true := by decide +kernel
/-- `ori r16,$0F` -/
theorem test_ori : stepsTo 16 0x600F [.reg 16 0xA0] [.sreg 0x14, .reg 16 0xAF, .pc 0x0001] = true := by decide +kernel
/-- `eor r16,r16` -/
theorem test_eor : stepsTo 16 0x2700 [.sreg 0x1D, .reg 16 0x5A]
    [.sreg 0x03, .reg 16 0x00, .pc 0x0001] = true := by decide +kernel
/-- `asr r16` -/
theorem test_asr : stepsTo 16 0x9505 [.reg 16 0x01] [.sreg 0x1B, .reg 16 0x00, .pc 0x0001] = true := by decide +kernel
/-- `lsr r16` -/
theorem test_lsr : stepsTo 16 0x9506 [.reg 16 0x01] [.sreg 0x1B, .reg 16 0x00, .pc 0x0001] = true := by decide +kernel
/-- `ror r16` -/
theorem test_ror : stepsTo 16 0x9507 [.reg 16 0x01] [.sreg 0x1B, .reg 16 0x00, .pc 0x0001] = true := by decide +kernel
/-- `swap r16` -/
theorem test_swap : stepsTo 16 0x9502 [.sreg 0x03, .reg 16 0x12]
    [.sreg 0x03, .reg 16 0x21, .pc 0x0001] = true := by decide +kernel
/-- `bld r16,7` -/
theorem test_bld : stepsTo 16 0xF907 [.sreg 0x40, .reg 16 0x00]
    [.sreg 0x40, .reg 16 0x80, .pc 0x0001] = true := by decide +kernel
/-- `bst r17,0` -/
theorem test_bst : stepsTo 16 0xFB10 [.reg 17 0x01] [.sreg 0x40, .reg 17 0x01, .pc 0x0001] = true := by decide +kernel
/-- `bset 0` -/
theorem test_bset : stepsTo 16 0x9408 [] [.sreg 0x01, .pc 0x0001] = true := by decide +kernel
/-- `bclr 0` -/
theorem test_bclr : stepsTo 16 0x9488 [.sreg 0xFF] [.sreg 0xFE, .pc 0x0001] = true := by decide +kernel
/-- `sbi $18,7` -/
theorem test_sbi : stepsTo 16 0x9AC7 [.mem 0x38 0x01]
    [.sreg 0x00, .mem 0x38 0x81, .pc 0x0001] = true := by decide +kernel
/-- `cbi $18,7` -/
theorem test_cbi : stepsTo 16 0x98C7 [.mem 0x38 0xFF]
    [.sreg 0x00, .mem 0x38 0x7F, .pc 0x0001] = true := by decide +kernel
/-- `brbs 1,.+5` -/
theorem test_brbs : stepsTo 16 0xF029 [.sreg 0x02, .pc 0x0100] [.sreg 0x02, .pc 0x0106] = true := by decide +kernel
/-- `brbc 1,.-2` -/
theorem test_brbc : stepsTo 16 0xF7F1 [.pc 0x0100] [.sreg 0x00, .pc 0x00FF] = true := by decide +kernel
/-- `rjmp .-1` -/
theorem test_rjmp : stepsTo 16 0xCFFF [.pc 0x0100] [.sreg 0x00, .pc 0x0100] = true := by decide +kernel
/-- `jmp $3F1234` -/
theorem test_jmp : stepsTo 32 0x123495FD [.wide, .pc 0x000100] [.sreg 0x00, .pc 0x3F1234] = true := by decide +kernel
/-- `ijmp` -/
theorem test_ijmp : stepsTo 16 0x9409 [.wide, .reg 30 0x34, .reg 31 0x12, .pc 0x020100]
    [.sreg 0x00, .pc 0x001234] = true := by decide +kernel
/-- `eijmp` -/
theorem test_eijmp : stepsTo 16 0x9419 [.wide, .reg 30 0x34, .reg 31 0x12, .pc 0x000100, .eind 0x01]
    [.sreg 0x00, .pc 0x011234] = true := by decide +kernel
/-- `rcall .+16` -/
theorem test_rcall : stepsTo 16 0xD010 [.wide, .pc 0x012345, .sp 0x025F]
    [.sreg 0x00, .mem 0x025D 0x01, .mem 0x025E 0x23, .mem 0x025F 0x46, .pc 0x012356, .sp 0x025C] = true := by decide +kernel
/-- `call $020400` -/
theorem test_call : stepsTo 32 0x400941E [.wide, .pc 0x0101FF, .sp 0x025F]
    [.sreg 0x00, .mem 0x025D 0x01, .mem 0x025E 0x02, .mem 0x025F 0x01, .pc 0x020400, .sp 0x025C] = true := by decide +kernel
/-- `icall` -/
theorem test_icall : stepsTo 16 0x9509 [.wide, .reg 30 0x00, .reg 31 0x04, .pc 0x030ABC, .sp 0x025F]
    [.sreg 0x00, .mem 0x025D 0x03, .mem 0x025E 0x0A, .mem 0x025F 0xBD, .pc 0x000400, .sp 0x025C] = true := by decide +kernel
/-- `eicall` -/
theorem test_eicall : stepsTo 16 0x9519 [.wide, .reg 30 0x00, .reg 31 0x04, .pc 0x030ABC, .sp 0x025F, .eind 0x01]
    [.sreg 0x00, .mem 0x025D 0x03, .mem 0x025E 0x0A, .mem 0x025F 0xBD, .pc 0x010400, .sp 0x025C] = true := by decide +kernel
/-- `ret` -/
theorem test_ret : stepsTo 16 0x9508 [.wide, .mem 0x025D 0xC1, .mem 0x025E 0x23, .mem 0x025F 0x46, .pc 0x000400, .sp 0x025C]
    [.sreg 0x00, .pc 0x012346, .sp 0x025F] = true := by decide +kernel
/-- `reti` -/
theorem test_reti : stepsTo 16 0x9518 [.mem 0x025E 0x01, .mem 0x025F 0x01, .pc 0x0400, .sp 0x025D]
    [.sreg 0x80, .pc 0x0101, .sp 0x025F] = true := by decide +kernel
/-- `cpse r16,r17` -/
theorem test_cpse : stepsTo 16 0x1301 [.reg 16 0x05, .reg 17 0x05, .pc 0x0010, .prog 0x0011 0x9503]
    [.sreg 0x00, .pc 0x0012] = true := by decide +kernel
/-- `sbrc r16,7` -/
theorem test_sbrc : stepsTo 16 0xFD07 [.reg 16 0x7F, .pc 0x0010, .prog 0x0011 0x9501]
    [.sreg 0x00, .pc 0x0012] = true := by decide +kernel
/-- `sbrs r16,7` -/
theorem test_sbrs : stepsTo 16 0xFF07 [.reg 16 0x80, .pc 0x0010, .prog 0x0011 0x9501]
    [.sreg 0x00, .pc 0x0012] = true := by decide +kernel
/-- `sbic $10,7` -/
theorem test_sbic : stepsTo 16 0x9987 [.mem 0x30 0x80, .pc 0x0010, .prog 0x0011 0xCFFE]
    [.sreg 0x00, .pc 0x0011] = true := by decide +kernel
/-- `sbis $10,7` -/
theorem test_sbis : stepsTo 16 0x9B87 [.mem 0x30 0x80, .pc 0x0010, .prog 0x0011 0xCFFE]
    [.sreg 0x00, .pc 0x0012] = true := by decide +kernel
/-- `mov r0,r16` -/
theorem test_mov : stepsTo 16 0x2E00 [.sreg 0x03, .reg 0 0x11, .reg 16 0x55]
    [.sreg 0x03, .reg 0 0x55, .reg 16 0x55, .pc 0x0001] = true := by decide +kernel
/-- `movw r17:r16,r1:r0` -/
theorem test_movw : stepsTo 16 0x180 [.reg 0 0x34, .reg 1 0x12]
    [.sreg 0x00, .reg 16 0x34, .reg 17 0x12, .pc 0x0001] = true := by decide +kernel
/-- `ldi r16,$FF` -/
theorem test_ldi : stepsTo 16 0xEF0F [.sreg 0x03, .reg 16 0x00]
    [.sreg 0x03, .reg 16 0xFF, .pc 0x0001] = true := by decide +kernel
/-- `ld r16,X` -/
theorem test_ldX : stepsTo 16 0x910C [.reg 26 0x00, .reg 27 0x01, .mem 0x0100 0xAA]
    [.sreg 0x00, .reg 16 0xAA, .reg 26 0x00, .reg 27 0x01, .pc 0x0001] = true := by decide +kernel
/-- `ld r16,X+` -/
theorem test_ldXInc : stepsTo 16 0x910D [.reg 26 0x00, .reg 27 0x01, .mem 0x0100 0xAA]
    [.sreg 0x00, .reg 16 0xAA, .reg 26 0x01, .reg 27 0x01, .pc 0x0001] = true := by decide +kernel
/-- `ld r16,-X` -/
theorem test_ldXDec : stepsTo 16 0x910E [.reg 26 0x00, .reg 27 0x01, .mem 0x00FF 0x99]
    [.sreg 0x00, .reg 16 0x99, .reg 26 0xFF, .reg 27 0x00, .pc 0x0001] = true := by decide +kernel
/-- `ld r0,Y+` -/
theorem test_ldYInc : stepsTo 16 0x9009 [.reg 28 0x01, .reg 29 0x01, .mem 0x0101 0xBB]
    [.sreg 0x00, .reg 0 0xBB, .reg 28 0x02, .reg 29 0x01, .pc 0x0001] = true := by decide +kernel
/-- `ld r0,-Y` -/
theorem test_ldYDec : stepsTo 16 0x900A [.reg 28 0x01, .reg 29 0x01, .mem 0x0100 0xAA]
    [.sreg 0x00, .reg 0 0xAA, .reg 28 0x00, .reg 29 0x01, .pc 0x0001] = true := by decide +kernel
/-- `ld r5,Z+` -/
theorem test_ldZInc : stepsTo 16 0x9051 [.reg 30 0xFF, .reg 31 0x00, .mem 0x00FF 0x99]
    [.sreg 0x00, .reg 5 0x99, .reg 30 0x00, .reg 31 0x01, .pc 0x0001] = true := by decide +kernel
/-- `ld r5,-Z` -/
theorem test_ldZDec : stepsTo 16 0x9052 [.reg 30 0x02, .reg 31 0x01, .mem 0x0101 0xBB]
    [.sreg 0x00, .reg 5 0xBB, .reg 30 0x01, .reg 31 0x01, .pc 0x0001] = true := by decide +kernel
/-- `ldd r16,Y+0` -/
theorem test_lddY : stepsTo 16 0x8108 [.reg 28 0x00, .reg 29 0x01, .mem 0x0100 0xAA]
    [.sreg 0x00, .reg 16 0xAA, .reg 28 0x00, .reg 29 0x01, .pc 0x0001] = true := by decide +kernel
/-- `ldd r16,Z+0` -/
theorem test_lddZ : stepsTo 16 0x8100 [.reg 30 0x00, .reg 31 0x01, .mem 0x0100 0xAA]
    [.sreg 0x00, .reg 16 0xAA, .reg 30 0x00, .reg 31 0x01, .pc 0x0001] = true := by decide +kernel
/-- `lds r16,$0100` -/
theorem test_lds : stepsTo 32 0x1009100 [.mem 0x0100 0xAA]
    [.sreg 0x00, .reg 16 0xAA, .pc 0x0002] = true := by decide +kernel
/-- `st X,r16` -/
theorem test_stX : stepsTo 16 0x930C [.reg 26 0x5F, .reg 27 0x00, .reg 16 0x83]
    [.sreg 0x83, .pc 0x0001] = true := by decide +kernel
/-- `st X+,r16` -/
theorem test_stXInc : stepsTo 16 0x930D [.reg 26 0xFF, .reg 27 0x01, .reg 16 0x5A]
    [.sreg 0x00, .reg 26 0x00, .reg 27 0x02, .mem 0x01FF 0x5A, .pc 0x0001] = true := by decide +kernel
/-- `st -X,r16` -/
theorem test_stXDec : stepsTo 16 0x930E [.reg 26 0x00, .reg 27 0x02, .reg 16 0x5A]
    [.sreg 0x00, .reg 26 0xFF, .reg 27 0x01, .mem 0x01FF 0x5A, .pc 0x0001] = true := by decide +kernel
/-- `st Y+,r1` -/
theorem test_stYInc : stepsTo 16 0x9219 [.reg 28 0x00, .reg 29 0x01, .reg 1 0x5A]
    [.sreg 0x00, .reg 28 0x01, .reg 29 0x01, .mem 0x0100 0x5A, .pc 0x0001] = true := by decide +kernel
/-- `st -Y,r1` -/
theorem test_stYDec : stepsTo 16 0x921A [.reg 28 0x00, .reg 29 0x01, .reg 1 0x5A]
    [.sreg 0x00, .reg 28 0xFF, .reg 29 0x00, .mem 0x00FF 0x5A, .pc 0x0001] = true := by decide +kernel
/-- `st Z+,r1` -/
theorem test_stZInc : stepsTo 16 0x9211 [.reg 30 0x00, .reg 31 0x01, .reg 1 0x5A]
    [.sreg 0x00, .reg 30 0x01, .reg 31 0x01, .mem 0x0100 0x5A, .pc 0x0001] = true := by decide +kernel
/-- `st -Z,r1` -/
theorem test_stZDec : stepsTo 16 0x9212 [.reg 30 0x00, .reg 31 0x01, .reg 1 0x5A]
    [.sreg 0x00, .reg 30 0xFF, .reg 31 0x00, .mem 0x00FF 0x5A, .pc 0x0001] = true := by decide +kernel
/-- `std Y+0,r16` -/
theorem test_stdY : stepsTo 16 0x8308 [.reg 28 0x00, .reg 29 0x01, .reg 16 0x5A]
    [.sreg 0x00, .reg 28 0x00, .reg 29 0x01, .mem 0x0100 0x5A, .pc 0x0001] = true := by decide +kernel
/-- `std Z+0,r16` -/
theorem test_stdZ : stepsTo 16 0x8300 [.reg 30 0x00, .reg 31 0x01, .reg 16 0x5A]
    [.sreg 0x00, .reg 30 0x00, .reg 31 0x01, .mem 0x0100 0x5A, .pc 0x0001] = true := by decide +kernel
/-- `sts $0100,r16` -/
theorem test_sts : stepsTo 32 0x1009300 [.reg 16 0x5A]
    [.sreg 0x00, .mem 0x0100 0x5A, .pc 0x0002] = true := by decide +kernel
/-- `lpm` -/
theorem test_lpm : stepsTo 16 0x95C8 [.reg 30 0x00, .reg 31 0x01, .prog 0x0080 0x3455]
    [.sreg 0x00, .reg 0 0x55, .reg 30 0x00, .reg 31 0x01, .pc 0x0001] = true := by decide +kernel
/-- `lpm r16,Z` -/
theorem test_lpmZ : stepsTo 16 0x9104 [.reg 30 0x02, .reg 31 0x01, .prog 0x0081 0x9ABC]
    [.sreg 0x00, .reg 16 0xBC, .reg 30 0x02, .reg 31 0x01, .pc 0x0001] = true := by decide +kernel
/-- `lpm r16,Z+` -/
theorem test_lpmZInc : stepsTo 16 0x9105 [.reg 30 0x03, .reg 31 0x01, .prog 0x0081 0x9ABC]
    [.sreg 0x00, .reg 16 0x9A, .reg 30 0x04, .reg 31 0x01, .pc 0x0001] = true := by decide +kernel
/-- `elpm` -/
theorem test_elpm : stepsTo 16 0x95D8 [.wide, .reg 30 0x00, .reg 31 0x00, .prog 0x008000 0xBEEF, .pc 0x000000, .rampz 0x01]
    [.sreg 0x00, .reg 0 0xEF, .reg 30 0x00, .reg 31 0x00, .pc 0x000001, .rampz 0x01] = true := by decide +kernel
/-- `elpm r16,Z` -/
theorem test_elpmZ : stepsTo 16 0x9106 [.wide, .reg 30 0x01, .reg 31 0x00, .prog 0x008000 0xBEEF, .pc 0x000000, .rampz 0x01]
    [.sreg 0x00, .reg 16 0xBE, .reg 30 0x01, .reg 31 0x00, .pc 0x000001, .rampz 0x01] = true := by decide +kernel
/-- `elpm r16,Z+` -/
theorem test_elpmZInc : stepsTo 16 0x9103 [.wide, .reg 30 0x01, .reg 31 0x01, .prog 0x010080 0xCAFE, .pc 0x000000, .rampz 0x02]
    [.sreg 0x00, .reg 16 0xCA, .reg 30 0x02, .reg 31 0x01, .pc 0x000001, .rampz 0x02] = true := by decide +kernel
/-- `in r16,$10` -/
theorem test_inIo : stepsTo 16 0xB300 [.mem 0x30 0xA5]
    [.sreg 0x00, .reg 16 0xA5, .pc 0x0001] = true := by decide +kernel
/-- `out $3F,r16` -/
theorem test_outIo : stepsTo 16 0xBF0F [.reg 16 0x81] [.sreg 0x81, .pc 0x0001] = true := by decide +kernel
/-- `push r16` -/
theorem test_push : stepsTo 16 0x930F [.reg 16 0x5A, .sp 0x025F]
    [.sreg 0x00, .mem 0x025F 0x5A, .pc 0x0001, .sp 0x025E] = true := by decide +kernel
/-- `pop r17` -/
theorem test_pop : stepsTo 16 0x911F [.mem 0x025F 0x5A, .sp 0x025E]
    [.sreg 0x00, .reg 17 0x5A, .pc 0x0001, .sp 0x025F] = true := by decide +kernel
/-- `mul r16,r17` -/
theorem test_mul : stepsTo 16 0x9F01 [.sreg 0x01, .reg 16 0x00, .reg 17 0xFF]
    [.sreg 0x02, .reg 1 0x00, .reg 0 0x00, .pc 0x0001] = true := by decide +kernel
/-- `muls r16,r17` -/
theorem test_muls : stepsTo 16 0x201 [.reg 16 0x80, .reg 17 0x7F]
    [.sreg 0x01, .reg 1 0xC0, .reg 0 0x80, .pc 0x0001] = true := by decide +kernel
/-- `mulsu r16,r17` -/
theorem test_mulsu : stepsTo 16 0x301 [.reg 16 0xFF, .reg 17 0xFF]
    [.sreg 0x01, .reg 1 0xFF, .reg 0 0x01, .pc 0x0001] = true := by decide +kernel
/-- `fmul r16,r17` -/
theorem test_fmul : stepsTo 16 0x309 [.sreg 0x01, .reg 16 0x00, .reg 17 0xC0]
    [.sreg 0x02, .reg 1 0x00, .reg 0 0x00, .pc 0x0001] = true := by decide +kernel
/-- `fmuls r16,r17` -/
theorem test_fmuls : stepsTo 16 0x381 [.reg 16 0x80, .reg 17 0x40]
    [.sreg 0x01, .reg 1 0xC0, .reg 0 0x00, .pc 0x0001] = true := by decide +kernel
/-- `fmulsu r16,r17` -/
theorem test_fmulsu : stepsTo 16 0x389 [.reg 16 0x80, .reg 17 0x80]
    [.sreg 0x01, .reg 1 0x80, .reg 0 0x00, .pc 0x0001] = true := by decide +kernel
/-- `nop` -/
theorem test_nop : stepsTo 16 0x0 [.sreg 0xFF, .pc 0x0100] [.sreg 0xFF, .pc 0x0101] = true := by decide +kernel

/-- BREAK without a debugger, WDR, SLEEP: the step of section 2.8. -/
theorem test_brk : stepsTo 16 0x9598 [.pc 0x100, .sreg 0xFF] [.pc 0x101, .sreg 0xFF] = true := by decide +kernel

theorem test_wdr : (nextOf (step (small.withFetchWord 16 0x95A8))).map (fun t => (t.pc, t.events)) =
    some (1, [OutEvent.wdr]) := by decide +kernel

theorem test_sleep : (nextOf (step (small.withFetchWord 16 0x9588))).map (fun t => (t.pc, t.sleeping)) =
    some (1, true) := by decide +kernel

theorem test_sleep_not_enabled :
    (nextOf (step ({ small with sleepEnabled := false }.withFetchWord 16 0x9588))).map (fun t => (t.pc, t.sleeping)) =
      some (1, false) := by decide +kernel

/-- SEI sets `irq_inhibit` when I was 0 (R352). -/
theorem test_sei_inhibits :
    (nextOf (step (small.withFetchWord 16 0x9478))).map (fun t => (t.sreg, t.irqInhibit)) = some (0x80, true) := by
  decide +kernel

/-- R361: the entry of interrupt 1 between `inc r16` and `rjmp`. -/
theorem test_interrupt_entry :
    (nextOf (step { small with
      cfg := { small.cfg with nVectors := 3, ackClears := [1] }, pc := 0x12, sreg := 0x80, pending := [1] })).map
      (fun t => (t.pc, t.sp, t.sreg, t.pending, t.ramByte 0x25F, t.ramByte 0x25E)) =
      some (0x0002, 0x25D, 0x00, [], 0x12, 0x00) := by decide +kernel

/-- The alias rows mean what the instructions mean whose words they are. -/
theorem test_aliases_mean_their_base :
    [Instr.lsl 16, .rol 16, .tst 16, .clr 16, .ser 16, .cbr 16 0x5A, .sbr 16 0x5A, .sec, .sez, .sen, .sev, .ses, .seh,
      .setT, .sei, .clc, .clz, .cln, .clv, .cls, .clh, .clt, .cli, .brcs 3, .brlo 3, .brcc 3, .brsh 3, .breq 3, .brne 3,
      .brmi 3, .brpl 3, .brvs 3, .brvc 3, .brlt 3, .brge 3, .brhs 3, .brhc 3, .brts 3, .brtc 3, .brie 3, .brid 3, .ldY 5,
      .ldZ 5, .stY 5, .stZ 5].all (fun i =>
        [0x55, 0xAA].all (fun f =>
          nextOf (exec i ([Item.reg 16 0xC3, .reg 29 1, .reg 31 1, .mem 0x100 7, .sreg f].foldl put small)) ==
            nextOf (exec i.base ([Item.reg 16 0xC3, .reg 29 1, .reg 31 1, .mem 0x100 7, .sreg f].foldl put small)))) =
      true := by decide +kernel

/-! Faults: the rows of section 2.9. -/

theorem test_fault_illegal_words :
    [0xFFFF, 0x0001, 0x9007, 0x9528, 0x95E8, 0x95D8, 0x9419].all (fun w =>
      faults small.cfg 16 w [] (.illegalEncoding 0x100 (BitVec.ofNat 16 w))) = true := by decide +kernel

theorem test_fault_missing_options :
    faults { small.cfg with hasLpmRd := false } 16 0x9004 [] (.illegalEncoding 0x100 0x9004) = true ∧
    faults { small.cfg with hasMovw := false } 16 0x0180 [] (.illegalEncoding 0x100 0x0180) = true ∧
    faults { small.cfg with hasMul := false } 16 0x9F01 [] (.illegalEncoding 0x100 0x9F01) = true ∧
    faults { small.cfg with hasJmpCall := false } 32 0x1234940C [] (.illegalEncoding 0x100 0x940C) = true := by
  decide +kernel

theorem test_fault_pointer_operands :
    [0x91AD, 0x91BE, 0x93AD, 0x93DA, 0x91E5].all (fun w =>
      faults small.cfg 16 w [.reg 27 1] (.undefinedOperands 0x100 (BitVec.ofNat 16 w))) = true := by decide +kernel

/-- `st -Y,r31` and `ld r26,X` execute. -/
theorem test_pointer_operands_that_execute :
    stepsTo 16 0x93FA [.reg 28 1, .reg 29 1, .reg 31 9] [.mem 0x100 9, .reg 28 0] = true ∧
    stepsTo 16 0x91AC [.reg 27 1, .mem 0x100 0xAA] [.reg 26 0xAA, .reg 27 1] = true := by decide +kernel

theorem test_fault_unmapped :
    faults small.cfg 32 0x03009100 [] (.unmappedAccess 0x300) = true ∧
    faults small.cfg 16 0x930F [.sp 0x300] (.unmappedAccess 0x300) = true ∧
    faults small.cfg 16 0xD010 [.sp 0x260] (.unmappedAccess 0x260) = true ∧
    faults small.cfg 16 0x911F [.sp 0x25F] (.unmappedAccess 0x260) = true := by decide +kernel

theorem test_fault_program_memory :
    faults { small.cfg with flashWords := 0x2000 } 16 0x95C8 [.reg 31 0x40] (.progReadOutOfRange 0x4000) = true ∧
    faults { small.cfg with flashWords := 0x2000 } 16 0x0000 [.pc 0x2000] (.fetchOutOfRange 0x2000) = true ∧
    faults { small.cfg with flashWords := 0x2000 } 16 0x940C [.pc 0x1FFF] (.fetchOutOfRange 0x2000) = true ∧
    faults { small.cfg with flashWords := 0x2000 } 16 0x1301 [.pc 0x1FFF] (.fetchOutOfRange 0x2000) = true := by
  decide +kernel

/-! For every obligation with hypotheses, and for each of its clauses: a state and operands that meet them. -/

theorem witness_ResetAssignsItsRegisters : (0xFFFF : PcWord).toNat < State.reset.cfg.flashWords := by decide

theorem witness_SignFlagIsNegativeXorOverflow :
    flagsOf (.add 0 1) &&& 0b00011100 = 0b00011100 ∧ ∃ t, exec (.add 0 1) small = .next t := ⟨by decide, _, rfl⟩

theorem witness_AddThenAdcAddsWords : (16 : Reg) ≠ 17 ∧ (16 : Reg) ≠ 1 := by decide

theorem witness_Jumps :
    small.cfg.hasJmpCall = true ∧ small.cfg.hasIjmpIcall = true ∧ wide.cfg.hasExtended = true := by decide

theorem witness_CallsWithStackInSram :
    (PushRoom small ∧ small.cfg.hasJmpCall = true ∧ small.cfg.hasIjmpIcall = true) ∧
    PushRoom { wide with sp := 0x62 } ∧ wide.cfg.hasExtended = true := by
  unfold PushRoom InSram
  decide

/-- `Mapped` as a test. -/
def mapped (c : Config) (a : Addr) : Bool :=
  decide (a.toNat < 0x60) || (decide (a.toNat < c.ramStart) && c.extendedIo.contains a.toNat) ||
    (decide (c.ramStart ≤ a.toNat) && decide (a.toNat ≤ c.ramEnd))

theorem mapped_iff (c : Config) (a : Addr) : mapped c a = true ↔ Mapped c a := by simp [mapped, Mapped, or_assoc]

theorem all_mapped {c : Config} {l : List Addr} (h : l.all (mapped c) = true) : ∀ b ∈ l, Mapped c b := fun b hb =>
  (mapped_iff c b).1 (List.all_eq_true.1 h b hb)

theorem first_unmapped {c : Config} {l : List Addr} {a : Addr} (h : l.find? (fun b => !mapped c b) = some a) :
    FirstUnmapped c l a := by
  obtain ⟨ha, before, behind, hl, hb⟩ := List.find?_eq_some_iff_append.1 h
  refine ⟨before, behind, hl, fun b hm => (mapped_iff c b).1 ?_, fun hm => ?_⟩
  · simpa using hb b hm
  · simp [(mapped_iff c a).2 hm] at ha

/-- Every address mapped, in SRAM and through SPH; the first byte of a call unmapped, the second one, and the third. -/
theorem witness_CallsWithStackAnywhere :
    (∀ b ∈ pushAddrs small.cfg (stackBytes small.cfg 0x101) 0x60, Mapped small.cfg b) ∧
    (∀ b ∈ pushAddrs small.cfg (stackBytes small.cfg 0x101) 0x5E, Mapped small.cfg b) ∧
    FirstUnmapped small.cfg (pushAddrs small.cfg (stackBytes small.cfg 0x101) 0x260) 0x260 ∧
    FirstUnmapped small.cfg (pushAddrs small.cfg (stackBytes small.cfg 0x101) 0) 0xFFFF ∧
    FirstUnmapped wide.cfg (pushAddrs wide.cfg (stackBytes wide.cfg 0x101) 1) 0xFFFF ∧
    small.cfg.hasJmpCall = true ∧ small.cfg.hasIjmpIcall = true ∧ wide.cfg.hasExtended = true :=
  ⟨all_mapped (by decide +kernel), all_mapped (by decide +kernel), first_unmapped (by decide +kernel),
    first_unmapped (by decide +kernel), first_unmapped (by decide +kernel), rfl, rfl, rfl⟩

/-- The stack's lowest and highest places, with two bytes and with three; every address mapped; the first byte of a return
unmapped, the second one, and the third. -/
theorem witness_Returns :
    (PopRoom { small with sp := 0x5F } 2 ∧ PopRoom { small with sp := 0x25D } 2 ∧ PopRoom { wide with sp := 0x25C } 3) ∧
    (∀ b ∈ popAddrs small.cfg (returnLength small.cfg) 0x5C, Mapped small.cfg b) ∧
    FirstUnmapped small.cfg (popAddrs small.cfg (returnLength small.cfg) 0x25F) 0x260 ∧
    FirstUnmapped small.cfg (popAddrs small.cfg (returnLength small.cfg) 0x25E) 0x260 ∧
    FirstUnmapped wide.cfg (popAddrs wide.cfg (returnLength wide.cfg) 0x25D) 0x260 := by
  refine ⟨?_, all_mapped (by decide +kernel), first_unmapped (by decide +kernel), first_unmapped (by decide +kernel),
    first_unmapped (by decide +kernel)⟩
  unfold PopRoom InSram
  decide

theorem witness_CallThenReturn : PushRoom { small with sp := 0x61 } ∧ PushRoom wide := by
  unfold PushRoom InSram
  decide

/-- A next word of program memory, the last one, and a next word outside it. -/
theorem witness_SkipInstructions :
    (∃ w, progWord { small with pc := 0xFFFE } (pcOf small.cfg 0xFFFF) = some w) ∧
    (pcOf small.cfg 0xFFFF).toNat < small.cfg.flashWords ∧
    ({ small.cfg with flashWords := 0x2000 } : Config).flashWords ≤ (pcOf small.cfg 0x2000).toNat :=
  ⟨⟨_, rfl⟩, by decide, by decide⟩

theorem witness_RegisterCopies : small.cfg.hasMovw = true := rfl

/-- Mapped: a register, the last I/O register, both ends of SRAM; not mapped: the address after RAMEND. A data register
outside every pointer, and one outside X only. -/
theorem witness_DataLoads :
    Mapped small.cfg 0 ∧ Mapped small.cfg 0x5F ∧ Mapped small.cfg 0x60 ∧ Mapped small.cfg 0x25F ∧ ¬Mapped small.cfg 0x260 ∧
    (∀ p ∈ [(26 : Reg), 28, 30], (25 : Reg) ≠ p ∧ (25 : Reg) ≠ p + 1) ∧ (28 : Reg) ≠ 26 ∧ (28 : Reg) ≠ 26 + 1 := by
  unfold Mapped
  decide

theorem witness_DataStores :
    Mapped small.cfg 0x1F ∧ Mapped small.cfg 0x20 ∧ Mapped { small.cfg with ramStart := 0x100, extendedIo := [0x60] } 0x60 ∧
    ¬Mapped { small.cfg with ramStart := 0x100, extendedIo := [0x60] } 0x61 ∧ ¬Mapped small.cfg 0xFFFF ∧
    (∀ p ∈ [(26 : Reg), 28, 30], (0 : Reg) ≠ p ∧ (0 : Reg) ≠ p + 1) := by
  unfold Mapped
  decide

theorem witness_PointerAsDataRegister :
    ((26 : Reg) = 26 ∨ (26 : Reg) = 27) ∧ ((29 : Reg) = 28 ∨ (29 : Reg) = 29) ∧ ((31 : Reg) = 30 ∨ (31 : Reg) = 31) ∧
    small.cfg.hasLpmRd = true ∧ wide.cfg.hasExtended = true := by decide

theorem witness_StackOutsideMemoryFaults :
    ¬Mapped small.cfg ({ small with sp := 0x260 } : State).sp ∧ ¬Mapped small.cfg (spOf small.cfg (0x25F + 1)) ∧
    small.cfg.hasJmpCall = true ∧ small.cfg.hasIjmpIcall = true ∧
    ¬Mapped wide.cfg ({ wide with sp := 0x260 } : State).sp ∧ wide.cfg.hasExtended = true := by
  unfold Mapped
  decide

theorem witness_ReadAfterWrite :
    ((0x1F : Addr).toNat < 0x20 ∨ InSram small.cfg (0x1F : Addr).toNat) ∧
    ((0x60 : Addr).toNat < 0x20 ∨ InSram small.cfg (0x60 : Addr).toNat) ∧ (0x60 : Addr) ≠ 0x1F ∧
    ∃ t, memWrite 0x1F 7 small = .ok t := by
  refine ⟨Or.inl (by decide), ?_, by decide, _, rfl⟩
  unfold InSram
  decide

/-- The first byte, the last byte of a small program memory, and the first one outside. -/
theorem witness_ProgramLoads :
    small.cfg.hasLpmRd = true ∧ wide.cfg.hasExtended = true ∧ (5 : Reg) ≠ 30 ∧ (5 : Reg) ≠ 31 ∧
    0 / 2 < small.cfg.flashWords ∧ 0x3FFF / 2 < ({ small.cfg with flashWords := 0x2000 } : Config).flashWords ∧
    ({ small.cfg with flashWords := 0x2000 } : Config).flashWords ≤ 0x4000 / 2 := by decide

theorem witness_ProgramBytesOfWord :
    (∃ w, progWord small 0xFFFF = some w) ∧ small.cfg.flashWords ≤ 0x20000 / 2 := ⟨⟨_, rfl⟩, by decide⟩

/-- SP at RAMEND: a push has room and a pop has not; one lower the pop has too. -/
theorem witness_PushAndPop :
    small.cfg.hasPushPop = true ∧ Mapped small.cfg small.sp ∧ ¬Mapped small.cfg 0x260 ∧
    Mapped small.cfg (spOf small.cfg (0x25E + 1)) ∧ ¬Mapped small.cfg (spOf small.cfg (small.sp.toNat + 1)) := by
  unfold Mapped
  decide

theorem witness_IntegerProducts : small.cfg.hasMul = true := rfl

theorem witness_FractionalProducts : small.cfg.hasMul = true := rfl

theorem witness_SystemInstructions :
    small.cfg.ocdAttached = false ∧ ({ small.cfg with ocdAttached := true } : Config).ocdAttached = true := by decide

theorem witness_MissingOptionIsIllegal :
    small.cfg.hasInstr .elpm = false ∧ ({ small.cfg with hasMul := false } : Config).hasInstr (.mul 0 1) = false ∧
    small.cfg.hasInstr (.mul 0 1) = true ∧ Instr.mul 0 1 ≠ .spm := by decide

theorem witness_FlagsOutsideTheRowStay :
    storesData (.inc 16) = false ∧ (∃ t, exec (.inc 16) small = .next t) ∧ (flagsOf (.inc 16)).getLsbD 0 = false :=
  ⟨by decide, ⟨_, rfl⟩, by decide⟩

/-- An instruction that stores, one that does not, and none of the named ones. -/
theorem witness_SpecialStateFrame :
    (∃ t, exec (.outIo 0x3F 16) small = .next t) ∧ (∃ t, exec (.add 16 17) small = .next t) ∧
    storesData (.add 16 17) = false ∧ Instr.add 16 17 ≠ .sleep ∧ Instr.add 16 17 ≠ .sei ∧ Instr.add 16 17 ≠ .bset 7 ∧
    Instr.add 16 17 ≠ .reti ∧ Instr.add 16 17 ≠ .ret ∧ (∀ d, Instr.add 16 17 ≠ .pop d) ∧
    ∀ d, Instr.add 16 17 ≠ .elpmZInc d :=
  ⟨⟨_, rfl⟩, ⟨_, rfl⟩, by decide, by decide, by decide, by decide, by decide, by decide, by decide, by decide⟩

theorem witness_DecodeOfEncode :
    wellFormed (.fmulsu 23 16) = true ∧ wellFormed (.lsl 31) = true ∧ wellFormed (.call 0x3FFFFF) = true := by decide

theorem witness_EncodeOfDecode : decodeWord 0x95FF 0xFFFF = some (.call 0x3FFFFF) := by decide +kernel

/-- A word of each row of the table of R124. -/
theorem witness_UnassignedWords :
    ((0x00FF : Word) &&& 0xFF00 = 0 ∧ (0x00FF : Word) ≠ 0) ∧ (0x91FB : Word) &&& 0xFE0F = 0x900B ∧
    (0x93FB : Word) &&& 0xFE0F = 0x920B ∧ (0x95FB : Word) &&& 0xFE0F = 0x940B ∧
    ((0x9529 : Word) &&& 0xFE0F = 0x9409 ∧ (0x9529 : Word) ∉ [0x9409#16, 0x9419#16, 0x9509#16, 0x9519#16]) ∧
    (0xFFFF : Word) &&& 0xF808 = 0xF808 := by decide

/-- `small` with one instruction at the program counter. -/
def placed (w : Nat) : State := small.withFetchWord 32 w

/-- A one-word and a two-word instruction, the latter at the end of program memory's addresses. -/
theorem witness_StepRunsTheDecodedInstruction :
    (acceptable (applyEnv (placed 0x0F01)) = none ∧ (begun (placed 0x0F01)).sleeping = false ∧
      (∃ rest, decode (codeBytes (begun (placed 0x0F01))) = .ok (.add 16 17, rest)) ∧
      FetchInside (begun (placed 0x0F01)) (encode (.add 16 17)).length ∧
      (begun (placed 0x0F01)).cfg.hasInstr (.add 16 17) = true ∧ Instr.add 16 17 ≠ .spm) ∧
    decode (codeBytes (begun (placed 0x1234940C))) = .ok (.jmp 0x1234, []) ∧
    FetchInside (begun (placed 0x1234940C)) (encode (.jmp 0x1234)).length := by
  refine ⟨⟨by decide +kernel, by decide +kernel, ⟨[0, 0], by decide +kernel⟩, ?_, by decide +kernel, by decide⟩,
    by decide +kernel, ?_⟩ <;> unfold FetchInside <;> decide +kernel

/-- A program counter just outside program memory; an unassigned word; SPM; a two-word instruction in the last word. -/
theorem witness_FetchFaultsInOrder :
    (acceptable (applyEnv small) = none ∧ (begun small).sleeping = false) ∧
    (let s : State := { small with cfg := { small.cfg with flashWords := 0x2000 }, pc := 0x2000 };
      (begun s).cfg.flashWords ≤ (begun s).pc.toNat) ∧
    (progWord (begun (placed 0xFFFF)) (begun (placed 0xFFFF)).pc = some 0xFFFF ∧ decodeWord 0xFFFF 0 = none) ∧
    decodeWord 0x95E8 0 = some .spm ∧
    (decodeWord 0x95D8 0 = some .elpm ∧ (begun small).cfg.hasInstr .elpm = false) ∧
    (let s : State := { small with cfg := { small.cfg with flashWords := 0x2000 }, pc := 0x1FFF };
      decodeWord 0x940C 0 = some (.jmp 0) ∧ (begun s).cfg.hasInstr (.jmp 0) = true ∧ wordCount 0x940C = 2 ∧
        (begun s).cfg.flashWords ≤ (pcOf (begun s).cfg ((begun s).pc.toNat + 1)).toNat) := by decide +kernel

/-- Requests 2 and 1 pending with I set: 1 is taken; and the last vector alone. -/
theorem witness_InterruptIsAccepted :
    (let s : State := { small with cfg := { small.cfg with nVectors := 3 }, sreg := 0x80, pending := [2, 1] };
      (applyEnv s).flag 7 = true ∧ (applyEnv s).irqInhibit = false ∧ 1 < (applyEnv s).cfg.nVectors ∧
        1 ∈ (applyEnv s).pending ∧ (∀ m, m < 1 → 1 ≤ m → m ∉ (applyEnv s).pending) ∧ PushRoom (applyEnv s)) ∧
    (let s : State := { small with cfg := { small.cfg with nVectors := 3 }, sreg := 0x80, pending := [2] };
      2 < (applyEnv s).cfg.nVectors ∧ 2 ∈ (applyEnv s).pending ∧ ∀ m, m < 2 → 1 ≤ m → m ∉ (applyEnv s).pending) := by
  unfold PushRoom InSram
  decide +kernel

/-- Request 1 pending and enabled, with the stack at `sp`. -/
def asking (sp : Word) : State :=
  { small with cfg := { small.cfg with nVectors := 2 }, sreg := 0x80, pending := [1], sp := sp }

/-- An accepted request, with every address of the stack mapped, and with the second one unmapped. -/
theorem witness_InterruptEntryWithStackAnywhere :
    (∀ sp, applyEnv (asking sp) = asking sp ∧ (asking sp).flag 7 = true ∧ (asking sp).irqInhibit = false ∧
      1 < (asking sp).cfg.nVectors ∧ 1 ∈ (asking sp).pending ∧ ∀ m, 1 ≤ m → m < 1 → m ∉ (asking sp).pending) ∧
    (∀ b ∈ pushAddrs (asking 0x5E).cfg (stackBytes (asking 0x5E).cfg (asking 0x5E).pc) (asking 0x5E).sp,
      Mapped (asking 0x5E).cfg b) ∧
    FirstUnmapped (asking 0).cfg (pushAddrs (asking 0).cfg (stackBytes (asking 0).cfg (asking 0).pc) (asking 0).sp)
      0xFFFF := by
  refine ⟨fun sp => ⟨rfl, ?_, rfl, ?_, ?_, fun m _ _ => by omega⟩, all_mapped (by decide +kernel), first_unmapped ?_⟩
  · show (0x80 : Byte).getLsbD 7 = true
    decide
  · show 1 < 2
    decide
  · show 1 ∈ [1]
    decide
  · decide +kernel

/-- I clear; `irq_inhibit` set; only requests without a vector. -/
theorem witness_InterruptIsHeldOff :
    (applyEnv small).flag 7 = false ∧ (applyEnv { small with irqInhibit := true }).irqInhibit = true ∧
    (∀ n ∈ (applyEnv { small with pending := [0, 1], sreg := 0x80 }).pending,
      n = 0 ∨ (applyEnv { small with pending := [0, 1], sreg := 0x80 }).cfg.nVectors ≤ n) := by decide +kernel

theorem witness_OneInstructionAfterSeiAndReti :
    small.env = [] ∧ small.sleeping = false ∧ (∃ t, exec .sei small = .next t) ∧ (∃ t, exec (.bset 7) small = .next t) ∧
    small.flag 7 = false ∧ ∃ t, exec .reti { small with sp := 0x25D } = .next t :=
  ⟨rfl, rfl, ⟨_, rfl⟩, ⟨_, rfl⟩, by decide, ⟨_, rfl⟩⟩

theorem witness_InterruptThenReturn : PushRoom small ∧ small.pc.toNat < 2 ^ small.cfg.pcBits := by
  unfold PushRoom InSram
  decide

theorem witness_PermanentSleep :
    ({ small with sleeping := true } : State).sleeping = true ∧ ({ small with sleeping := true } : State).Uninterrupted := by
  unfold State.Uninterrupted
  decide

/-- At the reset vector and at the highest address, with I set and no vector. -/
theorem witness_JumpToItself :
    let s : State := { small with pc := 0xFFFF, sreg := 0x80 }.withFetchWord 16 0xCFFF;
    s.sleeping = false ∧ s.irqInhibit = false ∧ s.Uninterrupted ∧ s.pc.toNat < 2 ^ s.cfg.pcBits ∧
      progWord s s.pc = some 0xCFFF := by
  unfold State.Uninterrupted
  decide +kernel

theorem witness_EnvironmentActsBetweenSteps : ({ small with pending := [1, 2] } : State).pending.Nodup := by decide

theorem witness_StepKeepsInvariant : small.Inv ∧ ∃ t, step (placed 0x930F) = .next t := by
  refine ⟨?_, _, rfl⟩
  unfold State.Inv
  decide

theorem witness_ProgramMemoryIsConstant : ∃ t, step (placed 0x0000) = .next t := ⟨_, rfl⟩

theorem witness_EventsAreAppended : ∃ t, step (placed 0xBB07) = .next t := ⟨_, rfl⟩

end Sys2Proof.Tests
end

section
/-! PROOFS. The fetch answers what the bytes at the program counter decode to, and the step runs it (O45). -/

namespace Sys2Proof.Machine

/-! Two-word instructions (R101). -/

/-- A mask with one more bit: that bit of the word is 0 or 1. -/
theorem and_mask_or_bit (w m : Word) (i : Nat) :
    w &&& (m ||| BitVec.twoPow 16 i) = w &&& m ∨
    w &&& (m ||| BitVec.twoPow 16 i) = (w &&& m) ||| BitVec.twoPow 16 i := by
  rw [BitVec.and_or_distrib_left, BitVec.and_twoPow]
  cases w.getLsbD i
  · exact .inl (by simp)
  · exact .inr (by simp)

/-- The four two-word instructions: the pattern of R101 alone, whatever the second word is, decides which. -/
theorem decodeWord_two_words {w : Word} (h : wordCount w = 2) :
    (∀ w2, decodeWord w w2 = some (.jmp (fieldK22 w w2))) ∨ (∀ w2, decodeWord w w2 = some (.call (fieldK22 w w2))) ∨
    (∀ w2, decodeWord w w2 = some (.lds (fieldD w) w2)) ∨ (∀ w2, decodeWord w w2 = some (.sts w2 (fieldD w))) := by
  have fits : ∀ row ∈ opcodeMap, w &&& row.mask = row.pat → ∀ w2, decodeWord w w2 = some (row.make w w2) :=
    fun row hm hw w2 => decodeWord_of_row hm w2 (by simpa [Row.matches] using hw)
  have h : w &&& 0xFE0C = 0x940C ∨ w &&& 0xFC0F = 0x9000 := by
    unfold wordCount at h
    split_ifs at h with h1 h2
    · exact .inl h1
    · exact .inr h2
    · cases h
  rcases h with h | h
  · rcases and_mask_or_bit w 0xFE0C 1 with e | e <;> rw [h] at e
    · exact .inl (fits ⟨0x940C, 0xFE0E, fun w w2 => .jmp (fieldK22 w w2)⟩
        (by simp [opcodeMap, regionAbsolute]) e)
    · exact .inr (.inl (fits ⟨0x940E, 0xFE0E, fun w w2 => .call (fieldK22 w w2)⟩
        (by simp [opcodeMap, regionAbsolute]) e))
  · rcases and_mask_or_bit w 0xFC0F 9 with e | e <;> rw [h] at e
    · exact .inr (.inr (.inl (fits ⟨0x9000, 0xFE0F, fun w w2 => .lds (fieldD w) w2⟩
        (by simp [opcodeMap, regionLoad]) e)))
    · exact .inr (.inr (.inr (fits ⟨0x9200, 0xFE0F, fun w w2 => .sts w2 (fieldD w)⟩
        (by simp [opcodeMap, regionStore]) e)))

/-- The instruction that a two-word pattern decodes to has two words. -/
theorem encode_length_of_two_words {w w2 : Word} {i : Instr} (h : wordCount w = 2) (hd : decodeWord w w2 = some i) :
    (encode i).length = 2 := by
  rcases decodeWord_two_words h with e | e | e | e <;> rw [e, Option.some.injEq] at hd <;> subst hd <;> rfl

/-- The second word plays no part in which options an instruction needs (R103, R125). -/
theorem executable_of_decodeWord {s : State} {w w2 : Word} {i : Instr} (hw2 : wordCount w = 2 ∨ w2 = 0)
    (hd : decodeWord w w2 = some i) (hi : s.cfg.hasInstr i = true) (hs : i ≠ .spm) : executable s w = true := by
  unfold executable
  rcases hw2 with h | rfl
  · rcases decodeWord_two_words h with e | e | e | e <;> rw [e, Option.some.injEq] at hd <;> subst hd <;>
      rw [e] <;> exact Bool.and_eq_true_iff.mpr ⟨hi, rfl⟩
  · rw [hd]
    exact Bool.and_eq_true_iff.mpr ⟨hi, by simpa using hs⟩

/-! The fetch. -/

/-- Four bytes decode to what their two words decode to, the second one 0 where the first announces none (R100, R103). -/
theorem decodeWord_of_decode_four {b0 b1 b2 b3 : Byte} {i : Instr} {rest : List Byte}
    (h : decode [b0, b1, b2, b3] = .ok (i, rest)) :
    decodeWord (wordOfBytes b0 b1) (if wordCount (wordOfBytes b0 b1) = 2 then wordOfBytes b2 b3 else 0) = some i := by
  by_cases hc : wordCount (wordOfBytes b0 b1) = 2
  · rw [if_pos hc]
    cases hd : decodeWord (wordOfBytes b0 b1) (wordOfBytes b2 b3) <;> simp_all [decode, takeWord]
  · rw [if_neg hc]
    cases hd : decodeWord (wordOfBytes b0 b1) 0 <;> simp_all [decode, takeWord]

/-- A word inside program memory (R61, R69). -/
theorem progWord_inside {s : State} {a : PcWord} (h : a.toNat < s.cfg.flashWords) :
    progWord s a = some (wordOfBytes (flashByte s (2 * a.toNat)) (flashByte s (2 * a.toNat + 1))) := if_pos h

/-- The address of the second word, as a number modulo `2^PC_BITS` (R26). -/
theorem State.nextPc_eq (s : State) : s.nextPc = pcOf s.cfg (s.pc.toNat + 1) := wrapPc_add s.cfg s.pc 1

/-- The second word is read only where the first announces one (R101). -/
theorem secondWord_of_inside {s : State} {w : Word}
    (h : wordCount w = 2 → (pcOf s.cfg (s.pc.toNat + 1)).toNat < s.cfg.flashWords) :
    secondWord s w = .ok (if wordCount w = 2 then
      wordOfBytes (flashByte s (2 * (pcOf s.cfg (s.pc.toNat + 1)).toNat))
        (flashByte s (2 * (pcOf s.cfg (s.pc.toNat + 1)).toNat + 1)) else 0) := by
  unfold secondWord
  by_cases hc : wordCount w = 2
  · simp only [hc, if_true, State.nextPc_eq, progWord_inside (h hc)]
  · simp only [hc, if_false]

/-- The fetch answers what the bytes at the program counter decode to (R16, R103, R341). -/
theorem fetchInstr_of_decode {s : State} {i : Instr} {rest : List Byte} (hd : decode (codeBytes s) = .ok (i, rest))
    (hin : FetchInside s (encode i).length) (hi : s.cfg.hasInstr i = true) (hs : i ≠ .spm) :
    fetchInstr s = .ok i := by
  obtain ⟨hfirst, hsecond⟩ := hin
  have hw := decodeWord_of_decode_four hd
  have hword2 := secondWord_of_inside (fun hc => hsecond (encode_length_of_two_words hc hw))
  have hexec := executable_of_decodeWord (s := s) ((em _).imp_right fun hc => if_neg hc) hw hi hs
  unfold fetchInstr
  simp only [progWord_inside hfirst, hexec, if_true, hword2, hw]

/-- A step that accepts no interrupt, of a core that is awake, runs what it fetches (R349). -/
theorem step_of_fetch {s : State} {i : Instr} (ha : acceptable (applyEnv s) = none) (hw : (begun s).sleeping = false)
    (hf : fetchInstr (begun s) = .ok i) : step s = exec i (begun s) := by
  unfold begun at hw hf ⊢
  simp only [step, plan, ha]
  rw [hf, hw]
  rfl

/-- Settles O45: no interrupt is accepted and the core is awake, so the step runs what it fetches; and the fetch answers what
the bytes decode to, because the first word alone fixes the number of words and the option. -/
theorem stepRunsTheDecodedInstruction : Obligations.StepRunsTheDecodedInstruction := by
  intro s i rest ha hw hd hin hi hs
  exact step_of_fetch ha hw (fetchInstr_of_decode hd hin hi hs)

end Sys2Proof.Machine
end

section
/-! PROOFS. What the meaning of each instruction can answer, by one lemma for each shared operation, and from it that only a
missing option and SPM are illegal encodings (O38), and what no instruction outside a short list changes (O40). -/

namespace Sys2Proof.Machine

/-! Frames, as equations: what the equation does not name is as it was. -/

/-- Only working registers, program counter, SREG and the run's own records have changed. -/
def PlainFrame (s t : State) : Prop :=
  t = { s with regs := t.regs, pc := t.pc, sreg := t.sreg, events := t.events, ioDraws := t.ioDraws, cycles := t.cycles }

/-- Beyond a `PlainFrame`, only the stack pointer has changed: the frame of the pops (R28, R30). -/
def PopFrame (s t : State) : Prop :=
  t = { s with regs := t.regs, pc := t.pc, sp := t.sp, sreg := t.sreg, events := t.events, ioDraws := t.ioDraws,
               cycles := t.cycles }

/-- Beyond a `PlainFrame`, only what a write of the data space reaches has changed (R63, R67). -/
def StoreFrame (s t : State) : Prop :=
  t = { s with regs := t.regs, pc := t.pc, sp := t.sp, sreg := t.sreg, rampz := t.rampz, eind := t.eind, ram := t.ram,
               events := t.events, ioDraws := t.ioDraws, cycles := t.cycles }

/-- What `Obligations.SpecialStateFrame` says of an instruction that has taken `s` to `t`. -/
def SpecialStateKept (i : Instr) (s t : State) : Prop :=
  (t.cfg = s.cfg ∧ t.flash = s.flash ∧ t.pending = s.pending ∧ t.sleepEnabled = s.sleepEnabled ∧ t.env = s.env) ∧
  (i ≠ .sleep → t.sleeping = s.sleeping) ∧
  (i ≠ .sei → i ≠ .bset 7 → i ≠ .reti → t.irqInhibit = s.irqInhibit) ∧
  (storesData i = false →
    (∀ a, t.ramByte a = s.ramByte a) ∧ t.eind = s.eind ∧
    (i ≠ .ret → i ≠ .reti → (∀ d, i ≠ .pop d) → t.sp = s.sp) ∧ ((∀ d, i ≠ .elpmZInc d) → t.rampz = s.rampz))

theorem PlainFrame.refl (s : State) : PlainFrame s s := rfl

theorem PlainFrame.trans {s t u : State} (h1 : PlainFrame s t) (h2 : PlainFrame t u) : PlainFrame s u := by
  unfold PlainFrame at h1
  rw [h1] at h2
  exact h2

theorem PlainFrame.advance {s t : State} (h : PlainFrame s t) (words cycles : Nat) :
    PlainFrame s (t.advance words cycles) := h.trans rfl

theorem PlainFrame.setReg (s : State) (d : Reg) (v : Byte) : PlainFrame s (s.setReg d v) := rfl

theorem PlainFrame.setPtr (s : State) (p : Ptr) (v : Addr) : PlainFrame s (s.setPtr p v) := rfl

theorem PlainFrame.pop {s t : State} (h : PlainFrame s t) : PopFrame s t := by
  unfold PlainFrame at h
  rw [h]
  rfl

theorem PlainFrame.store {s t : State} (h : PlainFrame s t) : StoreFrame s t := by
  unfold PlainFrame at h
  rw [h]
  rfl

theorem PopFrame.trans {s t u : State} (h1 : PopFrame s t) (h2 : PopFrame t u) : PopFrame s u := by
  unfold PopFrame at h1
  rw [h1] at h2
  exact h2

theorem StoreFrame.trans {s t u : State} (h1 : StoreFrame s t) (h2 : StoreFrame t u) : StoreFrame s u := by
  unfold StoreFrame at h1
  rw [h1] at h2
  exact h2

theorem ReadsAs.plain {a : Addr} {s t : State} {v : Byte} (h : ReadsAs a s v t) : PlainFrame s t := by
  rw [h.frame]
  rfl

theorem StoredAt.store {a : Addr} {s t : State} {v : Byte} (h : StoredAt a v s t) : StoreFrame s t := by
  rw [h.frame]
  rfl

theorem PlainFrame.kept {i : Instr} {s t : State} (h : PlainFrame s t) : SpecialStateKept i s t := by
  unfold PlainFrame at h
  rw [h]
  exact ⟨⟨rfl, rfl, rfl, rfl, rfl⟩, fun _ => rfl, fun _ _ _ => rfl,
    fun _ => ⟨fun _ => rfl, rfl, fun _ _ _ => rfl, fun _ => rfl⟩⟩

theorem StoreFrame.kept {i : Instr} {s t : State} (hi : storesData i = true) (h : StoreFrame s t) :
    SpecialStateKept i s t := by
  unfold StoreFrame at h
  rw [h]
  exact ⟨⟨rfl, rfl, rfl, rfl, rfl⟩, fun _ => rfl, fun _ _ _ => rfl, fun hn => absurd (hi.symm.trans hn) (by decide)⟩


/-! What an operation and what a meaning can answer: no illegal encoding, and what is left meets a predicate. -/

/-- An operation that may fault answers a value that meets `P`, or a fault other than IllegalEncoding. -/
def AccessWithin {α : Type} (P : α → Prop) : Except Fault α → Prop
  | .ok a => P a
  | .error f => ∀ pc w, f ≠ .illegalEncoding pc w

/-- A meaning answers a next state that meets `P`, a fault other than IllegalEncoding, or a refusal. -/
def ResultWithin (P : State → Prop) : Result → Prop
  | .next t => P t
  | .fault f => ∀ pc w, f ≠ .illegalEncoding pc w
  | .refused _ => True

theorem AccessWithin.mono {α : Type} {P Q : α → Prop} {x : Except Fault α} (h : AccessWithin P x)
    (hpq : ∀ a, P a → Q a) : AccessWithin Q x := by
  cases x with
  | ok a => exact hpq a h
  | error f => exact h

theorem AccessWithin.cases {α : Type} {P : α → Prop} {x : Except Fault α} (h : AccessWithin P x) :
    (∃ f, x = .error f ∧ ∀ pc w, f ≠ .illegalEncoding pc w) ∨ ∃ a, x = .ok a ∧ P a := by
  cases x with
  | ok a => exact .inr ⟨a, rfl, h⟩
  | error f => exact .inl ⟨f, rfl, h⟩

theorem ResultWithin.mono {P Q : State → Prop} {r : Result} (h : ResultWithin P r) (hpq : ∀ t, P t → Q t) :
    ResultWithin Q r := by
  cases r with
  | next t => exact hpq t h
  | fault f => exact h
  | refused _ => trivial

theorem memRead_within (a : Addr) (s : State) : AccessWithin (fun p => PlainFrame s p.2) (memRead a s) := by
  by_cases h : Mapped s.cfg a
  · obtain ⟨v, t, e, hr⟩ := memRead_mapped h
    rw [e]
    exact hr.plain
  · rw [memRead_unmapped h]
    exact fun _ _ => Fault.noConfusion

theorem memWrite_within (a : Addr) (v : Byte) (s : State) : AccessWithin (StoreFrame s) (memWrite a v s) := by
  by_cases h : Mapped s.cfg a
  · obtain ⟨t, e, hs⟩ := memWrite_mapped v h
    rw [e]
    exact hs.store
  · rw [memWrite_unmapped v h]
    exact fun _ _ => Fault.noConfusion

theorem push8_within (v : Byte) (s : State) : AccessWithin (StoreFrame s) (push8 v s) := by
  unfold push8
  rcases (memWrite_within s.sp v s).cases with ⟨f, e, hf⟩ | ⟨t, e, ht⟩ <;> rw [e]
  · exact hf
  · exact StoreFrame.trans ht rfl

theorem pushBytes_within (vs : List Byte) (s : State) : AccessWithin (StoreFrame s) (pushBytes vs s) := by
  induction vs generalizing s with
  | nil => exact (rfl : StoreFrame s s)
  | cons v vs ih =>
    unfold pushBytes
    rcases (push8_within v s).cases with ⟨f, e, hf⟩ | ⟨t, e, ht⟩ <;> rw [e]
    · exact hf
    · exact (ih t).mono fun _ => StoreFrame.trans ht

theorem pop8_within (s : State) : AccessWithin (fun p => PopFrame s p.2) (pop8 s) :=
  (memRead_within _ (s.setSp (s.sp + 1))).mono fun _ h =>
    PopFrame.trans (t := s.setSp (s.sp + 1)) rfl h.pop

theorem popWord_within (s : State) : AccessWithin (fun p => PopFrame s p.2) (popWord s) := by
  unfold popWord
  rcases (pop8_within s).cases with ⟨f, e, hf⟩ | ⟨p, e, hp⟩ <;> rw [e]
  · exact hf
  · simp only
    rcases (pop8_within p.2).cases with ⟨f, e, hf⟩ | ⟨q, e, hq⟩ <;> rw [e]
    · exact hf
    · exact hp.trans hq

theorem popPc_within (s : State) : AccessWithin (fun p => PopFrame s p.2) (popPc s) := by
  unfold popPc
  cases s.cfg.pcWidth with
  | pc16 =>
    rcases (popWord_within s).cases with ⟨f, e, hf⟩ | ⟨p, e, hp⟩ <;> rw [e]
    · exact hf
    · exact hp
  | pc22 =>
    rcases (pop8_within s).cases with ⟨f, e, hf⟩ | ⟨p, e, hp⟩ <;> rw [e]
    · exact hf
    · simp only
      rcases (popWord_within p.2).cases with ⟨f, e, hf⟩ | ⟨q, e, hq⟩ <;> rw [e]
      · exact hf
      · exact hp.trans hq

/-! The shared operations of the meanings. -/

/-- An operation, then the rest of the meaning. -/
theorem finish_within {P Q : State → Prop} {x : Except Fault State} {k : State → State} (h : AccessWithin P x)
    (hk : ∀ t, P t → Q (k t)) : ResultWithin Q (finish x k) := by
  rcases h.cases with ⟨f, rfl, hf⟩ | ⟨t, rfl, ht⟩
  · exact hf
  · exact hk t ht

/-- Where the member has the option, an optional instruction has its meaning (R125). -/
theorem ifPresent_within {P : State → Prop} {i : Instr} {s : State} {r : Result} (hi : s.cfg.hasInstr i = true)
    (h : ResultWithin P r) : ResultWithin P (ifPresent i s r) := by
  rw [ifPresent, if_pos hi]
  exact h

/-- The stop of R264 is no illegal encoding. -/
theorem ifDisjoint_within {P : State → Prop} {p : Ptr} {d : Reg} {i : Instr} {s : State} {r : Result}
    (h : ResultWithin P r) : ResultWithin P (ifDisjoint p d i s r) := by
  unfold ifDisjoint
  split
  · exact fun _ _ => Fault.noConfusion
  · exact h

theorem branchIf_within (cond : Bool) (k : BitVec 7) (s : State) : ResultWithin (PlainFrame s) (branchIf cond k s) := by
  cases cond
  · exact (rfl : PlainFrame s (s.advance 1 1))
  · exact (rfl : PlainFrame s (s.jump (relTarget s k) 2))

/-- A skip in a state that is `s` but for the read it rests on. -/
theorem skip_within (cond : Bool) {s t : State} (h : PlainFrame s t) : ResultWithin (PlainFrame s) (skip cond t) := by
  rw [skip_eq]
  cases cond
  · exact h.trans rfl
  · cases progWord t (pcOf t.cfg (t.pc.toNat + 1))
    · exact fun _ _ => Fault.noConfusion
    · exact h.trans rfl

/-- Every flag but I: `irq_inhibit` stays (R200, R352). -/
theorem setFlag_within {n : Nat} (hn : n ≠ 7) (s : State) : ResultWithin (PlainFrame s) (setFlag n s) := by
  have h : (s.irqInhibit || (n == bitI && !s.flag bitI)) = s.irqInhibit := by simp [bitI, hn]
  unfold setFlag
  rw [h]
  exact rfl

theorem loadByte_within (d : Reg) (a : Addr) (words : Nat) {upd : State → State} (hu : ∀ t, PlainFrame t (upd t))
    (s : State) : ResultWithin (PlainFrame s) (loadByte d a words upd s) := by
  unfold loadByte
  rcases (memRead_within a s).cases with ⟨f, e, hf⟩ | ⟨p, e, hp⟩ <;> rw [e]
  · exact hf
  · exact hp.trans (((PlainFrame.setReg p.2 d p.1).trans (hu _)).advance words 2)

theorem storeByte_within (r : Reg) (a : Addr) (words : Nat) {upd : State → State} (hu : ∀ t, PlainFrame t (upd t))
    (s : State) : ResultWithin (StoreFrame s) (storeByte r a words upd s) :=
  finish_within (memWrite_within a (s.reg r) s) fun t h =>
    h.trans ((hu t).advance words 2).store

theorem loadInc_within (p : Ptr) (d : Reg) (i : Instr) (s : State) : ResultWithin (PlainFrame s) (loadInc p d i s) :=
  ifDisjoint_within (loadByte_within _ _ _ (fun t => .setPtr t p _) s)

theorem loadDec_within (p : Ptr) (d : Reg) (i : Instr) (s : State) : ResultWithin (PlainFrame s) (loadDec p d i s) :=
  ifDisjoint_within (loadByte_within _ _ _ (fun t => .setPtr t p _) s)

theorem storeInc_within (p : Ptr) (r : Reg) (i : Instr) (s : State) : ResultWithin (StoreFrame s) (storeInc p r i s) :=
  ifDisjoint_within (storeByte_within _ _ _ (fun t => .setPtr t p _) s)

theorem storeDec_within (p : Ptr) (r : Reg) (i : Instr) (s : State) : ResultWithin (StoreFrame s) (storeDec p r i s) :=
  ifDisjoint_within (storeByte_within _ _ _ (fun t => .setPtr t p _) s)

/-- A load from program memory, by what its last part keeps (R290). -/
theorem loadProg_within {P : State → Prop} {d : Reg} {b : Nat} {upd : State → State} {s : State}
    (h : ∀ v, P ((upd (s.setReg d v)).advance 1 3)) : ResultWithin P (loadProg d b upd s) := by
  unfold loadProg progByte
  split_ifs
  · exact h _
  · exact fun _ _ => Fault.noConfusion

theorem modifyIo_within (a : BitVec 5) (f : Byte → Byte) (s : State) : ResultWithin (StoreFrame s) (modifyIo a f s) :=
  ((ioRead_reads _ s).plain.store.trans (ioWrite_stored _ _ _).store).trans rfl

theorem callTo_within (ra target : PcWord) (n16 n22 : Nat) (s : State) :
    ResultWithin (StoreFrame s) (callTo ra target n16 n22 s) :=
  finish_within (pushBytes_within _ s) fun _ h => h.trans rfl

theorem returnWith_within {P : State → Prop} {fin : State → State} {s : State} (h : ∀ t, PopFrame s t → P (fin t)) :
    ResultWithin P (returnWith fin s) := by
  unfold returnWith
  rcases (popPc_within s).cases with ⟨f, e, hf⟩ | ⟨p, e, hp⟩ <;> rw [e]
  · exact hf
  · exact h _ (hp.trans rfl)

/-! The meanings. -/

theorem ResultWithin.keptPlain {i : Instr} {s : State} {r : Result} (h : ResultWithin (PlainFrame s) r) :
    ResultWithin (SpecialStateKept i s) r := h.mono fun _ => PlainFrame.kept

theorem ResultWithin.keptStore {i : Instr} {s : State} {r : Result} (h : ResultWithin (StoreFrame s) r)
    (hi : storesData i = true) : ResultWithin (SpecialStateKept i s) r := h.mono fun _ => StoreFrame.kept hi

/-- BSET may set `irq_inhibit` when its flag is I (R200, R352). -/
theorem execBset_within (b : BitVec 3) (s : State) : ResultWithin (SpecialStateKept (.bset b) s) (execBset b s) := by
  by_cases hb : b = 7
  · subst hb
    exact ⟨⟨rfl, rfl, rfl, rfl, rfl⟩, fun _ => rfl, fun _ h => absurd rfl h,
      fun _ => ⟨fun _ => rfl, rfl, fun _ _ _ => rfl, fun _ => rfl⟩⟩
  · exact .keptPlain (setFlag_within (fun h => hb (BitVec.eq_of_toNat_eq h)) s)

/-- What a POP leaves; the stack pointer is not claimed (R303). -/
theorem execPop_within {d : Reg} {s : State} (hi : s.cfg.hasInstr (.pop d) = true) :
    ResultWithin (SpecialStateKept (.pop d) s) (execPop d s) := by
  refine ifPresent_within hi ?_
  rcases (pop8_within s).cases with ⟨f, e, hf⟩ | ⟨p, e, hp⟩ <;> rw [e]
  · exact hf
  · unfold PopFrame at hp
    show SpecialStateKept _ _ ((p.2.setReg d p.1).advance 1 2)
    rw [hp]
    exact ⟨⟨rfl, rfl, rfl, rfl, rfl⟩, fun _ => rfl, fun _ _ _ => rfl,
      fun _ => ⟨fun _ => rfl, rfl, fun _ _ h => absurd rfl (h d), fun _ => rfl⟩⟩

theorem execRet_within (s : State) : ResultWithin (SpecialStateKept .ret s) (execRet s) := by
  refine returnWith_within fun t h => ?_
  unfold PopFrame at h
  rw [h]
  exact ⟨⟨rfl, rfl, rfl, rfl, rfl⟩, fun _ => rfl, fun _ _ _ => rfl,
    fun _ => ⟨fun _ => rfl, rfl, fun h => absurd rfl h, fun _ => rfl⟩⟩

theorem execReti_within (s : State) : ResultWithin (SpecialStateKept .reti s) (execReti s) := by
  unfold execReti returnFromInterrupt
  refine returnWith_within fun t h => ?_
  unfold PopFrame at h
  rw [h]
  exact ⟨⟨rfl, rfl, rfl, rfl, rfl⟩, fun _ => rfl, fun _ _ h => absurd rfl h,
    fun _ => ⟨fun _ => rfl, rfl, fun _ h => absurd rfl h, fun _ => rfl⟩⟩

theorem execElpmZInc_within {d : Reg} {s : State} (hi : s.cfg.hasInstr (.elpmZInc d) = true) :
    ResultWithin (SpecialStateKept (.elpmZInc d) s) (execElpmZInc d s) :=
  ifPresent_within hi (ifDisjoint_within (loadProg_within fun _ =>
    ⟨⟨rfl, rfl, rfl, rfl, rfl⟩, fun _ => rfl, fun _ _ _ => rfl,
      fun _ => ⟨fun _ => rfl, rfl, fun _ _ _ => rfl, fun h => absurd rfl (h d)⟩⟩))

theorem execSei_within (s : State) : ResultWithin (SpecialStateKept .sei s) (execSei s) :=
  ⟨⟨rfl, rfl, rfl, rfl, rfl⟩, fun _ => rfl, fun h => absurd rfl h,
    fun _ => ⟨fun _ => rfl, rfl, fun _ _ _ => rfl, fun _ => rfl⟩⟩

theorem execSleep_within (s : State) : ResultWithin (SpecialStateKept .sleep s) (execSleep s) :=
  ⟨⟨rfl, rfl, rfl, rfl, rfl⟩, fun h => absurd rfl h, fun _ _ _ => rfl,
    fun _ => ⟨fun _ => rfl, rfl, fun _ _ _ => rfl, fun _ => rfl⟩⟩

/-- BREAK stops or is NOP (R331). -/
theorem execBrk_within (s : State) : ResultWithin (PlainFrame s) (execBrk s) := by
  unfold execBrk
  split
  · trivial
  · exact rfl

/-- What an instruction that the member has can answer: its next state keeps the special state, and its fault is no illegal
encoding. The cases go by the shared operation of the meaning, the instructions named in `SpecialStateKept` last; a meaning
that is a single updated state meets its frame's equation by computation. -/
theorem exec_within {i : Instr} {s : State} (hi : s.cfg.hasInstr i = true) (hs : i ≠ .spm) :
    ResultWithin (SpecialStateKept i s) (exec i s) := by
  cases i with
  | add | adc | adiw | sub | subi | sbc | sbci | sbiw | inc | dec | neg | com | cp | cpc | cpi | and | andi | or | ori
  | eor | asr | lsr | ror | swap | bld | bst | bclr | rjmp | mov | ldi | nop | wdr | lsl | rol | tst | clr | ser | cbr | sbr
  | clc | clz | cln | clv | cls | clh | clt | cli => exact .keptPlain rfl
  | jmp | ijmp | eijmp | movw | mul | muls | mulsu | fmul | fmuls | fmulsu => exact .keptPlain (ifPresent_within hi rfl)
  | sec | sez | sen | sev | ses | seh | setT => exact .keptPlain (setFlag_within (by decide) s)
  | brbs | brbc | brcs | brlo | brcc | brsh | breq | brne | brmi | brpl | brvs | brvc | brlt | brge | brhs | brhc | brts
  | brtc | brie | brid => exact .keptPlain (branchIf_within _ _ s)
  | cpse | sbrc | sbrs => exact .keptPlain (skip_within _ rfl)
  | sbic | sbis => exact .keptPlain (skip_within _ (ioRead_reads _ s).plain)
  | ldX | lddY | lddZ | ldY | ldZ | lds => exact .keptPlain (loadByte_within _ _ _ .refl s)
  | ldXInc | ldYInc | ldZInc => exact .keptPlain (loadInc_within _ _ _ s)
  | ldXDec | ldYDec | ldZDec => exact .keptPlain (loadDec_within _ _ _ s)
  | lpm => exact .keptPlain (r := execLpm s) (loadProg_within fun _ => rfl)
  | lpmZ | elpm | elpmZ => exact .keptPlain (ifPresent_within hi (loadProg_within fun _ => rfl))
  | lpmZInc => exact .keptPlain (ifPresent_within hi (ifDisjoint_within (loadProg_within fun _ => rfl)))
  | inIo => exact .keptPlain ((ioRead_reads _ s).plain.trans rfl)
  | brk => exact .keptPlain (execBrk_within s)
  | stX | stdY | stdZ | stY | stZ | sts => exact .keptStore (storeByte_within _ _ _ .refl s) rfl
  | stXInc | stYInc | stZInc => exact .keptStore (storeInc_within _ _ _ s) rfl
  | stXDec | stYDec | stZDec => exact .keptStore (storeDec_within _ _ _ s) rfl
  | outIo => exact .keptStore ((ioWrite_stored _ _ s).store.trans rfl) rfl
  | sbi a b => exact .keptStore (r := execSbi a b s) (modifyIo_within _ _ s) rfl
  | cbi a b => exact .keptStore (r := execCbi a b s) (modifyIo_within _ _ s) rfl
  | push => exact .keptStore (ifPresent_within hi (finish_within (push8_within _ s) fun _ h => h.trans rfl)) rfl
  | rcall => exact .keptStore (callTo_within _ _ _ _ s) rfl
  | call | icall | eicall => exact .keptStore (ifPresent_within hi (callTo_within _ _ _ _ s)) rfl
  | bset b => exact execBset_within b s
  | sei => exact execSei_within s
  | pop => exact execPop_within hi
  | ret => exact execRet_within s
  | reti => exact execReti_within s
  | elpmZInc => exact execElpmZInc_within hi
  | sleep => exact execSleep_within s
  | spm => exact absurd rfl hs

/-! The options. -/

theorem ifPresent_lacking {i : Instr} {s : State} (r : Result) (h : s.cfg.hasInstr i = false) :
    ifPresent i s r = .fault (.illegalEncoding s.pc (firstWord i)) := by
  rw [ifPresent, if_neg (by simp [h])]

/-- A member lacks an instruction when it lacks the option that the instruction needs (R125). -/
theorem Config.hasInstr_eq_false_iff {c : Config} {i : Instr} :
    c.hasInstr i = false ↔ ∃ f, i.option = some f ∧ c.has f = false := by
  unfold Config.hasInstr
  cases i.option <;> simp

/-- The instructions of each option (R6). -/
def InstrOf (i : Instr) : Feature → Prop
  | .jmpCall => ∃ a, i = .jmp a ∨ i = .call a
  | .ijmpIcall => i = .ijmp ∨ i = .icall
  | .movw => ∃ d r, i = .movw d r
  | .mul => ∃ d r, i = .mul d r ∨ i = .muls d r ∨ i = .mulsu d r ∨ i = .fmul d r ∨ i = .fmuls d r ∨ i = .fmulsu d r
  | .lpmRd => ∃ d, i = .lpmZ d ∨ i = .lpmZInc d
  | .pushPop => ∃ d, i = .push d ∨ i = .pop d
  | .spm => i = .spm
  | .extended => i = .eicall ∨ i = .eijmp ∨ i = .elpm ∨ ∃ d, i = .elpmZ d ∨ i = .elpmZInc d

/-- `Instr.option` is the table of R6, read from the option's side. -/
theorem option_eq_some_iff {i : Instr} {f : Feature} : i.option = some f ↔ InstrOf i f := by
  constructor
  · intro h
    cases i with
    | jmp | call | ijmp | icall | movw | mul | muls | mulsu | fmul | fmuls | fmulsu | lpmZ | lpmZInc | push | pop | spm
    | eicall | eijmp | elpm | elpmZ | elpmZInc =>
      obtain rfl := Option.some.inj h
      simp [InstrOf]
    | _ => cases h
  · intro h
    cases f with
    | jmpCall => obtain ⟨a, rfl | rfl⟩ := h <;> rfl
    | ijmpIcall => obtain rfl | rfl := h <;> rfl
    | movw => obtain ⟨d, r, rfl⟩ := h; rfl
    | mul => obtain ⟨d, r, rfl | rfl | rfl | rfl | rfl | rfl⟩ := h <;> rfl
    | lpmRd => obtain ⟨d, rfl | rfl⟩ := h <;> rfl
    | pushPop => obtain ⟨d, rfl | rfl⟩ := h <;> rfl
    | spm => obtain rfl := h; rfl
    | extended => obtain rfl | rfl | rfl | ⟨d, rfl | rfl⟩ := h <;> rfl

/-- The members that lack an instruction, one case an option (R6, R125). -/
theorem hasInstr_eq_false_cases {c : Config} {i : Instr} :
    c.hasInstr i = false ↔
      (c.hasJmpCall = false ∧ InstrOf i .jmpCall) ∨ (c.hasIjmpIcall = false ∧ InstrOf i .ijmpIcall) ∨
      (c.hasMovw = false ∧ InstrOf i .movw) ∨ (c.hasMul = false ∧ InstrOf i .mul) ∨
      (c.hasLpmRd = false ∧ InstrOf i .lpmRd) ∨ (c.hasPushPop = false ∧ InstrOf i .pushPop) ∨
      (c.hasSpm = false ∧ InstrOf i .spm) ∨ (c.hasExtended = false ∧ InstrOf i .extended) := by
  simp only [Config.hasInstr_eq_false_iff, option_eq_some_iff]
  constructor
  · rintro ⟨f, hi, hc⟩
    cases f <;> simp only [Config.has] at hc <;> simp only [hc, hi, and_self, true_or, or_true]
  · rintro (⟨hc, hi⟩ | ⟨hc, hi⟩ | ⟨hc, hi⟩ | ⟨hc, hi⟩ | ⟨hc, hi⟩ | ⟨hc, hi⟩ | ⟨hc, hi⟩ | ⟨hc, hi⟩) <;> exact ⟨_, hi, hc⟩

/-- An instruction whose option the member lacks is an illegal encoding (R125). -/
theorem exec_lacking {i : Instr} {s : State} (h : s.cfg.hasInstr i = false) :
    exec i s = .fault (.illegalEncoding s.pc (firstWord i)) := by
  obtain ⟨f, hf, -⟩ := Config.hasInstr_eq_false_iff.mp h
  cases i with
  | jmp | call | ijmp | icall | movw | mul | muls | mulsu | fmul | fmuls | fmulsu | lpmZ | lpmZInc | push | pop | eicall
  | eijmp | elpm | elpmZ | elpmZInc => exact ifPresent_lacking _ h
  | spm => rfl
  | _ => cases hf

/-- An instruction that goes on is one that the member has, and not SPM (R125, R334). -/
theorem hasInstr_of_exec_next {i : Instr} {s t : State} (h : exec i s = .next t) :
    s.cfg.hasInstr i = true ∧ i ≠ .spm := by
  constructor
  · by_contra hi
    rw [exec_lacking (by simpa using hi)] at h
    cases h
  · rintro rfl
    cases h

/-- Settles O38: the table of options read from the option's side, the option check that every optional instruction's meaning
begins with, and the faults that the shared operations can answer. -/
theorem missingOptionIsIllegal : Obligations.MissingOptionIsIllegal := by
  refine fun i s => ⟨hasInstr_eq_false_cases, exec_lacking, fun hi hs pc w h => ?_⟩
  have hr := exec_within hi hs
  rw [h] at hr
  exact hr pc w rfl

/-- Settles O40: an instruction that goes on is one that the member has, and every such meaning keeps the special state. -/
theorem specialStateFrame : Obligations.SpecialStateFrame := by
  intro i s t h
  obtain ⟨hi, hs⟩ := hasInstr_of_exec_next h
  have hr := exec_within hi hs
  rw [h] at hr
  exact hr

end Sys2Proof.Machine
end

section
/-! PROOFS. The invariant of the machine (O55, O56). The program counter is written anew by every instruction, so a
meaning needs only what the invariant says of the data; the rules of the shared operations are stated for any predicate,
and serve the flags of O39 as well. -/

namespace Sys2Proof.Machine

/-! Rules of the shared operations, for any predicate on the state they leave. -/

/-- What a read of the data space leaves: only the records of the device accesses have changed (R66). -/
def ReadFrame (s t : State) : Prop := t = { s with ioDraws := t.ioDraws, events := t.events }

theorem ReadFrame.sreg {s t : State} (h : ReadFrame s t) : t.sreg = s.sreg := by
  unfold ReadFrame at h
  rw [h]

theorem memRead_readFrame (a : Addr) (s : State) : AccessWithin (fun p => ReadFrame s p.2) (memRead a s) := by
  by_cases h : Mapped s.cfg a
  · obtain ⟨v, t, e, hr⟩ := memRead_mapped h
    rw [e]
    exact hr.frame
  · rw [memRead_unmapped h]
    exact fun _ _ => Fault.noConfusion

theorem ioRead_readFrame (a : BitVec 6) (s : State) : ReadFrame s (ioRead a s).2 := (ioRead_reads a s).frame

theorem ResultWithin.of_next {P : State → Prop} {r : Result} {t : State} (h : ResultWithin P r) (hr : r = .next t) :
    P t := by
  rw [hr] at h
  exact h

theorem loadByte_rule {P : State → Prop} {d : Reg} {a : Addr} {words : Nat} {upd : State → State} {s : State}
    (h : ∀ v t, ReadFrame s t → P ((upd (t.setReg d v)).advance words 2)) :
    ResultWithin P (loadByte d a words upd s) := by
  unfold loadByte
  rcases (memRead_readFrame a s).cases with ⟨f, e, hf⟩ | ⟨p, e, hp⟩ <;> rw [e]
  · exact hf
  · exact h p.1 p.2 hp

theorem branchIf_rule {P : State → Prop} {cond : Bool} {k : BitVec 7} {s : State}
    (htaken : P (s.jump (relTarget s k) 2)) (hnot : P (s.advance 1 1)) : ResultWithin P (branchIf cond k s) := by
  cases cond
  · exact hnot
  · exact htaken

theorem skip_rule {P : State → Prop} {cond : Bool} {s : State} (h : ∀ n, P (s.advance n n)) :
    ResultWithin P (skip cond s) := by
  unfold skip
  cases progWord s s.nextPc with
  | some w => exact h _
  | none =>
    cases cond
    · exact h 1
    · exact fun _ _ => Fault.noConfusion

/-- What each pop keeps, the pop of a return address keeps (R30). -/
theorem popPc_rule {P : State → Prop} (hpop : ∀ s, P s → AccessWithin (fun p => P p.2) (pop8 s)) {s : State}
    (hs : P s) : AccessWithin (fun p => P p.2) (popPc s) := by
  have hword : ∀ s, P s → AccessWithin (fun p => P p.2) (popWord s) := by
    intro s hs
    unfold popWord
    rcases (hpop s hs).cases with ⟨f, e, hf⟩ | ⟨p, e, hp⟩ <;> rw [e]
    · exact hf
    · simp only
      rcases (hpop p.2 hp).cases with ⟨f, e, hf⟩ | ⟨q, e, hq⟩ <;> rw [e]
      · exact hf
      · exact hq
  unfold popPc
  cases s.cfg.pcWidth with
  | pc16 =>
    rcases (hword s hs).cases with ⟨f, e, hf⟩ | ⟨p, e, hp⟩ <;> rw [e]
    · exact hf
    · exact hp
  | pc22 =>
    rcases (hpop s hs).cases with ⟨f, e, hf⟩ | ⟨p, e, hp⟩ <;> rw [e]
    · exact hf
    · simp only
      rcases (hword p.2 hp).cases with ⟨f, e, hf⟩ | ⟨q, e, hq⟩ <;> rw [e]
      · exact hf
      · exact hq

theorem returnWith_rule {P Q : State → Prop} {fin : State → State} {s : State}
    (hpop : ∀ s, P s → AccessWithin (fun p => P p.2) (pop8 s)) (hs : P s)
    (hfin : ∀ t a n, P t → Q (fin (t.jump a n))) : ResultWithin Q (returnWith fin s) := by
  unfold returnWith
  rcases (popPc_rule hpop hs).cases with ⟨f, e, hf⟩ | ⟨p, e, hp⟩ <;> rw [e]
  · exact hf
  · exact hfin _ _ _ hp

theorem execPop_rule {P Q : State → Prop} {d : Reg} {s : State} (hi : s.cfg.hasInstr (.pop d) = true)
    (hpop : AccessWithin (fun p => P p.2) (pop8 s)) (h : ∀ v t, P t → Q ((t.setReg d v).advance 1 2)) :
    ResultWithin Q (execPop d s) := by
  refine ifPresent_within hi ?_
  rcases hpop.cases with ⟨f, e, hf⟩ | ⟨p, e, hp⟩ <;> rw [e]
  · exact hf
  · exact h p.1 p.2 hp

/-- BREAK stops or is NOP (R331). -/
theorem execBrk_rule {P : State → Prop} {s : State} (h : P (s.advance 1 1)) : ResultWithin P (execBrk s) := by
  unfold execBrk
  split
  · trivial
  · exact h

/-! The invariant but for the program counter. -/

/-- The data addresses that `ram` may list: storage registers and SRAM. -/
def RamAddress (c : Config) (n : Nat) : Prop := n ∈ c.ioStorage ∨ (0x60 ≤ n ∧ c.ramStart ≤ n ∧ n ≤ c.ramEnd)

/-- `State.Inv` without its clause on the program counter. -/
def State.DataInv (s : State) : Prop :=
  s.sp.toNat < 2 ^ s.cfg.spBits ∧ Memory.wf ramUnlisted s.ram = true ∧ Memory.wf flashUnlisted s.flash = true ∧
  s.pending.Nodup ∧ ∀ cell ∈ s.ram, cell.1 < 65536 ∧ RamAddress s.cfg cell.1

theorem State.inv_iff {s : State} : s.Inv ↔ s.pc.toNat < 2 ^ s.cfg.pcBits ∧ s.DataInv := Iff.rfl

theorem wrapPc_lt (c : Config) (a : PcWord) : (wrapPc c a).toNat < 2 ^ c.pcBits := by
  have := a.isLt
  unfold wrapPc Config.pcBits
  cases c.pcWidth <;> simp [PcWidth.bits] <;> omega

theorem wrapSp_lt (c : Config) (v : Word) : (wrapSp c v).toNat < 2 ^ c.spBits := by
  have hpos : (0 : Int) < 2 ^ c.spBits := by positivity
  have hlt := Int.emod_lt_of_pos (v.toNat : Int) hpos
  have hle := Int.emod_nonneg (v.toNat : Int) hpos.ne'
  rw [wrapSp_eq, spOf, ← Int.ofNat_lt, BitVec.toNat_ofInt]
  push_cast
  omega

theorem State.DataInv.setSp {s : State} (h : s.DataInv) (v : Word) : (s.setSp v).DataInv :=
  ⟨wrapSp_lt s.cfg v, h.2⟩

theorem State.DataInv.setRam {s : State} (h : s.DataInv) {a : Addr} (ha : RamAddress s.cfg a.toNat) (v : Byte) :
    (s.setRam a v).DataInv := by
  obtain ⟨hsp, hram, hflash, hpending, hcells⟩ := h
  refine ⟨hsp, Memory.wf_write a.toNat v hram, hflash, hpending, fun cell hc => ?_⟩
  rcases Memory.mem_write (show cell ∈ Memory.write ramUnlisted s.ram a.toNat v from hc) with rfl | hc
  · exact ⟨a.isLt, ha⟩
  · exact hcells cell hc

/-- Every write of the program counter fits its width (R26), so going on needs the rest of the invariant only. -/
theorem State.DataInv.jump {s : State} (h : s.DataInv) (a : PcWord) (n : Nat) : (s.jump a n).Inv :=
  ⟨wrapPc_lt s.cfg a, h⟩

theorem State.DataInv.advance {s : State} (h : s.DataInv) (w n : Nat) : (s.advance w n).Inv :=
  h.jump (s.pc + BitVec.ofNat 22 w) n

theorem ReadFrame.dataInv {s t : State} (h : ReadFrame s t) (hs : s.DataInv) : t.DataInv := by
  unfold ReadFrame at h
  rw [h]
  exact hs

/-! Writes of the data space and the stack. -/

theorem coreIoWrite_dataInv {s : State} (h : s.DataInv) (v : Byte) (r : CoreIo) : (coreIoWrite s v r).DataInv := by
  cases r with
  | rampz | eind | sreg => exact h
  | spl | sph => exact h.setSp _

theorem deviceWrite_dataInv {s : State} (h : s.DataInv) (a : Addr) (v : Byte) : (deviceWrite a v s).DataInv := by
  simp only [deviceWrite]
  split
  · rename_i hst
    exact State.DataInv.setRam (s := s.emit (.ioWrite a v)) h (.inl (mem_of_contains.mp hst)) v
  · exact h

theorem ioWrite_dataInv {s : State} (h : s.DataInv) (a : BitVec 6) (v : Byte) : (ioWrite a v s).DataInv := by
  unfold ioWrite
  split
  · exact coreIoWrite_dataInv h v _
  · exact deviceWrite_dataInv h _ v

theorem memWrite_dataInv {s : State} (h : s.DataInv) (a : Addr) (v : Byte) :
    AccessWithin State.DataInv (memWrite a v s) := by
  unfold memWrite
  rcases place_cases s.cfg a with ⟨-, r, -, e⟩ | ⟨-, -, n, -, e⟩ | ⟨-, -, -, e⟩ | ⟨h1, h2, h3, e⟩ | ⟨-, e⟩ <;> rw [e]
  · exact h
  · exact ioWrite_dataInv h n v
  · exact deviceWrite_dataInv h a v
  · exact h.setRam (.inr ⟨h1, h2, h3⟩) v
  · exact fun _ _ => Fault.noConfusion

theorem push8_dataInv {s : State} (h : s.DataInv) (v : Byte) : AccessWithin State.DataInv (push8 v s) := by
  unfold push8
  rcases (memWrite_dataInv h s.sp v).cases with ⟨f, e, hf⟩ | ⟨t, e, ht⟩ <;> rw [e]
  · exact hf
  · exact ht.setSp _

theorem pushBytes_dataInv (vs : List Byte) {s : State} (h : s.DataInv) :
    AccessWithin State.DataInv (pushBytes vs s) := by
  induction vs generalizing s with
  | nil => exact h
  | cons v vs ih =>
    unfold pushBytes
    rcases (push8_dataInv h v).cases with ⟨f, e, hf⟩ | ⟨t, e, ht⟩ <;> rw [e]
    · exact hf
    · exact ih ht

theorem pop8_dataInv {s : State} (h : s.DataInv) : AccessWithin (fun p => p.2.DataInv) (pop8 s) :=
  (memRead_readFrame _ (s.setSp (s.sp + 1))).mono fun _ hr => hr.dataInv (h.setSp _)

/-! The meanings. -/

theorem loadByte_inv {d : Reg} {a : Addr} {words : Nat} {upd : State → State} {s : State} (h : s.DataInv)
    (hu : ∀ t, t.DataInv → (upd t).DataInv) : ResultWithin State.Inv (loadByte d a words upd s) :=
  loadByte_rule fun v t ht => (hu (t.setReg d v) (ht.dataInv h)).advance words 2

theorem loadProg_inv {d : Reg} {b : Nat} {upd : State → State} {s : State} (h : s.DataInv)
    (hu : ∀ t, t.DataInv → (upd t).DataInv) : ResultWithin State.Inv (loadProg d b upd s) :=
  loadProg_within fun v => (hu (s.setReg d v) h).advance 1 3

theorem storeByte_inv {r : Reg} {a : Addr} {words : Nat} {upd : State → State} {s : State} (h : s.DataInv)
    (hu : ∀ t, t.DataInv → (upd t).DataInv) : ResultWithin State.Inv (storeByte r a words upd s) :=
  finish_within (memWrite_dataInv h a (s.reg r)) fun t ht => (hu t ht).advance words 2

theorem callTo_inv {ra target : PcWord} {n16 n22 : Nat} {s : State} (h : s.DataInv) :
    ResultWithin State.Inv (callTo ra target n16 n22 s) :=
  finish_within (pushBytes_dataInv _ h) fun _ ht => ht.jump _ _

theorem returnWith_inv {fin : State → State} {s : State} (h : s.DataInv) (hfin : ∀ t, t.Inv → (fin t).Inv) :
    ResultWithin State.Inv (returnWith fin s) :=
  returnWith_rule (fun _ => pop8_dataInv) h fun _ a n ht => hfin _ (ht.jump a n)

theorem execReti_inv {s : State} (h : s.DataInv) : ResultWithin State.Inv (execReti s) := by
  unfold execReti returnFromInterrupt
  exact returnWith_inv h fun _ ht => ht

/-- An instruction that the member has keeps the invariant. The cases go by the shared operation of the meaning; what a
meaning writes to registers, flags and records plays no part in the invariant. -/
theorem exec_inv {i : Instr} {s : State} (hi : s.cfg.hasInstr i = true) (hs : i ≠ .spm) (h : s.DataInv) :
    ResultWithin State.Inv (exec i s) := by
  cases i with
  | add | adc | adiw | sub | subi | sbc | sbci | sbiw | inc | dec | neg | com | cp | cpc | cpi | and | andi | or | ori
  | eor | asr | lsr | ror | swap | bld | bst | bset | bclr | rjmp | mov | ldi | nop | sleep | wdr | lsl | rol | tst
  | clr | ser | cbr | sbr | sec | sez | sen | sev | ses | seh | setT | sei | clc | clz | cln | clv | cls | clh | clt
  | cli => exact And.intro (wrapPc_lt _ _) h
  | jmp | ijmp | eijmp | movw | mul | muls | mulsu | fmul | fmuls | fmulsu =>
    exact ifPresent_within hi (And.intro (wrapPc_lt _ _) h)
  | brbs | brbc | brcs | brlo | brcc | brsh | breq | brne | brmi | brpl | brvs | brvc | brlt | brge | brhs | brhc | brts
  | brtc | brie | brid => exact branchIf_rule (h.jump _ _) (h.advance 1 1)
  | cpse | sbrc | sbrs => exact skip_rule fun n => h.advance n n
  | sbic | sbis => exact skip_rule fun n => ((ioRead_readFrame _ s).dataInv h).advance n n
  | ldX | lddY | lddZ | ldY | ldZ | lds => exact loadByte_inv h fun _ ht => ht
  | ldXInc | ldYInc | ldZInc | ldXDec | ldYDec | ldZDec => exact ifDisjoint_within (loadByte_inv h fun _ ht => ht)
  | stX | stdY | stdZ | stY | stZ | sts => exact storeByte_inv h fun _ ht => ht
  | stXInc | stYInc | stZInc | stXDec | stYDec | stZDec => exact ifDisjoint_within (storeByte_inv h fun _ ht => ht)
  | lpm => exact loadProg_inv h fun _ ht => ht
  | lpmZ | elpm | elpmZ => exact ifPresent_within hi (loadProg_inv h fun _ ht => ht)
  | lpmZInc | elpmZInc => exact ifPresent_within hi (ifDisjoint_within (loadProg_inv h fun _ ht => ht))
  | inIo d a =>
    have hread := (ioRead_readFrame a s).dataInv h
    exact State.DataInv.advance (s := (ioRead a s).2.setReg d (ioRead a s).1) hread 1 1
  | outIo a r => exact (ioWrite_dataInv h a (s.reg r)).advance 1 1
  | sbi a b => exact (ioWrite_dataInv ((ioRead_readFrame _ s).dataInv h) (a.setWidth 6) _).advance 1 2
  | cbi a b => exact (ioWrite_dataInv ((ioRead_readFrame _ s).dataInv h) (a.setWidth 6) _).advance 1 2
  | push => exact ifPresent_within hi (finish_within (push8_dataInv h _) fun _ ht => ht.advance 1 2)
  | pop d => exact execPop_rule hi (pop8_dataInv h) fun v t ht => State.DataInv.advance (s := t.setReg d v) ht 1 2
  | rcall => exact callTo_inv h
  | call | icall | eicall => exact ifPresent_within hi (callTo_inv h)
  | ret => exact returnWith_inv h fun _ ht => ht
  | reti => exact execReti_inv h
  | brk => exact execBrk_rule (h.advance 1 1)
  | spm => exact absurd rfl hs

/-! The step. -/

theorem State.DataInv.withPending {s : State} (h : s.DataInv) {l : List Nat} (hl : l.Nodup) :
    { s with pending := l }.DataInv := by
  obtain ⟨hsp, hram, hflash, -, hcells⟩ := h
  exact ⟨hsp, hram, hflash, hl, hcells⟩

theorem State.DataInv.nodup {s : State} (h : s.DataInv) : s.pending.Nodup := by
  obtain ⟨-, -, -, hpending, -⟩ := h
  exact hpending

theorem applyEvent_inv {s : State} (h : s.Inv) (e : EnvEvent) : (applyEvent s e).Inv := by
  obtain ⟨hpc, hdata⟩ := State.inv_iff.mp h
  cases e with
  | raise n =>
    simp only [applyEvent]
    split
    · exact h
    · rename_i hn
      exact ⟨hpc, hdata.withPending (List.nodup_cons.mpr ⟨fun hm => hn (mem_of_contains.mpr hm), hdata.nodup⟩)⟩
  | withdraw n => exact ⟨hpc, hdata.withPending (hdata.nodup.erase n)⟩
  | sleepEnabled b => exact h
  | reset => exact ⟨wrapPc_lt s.cfg s.cfg.resetPc, hdata.setSp s.cfg.resetSp⟩

theorem applyEnv_inv {s : State} (h : s.Inv) : (applyEnv s).Inv := by
  unfold applyEnv
  exact List.foldlRecOn _ _ (motive := State.Inv) h fun _ ht e _ => applyEvent_inv ht e

theorem acknowledge_dataInv {s : State} (h : s.DataInv) (n : Nat) : (acknowledge n s).DataInv := by
  simp only [acknowledge]
  split
  · exact State.DataInv.withPending (s := s.emit (.ack n)) h (h.nodup.erase n)
  · exact h

theorem interruptEntry_inv {s : State} (h : s.DataInv) (n : Nat) : ResultWithin State.Inv (interruptEntry n s) :=
  finish_within (pushBytes_dataInv (s := { s with sleeping := false }) _ h) fun t ht =>
    (acknowledge_dataInv (s := t.setSreg (putBit t.sreg bitI false)) ht n).jump _ _

/-- What a step can do: enter an interrupt, do nothing asleep, stop in the fetch, or run an instruction (R349). -/
theorem step_cases (s : State) :
    (∃ n, step s = interruptEntry n (applyEnv s)) ∨ step s = .next (begun s) ∨ (∃ f, step s = .fault f) ∨
    ∃ i, step s = exec i (begun s) := by
  unfold step plan begun
  cases acceptable (applyEnv s) with
  | some n => exact .inl ⟨n, rfl⟩
  | none =>
    simp only
    by_cases hsl : (applyEnv s).sleeping = true
    · exact .inr (.inl (by rw [if_pos hsl]))
    · rw [if_neg hsl]
      cases fetchInstr { applyEnv s with irqInhibit := false } with
      | error f => exact .inr (.inr (.inl ⟨f, rfl⟩))
      | ok i => exact .inr (.inr (.inr ⟨i, rfl⟩))

/-- Settles O55: the environment's actions keep the invariant, and so does each thing that a step can do with the state
they leave. -/
theorem stepKeepsInvariant : Obligations.StepKeepsInvariant := by
  intro s t h hst
  have henv := applyEnv_inv h
  have hbegun : (begun s).Inv := henv
  rcases step_cases s with ⟨n, e⟩ | e | ⟨f, e⟩ | ⟨i, e⟩ <;> rw [e] at hst
  · exact (interruptEntry_inv henv.2 n).of_next hst
  · cases hst
    exact hbegun
  · cases hst
  · obtain ⟨hi, hs⟩ := hasInstr_of_exec_next hst
    exact (exec_inv hi hs hbegun.2).of_next hst

/-- Settles O56: the counters fit, the memories and the requests are empty. -/
theorem resetMeetsInvariant : Obligations.ResetMeetsInvariant :=
  ⟨by decide, by decide, Memory.wf_reset.1, Memory.wf_reset.2, List.nodup_nil, fun _ hc => absurd hc List.not_mem_nil⟩

end Sys2Proof.Machine
end

section
/-! PROOFS. Results and flags of the arithmetic, logic and shift instructions (O2 to O5, O8, O10, O11): each shared
operation of their meanings once, in the words of Safety.lean, with its result as a number. -/

namespace Sys2Proof.Machine

/-! Bytes and words as numbers. -/

theorem add_add_eq_ofNat (a b c : Byte) : a + b + c = BitVec.ofNat 8 (a.toNat + b.toNat + c.toNat) := by
  apply BitVec.eq_of_toNat_eq
  simp [BitVec.toNat_add]

theorem ofInt_sub (w : Nat) (m n : Int) : BitVec.ofInt w (m - n) = BitVec.ofInt w m - BitVec.ofInt w n := by
  rw [Int.sub_eq_add_neg, BitVec.ofInt_add, BitVec.ofInt_neg, BitVec.sub_eq_add_neg]

theorem State.carry_eq (s : State) : s.carry.toNat = (s.flag 0).toNat := by
  rw [State.carry_toNat]
  cases s.flag 0 <;> rfl

theorem State.carry_le (s : State) : s.carry.toNat ≤ 1 := by
  rw [State.carry_eq]
  exact Bool.toNat_le _

/-- The pair of registers is the word that holds its number (R23). -/
theorem State.pair_eq (s : State) (d : Reg) : s.pair d = BitVec.ofNat 16 (s.pairNat d) := by
  rw [State.pair, State.pairNat, ← append_toNat, BitVec.ofNat_toNat, BitVec.setWidth_eq]

/-- A word written to a pair is the number it holds, byte by byte (R23). -/
theorem State.setPair_eq (s : State) (d : Reg) {v : Word} {n : Int} (h : v = BitVec.ofInt 16 n) :
    s.setPair d v = s.withPair d n := by
  have hlow : v.extractLsb' 0 8 = BitVec.ofInt 8 n := by
    rw [sp_low, h]
    apply BitVec.eq_of_toNat_eq
    simp only [BitVec.toNat_ofNat, BitVec.toNat_ofInt]
    omega
  have hhigh : v.extractLsb' 8 8 = BitVec.ofInt 8 (n / 256) := by
    rw [sp_high, h]
    apply BitVec.eq_of_toNat_eq
    simp only [BitVec.toNat_ofNat, BitVec.toNat_ofInt]
    omega
  unfold State.setPair
  rw [hlow, hhigh]
  rfl

/-- A bit written with the value it has. -/
theorem putBit_getLsbD_self {n : Nat} (v : BitVec n) (i : Nat) : putBit v i (v.getLsbD i) = v := by
  refine BitVec.eq_of_getLsbD_eq fun k hk => ?_
  rw [putBit_getLsbD]
  split
  · rename_i h
    rw [h.1]
  · rfl

theorem shiftRight_one_eq (x : Byte) : x >>> 1 = BitVec.ofNat 8 (x.toNat / 2) := by
  apply BitVec.eq_of_toNat_eq
  have := x.isLt
  simp [Nat.shiftRight_eq_div_pow]
  omega

/-- ROR as a number: the carry enters at bit 7 of half the register (R193). -/
theorem putBit_seven_shiftRight (x : Byte) (c : Bool) :
    putBit (x >>> 1) 7 c = BitVec.ofNat 8 (c.toNat * 128 + x.toNat / 2) := by
  have hx := x.isLt
  cases c with
  | false =>
    have h7 : (x >>> 1).getLsbD 7 = false := by simp
    rw [← h7, putBit_getLsbD_self, h7, shiftRight_one_eq]
    simp
  | true =>
    have hor : x.toNat / 2 ||| 128 = 128 + x.toNat / 2 :=
      (Nat.or_comm _ _).trans (Nat.two_pow_add_eq_or_of_lt (i := 7) (by omega) 1).symm
    apply BitVec.eq_of_toNat_eq
    simp [putBit, Nat.shiftRight_eq_div_pow, hor]
    omega

/-! The shared operations, in the words of the claims. -/

theorem writeResult_eq (d : Reg) {v w : Byte} (x : Byte) (s : State) (h : v = w) :
    writeResult d v x s = .next ({ s.withReg d w with sreg := x }.after 1 1) := by
  rw [writeResult, State.advance_eq, h]
  rfl

theorem writeFlags_eq (x : Byte) (s : State) : writeFlags x s = .next ({ s with sreg := x }.after 1 1) := by
  rw [writeFlags, State.advance_eq]
  rfl

theorem writeWord_eq (d : Reg) {v : Word} {n : Int} (x : Byte) (s : State) (h : v = BitVec.ofInt 16 n) :
    writeWord d v x s = .next ({ s.withPair d n with sreg := x }.after 1 2) := by
  rw [writeWord, State.advance_eq, State.setPair_eq s d h]
  rfl

/-- The addition of two bytes and a carry (R40). -/
theorem addTo_eq (d : Reg) (a b c : Byte) (s : State) (hc : c.toNat ≤ 1) :
    addTo d a b c s =
      .next ({ s.withReg d (BitVec.ofNat 8 (a.toNat + b.toNat + c.toNat)) with
        sreg := addSreg s.sreg a b c.toNat }.after 1 1) := by
  rw [addTo, writeResult_eq d _ s (add_add_eq_ofNat a b c), addFlags_eq _ _ _ _ hc]

/-- The subtraction of two bytes, with the difference as a number (R41). -/
theorem subTo_eq (d : Reg) {a b : Byte} {n : Int} (s : State) (h : a - b = BitVec.ofInt 8 n) :
    subTo d a b s = .next ({ s.withReg d (BitVec.ofInt 8 n) with sreg := subSreg s.sreg a b 0 true }.after 1 1) := by
  rw [subTo, writeResult_eq d _ s h, subFlags_eq]

/-- The subtraction of two bytes and the carry flag; Z can only be cleared (R41). -/
theorem subCarryTo_eq (d : Reg) (a b : Byte) (s : State) :
    subCarryTo d a b s =
      .next ({ s.withReg d (BitVec.ofInt 8 (a.toNat - b.toNat - (s.flag 0).toNat)) with
        sreg := subSreg s.sreg a b (s.flag 0).toNat (s.flag 1) }.after 1 1) := by
  have h : a - b - s.carry = BitVec.ofInt 8 (a.toNat - b.toNat - (s.flag 0).toNat) := by
    rw [← State.carry_eq]
    simp [ofInt_sub]
  rw [subCarryTo, writeResult_eq d _ s h, subCarryFlags_eq _ _ _ _ s.carry_le, State.carry_eq]
  rfl

/-- A logic operation with its result in other words (R42). -/
theorem logicTo_eq (d : Reg) {v w : Byte} (s : State) (h : v = w) :
    logicTo d v s = .next ({ s.withReg d w with sreg := logicSreg s.sreg w (s.flag 0) }.after 1 1) := by
  rw [logicTo, writeResult_eq d _ s h, logicFlags_eq, h]
  rfl

/-- A right shift with its result in other words (R43). -/
theorem shiftTo_eq (d : Reg) {v w : Byte} (s : State) (h : v = w) :
    shiftTo d v s =
      .next ({ s.withReg d w with sreg := shiftSreg s.sreg w (decide ((s.reg d).toNat % 2 = 1)) }.after 1 1) := by
  have hbit : (s.reg d).getLsbD 0 = decide ((s.reg d).toNat % 2 = 1) := by
    rw [← BitVec.testBit_toNat, Nat.testBit_zero]
  rw [shiftTo, writeResult_eq d _ s h, shiftFlags_eq, hbit, h]

/-! The classes. -/

/-- Settles O2: LSL and ROL are the additions of a register to itself, and ADD is ADC without a carry. -/
theorem additionClass : Obligations.AdditionClass := by
  intro d r s
  have hplain := fun b : Byte => addTo_eq d (s.reg d) b 0 s (by decide)
  have hcarry := fun b : Byte => addTo_eq d (s.reg d) b s.carry s s.carry_le
  simp only [State.carry_eq] at hcarry
  exact ⟨hplain (s.reg r), hcarry (s.reg r), hplain (s.reg d), hcarry (s.reg d)⟩

/-- Settles O3: the compares write the flags of the subtractions, and NEG is the subtraction from 0. -/
theorem subtractionClass : Obligations.SubtractionClass := by
  intro d r k s
  have hsub : ∀ a b : Byte, a - b = BitVec.ofInt 8 (a.toNat - b.toNat) := fun a b => by simp [ofInt_sub]
  have hneg : 0 - s.reg d = BitVec.ofInt 8 (-(s.reg d).toNat) := by simp [BitVec.ofInt_neg]
  have hcompare : ∀ b : Byte, writeFlags (subFlags s.sreg (s.reg d) b (s.reg d - b)) s =
      .next ({ s with sreg := subSreg s.sreg (s.reg d) b 0 true }.after 1 1) := fun b => by
    rw [writeFlags_eq, subFlags_eq]
  have hcpc : exec (.cpc d r) s =
      .next ({ s with sreg := subSreg s.sreg (s.reg d) (s.reg r) (s.flag 0).toNat (s.flag 1) }.after 1 1) := by
    show writeFlags _ s = _
    rw [writeFlags_eq, subCarryFlags_eq _ _ _ _ s.carry_le, State.carry_eq]
    rfl
  exact ⟨subTo_eq d s (hsub _ _), subTo_eq d s (hsub _ _), subCarryTo_eq d _ _ s, subCarryTo_eq d _ _ s, hcompare _,
    hcpc, hcompare _, subTo_eq d s hneg⟩

/-- Settles O4: the pair and the constant as numbers, and the flag formulas as arithmetic. -/
theorem wordClass : Obligations.WordClass := by
  intro d k s
  have hk : k.setWidth 16 = BitVec.ofNat 16 k.toNat := (BitVec.ofNat_toNat 16 k).symm
  have hadd : s.pair d + k.setWidth 16 = BitVec.ofInt 16 (s.pairNat d + k.toNat) := by
    rw [s.pair_eq, hk, BitVec.ofInt_add, BitVec.ofInt_natCast, BitVec.ofInt_natCast]
  have hsub : s.pair d - k.setWidth 16 = BitVec.ofInt 16 (s.pairNat d - k.toNat) := by
    rw [s.pair_eq, hk, ofInt_sub, BitVec.ofInt_natCast, BitVec.ofInt_natCast]
  constructor
  · show writeWord _ _ _ s = _
    rw [writeWord_eq d _ s hadd, adiwFlags_eq, s.pair_eq]
  · show writeWord _ _ _ s = _
    rw [writeWord_eq d _ s hsub, sbiwFlags_eq, s.pair_eq]

/-- Settles O5: the results as numbers, and the flag formulas as arithmetic. -/
theorem incrementAndDecrement : Obligations.IncrementAndDecrement := by
  intro d s
  have hinc : s.reg d + 1 = BitVec.ofInt 8 ((s.reg d).toNat + 1) := by simp [BitVec.ofInt_add]
  have hdec : s.reg d - 1 = BitVec.ofInt 8 ((s.reg d).toNat - 1) := by simp [ofInt_sub]
  constructor
  · show writeResult _ _ _ s = _
    rw [writeResult_eq d _ s hinc, incFlags_eq]
  · show writeResult _ _ _ s = _
    rw [writeResult_eq d _ s hdec, decFlags_eq]

/-- Settles O10: TST, CLR and CBR in the words of R176 to R178, and COM as the complement to 255. -/
theorem logicClass : Obligations.LogicClass := by
  intro d r k s
  have hcbr : s.reg d &&& (0xFF - k) = s.reg d &&& ~~~k := congrArg _ (BitVec.allOnes_sub_eq_not k)
  have hcom : ~~~(s.reg d) = BitVec.ofNat 8 (255 - (s.reg d).toNat) := by
    apply BitVec.eq_of_toNat_eq
    simp
    omega
  constructor
  · simp only [List.forall_mem_cons, List.not_mem_nil, false_implies, implies_true, and_true]
    exact ⟨logicTo_eq d s rfl, logicTo_eq d s rfl, logicTo_eq d s rfl, logicTo_eq d s rfl, logicTo_eq d s rfl,
      logicTo_eq d s BitVec.and_self, logicTo_eq d s BitVec.xor_self, logicTo_eq d s hcbr, logicTo_eq d s rfl⟩
  · show writeResult _ _ _ s = _
    rw [writeResult_eq d _ s hcom, comFlags_eq, hcom]

/-- Settles O11: the three results as quotients by 2. -/
theorem rightShiftClass : Obligations.RightShiftClass := by
  intro d s
  have hasr : (s.reg d).sshiftRight 1 = BitVec.ofInt 8 ((s.reg d).toInt / 2) := by
    rw [← BitVec.ofInt_toInt (x := (s.reg d).sshiftRight 1), BitVec.toInt_sshiftRight, Int.shiftRight_eq_div_pow]
    rfl
  simp only [List.forall_mem_cons, List.not_mem_nil, false_implies, implies_true, and_true]
  exact ⟨shiftTo_eq d s hasr, shiftTo_eq d s (shiftRight_one_eq _), shiftTo_eq d s (putBit_seven_shiftRight _ _)⟩

/-! Words from bytes. -/

/-- The register, the carry, the overflow and the other registers that an addition leaves (R40). -/
theorem addTo_observed (d : Reg) (a b c : Byte) (s : State) (hc : c.toNat ≤ 1) :
    ∃ t, addTo d a b c s = .next t ∧ (t.reg d).toNat = (a.toNat + b.toNat + c.toNat) % 256 ∧
      t.flag 0 = decide (255 < a.toNat + b.toNat + c.toNat) ∧ t.flag 3 = overflows 8 (a.toInt + b.toInt + c.toNat) ∧
      ∀ q, q ≠ d → t.reg q = s.reg q := by
  obtain ⟨hC, -, -, hV, -⟩ := packSreg_bits _ _ _ _ _ _ _ _
  refine ⟨_, addTo_eq d a b c s hc, ?_, hC, hV, fun q hq => ?_⟩
  · exact (congrArg BitVec.toNat (State.reg_setReg_same s d _)).trans (BitVec.toNat_ofNat _ _)
  · exact (State.reg_setReg s d q _).trans (if_neg hq)

/-- The signed overflow of a sum of words is that of the sum of the high bytes with the carry of the low ones. -/
theorem overflows_word (x y : Int) (m n : Nat) (hm : m < 256) (hn : n < 256) :
    overflows 8 (x + y + (decide (255 < m + n)).toNat) = overflows 16 ((x * 256 + m) + (y * 256 + n)) := by
  apply bool_eq_of_iff
  by_cases h : 255 < m + n <;> simp [overflows, h] <;> omega

/-- Settles O8: the second addition reads its operands and the carry as the first one left them. -/
theorem addThenAdcAddsWords : Obligations.AddThenAdcAddsWords := by
  intro dl dh rl rh s hd hr
  obtain ⟨t, et, tlow, tcarry, -, tother⟩ := addTo_observed dl (s.reg dl) (s.reg rl) 0 s (by decide)
  obtain ⟨u, eu, uhigh, ucarry, uoverflow, uother⟩ := addTo_observed dh (t.reg dh) (t.reg rh) t.carry t t.carry_le
  rw [State.carry_eq, tcarry, tother dh hd.symm, tother rh hr.symm] at uhigh ucarry uoverflow
  have hl := (s.reg dl).isLt
  have hl' := (s.reg rl).isLt
  rw [show (0 : Byte).toNat = 0 from rfl, Nat.add_zero] at tlow uhigh ucarry uoverflow
  refine ⟨t, u, et, eu, ?_, ?_, ?_, fun q hql hqh => (uother q hqh).trans (tother q hql)⟩
  · rw [uother dl hd, uhigh, tlow]
    by_cases h : 255 < (s.reg dl).toNat + (s.reg rl).toNat <;> simp [h] <;> omega
  · rw [ucarry]
    apply bool_eq_of_iff
    by_cases h : 255 < (s.reg dl).toNat + (s.reg rl).toNat <;> simp [h] <;> omega
  · rw [uoverflow]
    exact overflows_word _ _ _ _ hl hl'

end Sys2Proof.Machine
end

section
/-! PROOFS. The stack in pairs: PUSH and POP (O34), and a return address pushed in SRAM and popped again (O22). -/

namespace Sys2Proof.Machine

theorem execPush_eq {r : Reg} {s : State} (hi : s.cfg.hasInstr (.push r) = true) :
    execPush r s = finish (push8 (s.reg r) s) (fun t => t.after 1 2) := by
  simp only [execPush, ifPresent, hi, if_true, State.advance_eq]

theorem execPop_of_ok {d : Reg} {s t : State} {v : Byte} (hi : s.cfg.hasInstr (.pop d) = true)
    (e : pop8 s = .ok (v, t)) : execPop d s = .next ((t.withReg d v).after 1 2) := by
  rw [execPop, ifPresent, if_pos hi, e, ← State.advance_eq]
  rfl

theorem execPop_of_error {d : Reg} {s : State} {f : Fault} (hi : s.cfg.hasInstr (.pop d) = true)
    (e : pop8 s = .error f) : execPop d s = .fault f := by
  rw [execPop, ifPresent, if_pos hi, e]

/-- Settles O34: PUSH is one push and POP one pop, each to an address that holds something or not. -/
theorem pushAndPop : Obligations.PushAndPop := by
  intro d s hp
  refine ⟨fun hm => ?_, fun hm => (execPush_eq hp).trans (by rw [push8_unmapped _ hm, finish]), ?_⟩
  · obtain ⟨u, hu, e⟩ := push8_mapped (s.reg d) hm
    exact ⟨u, hu, (execPush_eq hp).trans (by rw [e, finish])⟩
  · rcases pop8_cases s with ⟨hm, v, t, e, -, -, hr⟩ | ⟨hm, e⟩
    · exact ⟨fun _ => ⟨v, t, hr, execPop_of_ok hp e⟩, fun hn => absurd hm hn⟩
    · exact ⟨fun hn => absurd hn hm, fun _ => execPop_of_error hp e⟩

/-! A pushed return address (R29, R30). -/

theorem ReturnPushed.cfg {ra : PcWord} {s t : State} (h : ReturnPushed ra s t) : t.cfg = s.cfg := by
  obtain ⟨h, -⟩ := h
  rw [h]

/-- The stack pointer below a pushed return address, without wrapping. -/
theorem ReturnPushed.sp {ra : PcWord} {s t : State} (h : ReturnPushed ra s t) (hroom : PushRoom s) :
    (t.sp.toNat : Int) = s.sp.toNat - returnLength s.cfg := by
  obtain ⟨h, -⟩ := h
  obtain ⟨-, ⟨h1, -⟩, -⟩ := hroom
  have hl : 1 ≤ returnLength s.cfg := by unfold returnLength; cases s.cfg.pcWidth <;> decide
  have := s.sp.isLt
  rw [h]
  simp only [BitVec.toNat_ofInt]
  omega

/-- Where a return address has been pushed in SRAM, it can be popped. -/
theorem ReturnPushed.popRoom {ra : PcWord} {s t : State} (h : ReturnPushed ra s t) (hroom : PushRoom s) :
    PopRoom t (returnLength t.cfg) := by
  have hsp := h.sp hroom
  obtain ⟨⟨a1, a2, a3, a4⟩, ⟨b1, b2, b3, b4⟩, c⟩ := hroom
  have hl : 1 ≤ returnLength s.cfg := by unfold returnLength; cases s.cfg.pcWidth <;> decide
  rw [PopRoom, h.cfg]
  refine ⟨⟨?_, ?_, ?_, ?_⟩, ⟨?_, ?_, ?_, ?_⟩, ?_⟩ <;> omega

/-- The byte of a pushed return address at a number above the lowered stack pointer. -/
theorem ReturnPushed.byte {ra : PcWord} {s t : State} (h : ReturnPushed ra s t) (hroom : PushRoom s) {k j : Nat}
    (hkj : k + j = returnLength s.cfg) (hj : 0 < j) :
    (t.ramAt (t.sp.toNat + j)).toNat = ra.toNat / 256 ^ k % 256 := by
  have hsp := h.sp hroom
  obtain ⟨-, hbytes, -⟩ := h
  rw [show (t.sp.toNat : Int) + j = s.sp.toNat - k by omega, hbytes k (by omega), BitVec.toNat_ofNat]

/-- What has been pushed is what the stack holds. -/
theorem ReturnPushed.returnNat_eq {ra : PcWord} {s t : State} (h : ReturnPushed ra s t) (hroom : PushRoom s)
    (hra : ra.toNat < 2 ^ s.cfg.pcBits) : returnNat t = ra.toNat := by
  have hbyte := fun k j => h.byte hroom (k := k) (j := j)
  unfold returnNat
  rw [h.cfg]
  cases hc : s.cfg.pcWidth with
  | pc16 =>
    have h1 := hbyte 1 1 (by simp [returnLength, hc]) (by decide)
    have h2 := hbyte 0 2 (by simp [returnLength, hc]) (by decide)
    simp only [Config.pcBits, hc, PcWidth.bits] at hra
    norm_num at h1 h2 ⊢
    omega
  | pc22 =>
    have h1 := hbyte 2 1 (by simp [returnLength, hc]) (by decide)
    have h2 := hbyte 1 2 (by simp [returnLength, hc]) (by decide)
    have h3 := hbyte 0 3 (by simp [returnLength, hc]) (by decide)
    simp only [Config.pcBits, hc, PcWidth.bits] at hra
    norm_num at h1 h2 h3 ⊢
    omega

theorem wrapPc_wrapPc (c : Config) (a : PcWord) : wrapPc c (wrapPc c a) = wrapPc c a := by
  unfold wrapPc
  cases c.pcWidth <;> simp

/-- Popping a pushed return address gives it back and restores the stack pointer, wherever the program goes
meanwhile. -/
theorem popPc_goTo_of_pushed {ra : PcWord} {s t : State} (h : ReturnPushed ra s t) (hroom : PushRoom s)
    (hra : ra.toNat < 2 ^ s.cfg.pcBits) (n : Int) (cycles : Nat) :
    popPc (t.goTo n cycles) = .ok (ra, { t.goTo n cycles with sp := s.sp }) := by
  have hsp := h.sp hroom
  have hback : BitVec.ofInt 16 ((t.goTo n cycles).sp.toNat + returnLength (t.goTo n cycles).cfg) = s.sp := by
    rw [show ((t.goTo n cycles).sp.toNat : Int) + returnLength (t.goTo n cycles).cfg = s.sp.toNat by
      show (t.sp.toNat : Int) + returnLength t.cfg = _
      rw [h.cfg]
      omega]
    exact ofInt_toNat s.sp
  rw [popPc_sram (show PopRoom (t.goTo n cycles) (returnLength (t.goTo n cycles).cfg) from h.popRoom hroom), hback,
    show returnNat (t.goTo n cycles) = ra.toNat from h.returnNat_eq hroom hra, BitVec.ofNat_toNat,
    BitVec.setWidth_eq]

/-- A call with its return address pushed. -/
theorem callTo_of_pushed {ra target : PcWord} {n16 n22 : Nat} {s t : State} {m : Int} (h : pushPc ra s = .ok t)
    (hm : wrapPc t.cfg target = pcOf t.cfg m) :
    callTo ra target n16 n22 s = .next (t.goTo m (cyclesBy s.cfg n16 n22)) := by
  rw [callTo, h, finish, State.jump_eq _ _ _ _ hm]
  rfl

/-- A return with its return address popped. -/
theorem returnWith_of_popped {fin : State → State} {a : PcWord} {s t : State} (h : popPc s = .ok (a, t)) :
    returnWith fin s = .next (fin (t.goTo a.toNat (cyclesBy s.cfg 4 5))) := by
  rw [returnWith, h]
  simp only
  rw [State.jump_eq _ _ _ _ (wrapPc_eq t.cfg a)]
  rfl

/-- Settles O22: what RCALL pushes in SRAM, RET finds there. -/
theorem callThenReturn : Obligations.CallThenReturn := by
  intro k s hroom
  obtain ⟨t, hpush, ht⟩ := pushPc_sram (wrapPc s.cfg (s.pc + 1)) hroom
  have htarget : wrapPc t.cfg (relTarget s k) = pcOf t.cfg (s.pc.toNat + 1 + k.toInt) := by
    rw [ht.cfg, wrapPc_relTarget s k (by decide)]
  have hpop := popPc_goTo_of_pushed ht hroom (wrapPc_lt _ _) (s.pc.toNat + 1 + k.toInt) (cyclesBy s.cfg 3 4)
  have hpc : pcOf t.cfg (wrapPc s.cfg (s.pc + 1)).toNat = pcOf s.cfg (s.pc.toNat + 1) := by
    rw [ht.cfg, ← wrapPc_eq, wrapPc_wrapPc]
    exact wrapPc_add s.cfg s.pc 1
  obtain ⟨hframe, -, hother⟩ := ht
  have hregs : t.regs = s.regs := by rw [hframe]
  have hsreg : t.sreg = s.sreg := by rw [hframe]
  exact ⟨_, _, callTo_of_pushed hpush htarget, returnWith_of_popped (fin := fun t => t) hpop, hpc, rfl, hregs, hsreg,
    hother⟩

end Sys2Proof.Machine
end

section
/-! PROOFS. The flags over all instructions: an instruction changes the flags of its row only (O39), and one that writes
N and V leaves S = N ^ V (O6). -/

namespace Sys2Proof.Machine

/-! What the flag formulas keep, and how they write S. -/

/-- No flag outside `mask` differs. -/
def KeepsFlags (mask old new : Byte) : Prop := ∀ n, n < 8 → mask.getLsbD n = false → new.getLsbD n = old.getLsbD n

/-- S is N ^ V (R36). -/
def SignAgrees (x : Byte) : Prop := x.getLsbD 4 = (x.getLsbD 2 ^^ x.getLsbD 3)

theorem KeepsFlags.refl (mask x : Byte) : KeepsFlags mask x x := fun _ _ _ => rfl

theorem KeepsFlags.of_eq {mask x y : Byte} (h : y = x) : KeepsFlags mask x y := fun _ _ _ => by rw [h]

theorem KeepsFlags.putBit {mask x y : Byte} (h : KeepsFlags mask x y) {i : Nat} (hi : mask.getLsbD i = true)
    (b : Bool) : KeepsFlags mask x (putBit y i b) := by
  intro n hn hm
  have hne : n ≠ i := fun e => by rw [e, hi] at hm; cases hm
  rw [putBit_getLsbD, if_neg fun hc => hne hc.1]
  exact h n hn hm

theorem keepsFlags_putSVNZ {mask : Byte} (hm : mask &&& 0x1E = 0x1E) (x : Byte) (v n z : Bool) :
    KeepsFlags mask x (putSVNZ x v n z) := by
  have hbit : ∀ i, (0x1E : Byte).getLsbD i = true → mask.getLsbD i = true := fun i hi => by
    rw [← hm, BitVec.getLsbD_and, Bool.and_eq_true] at hi
    exact hi.1
  exact ((((KeepsFlags.refl mask x).putBit (hbit bitS rfl) _).putBit (hbit bitV rfl) _).putBit (hbit bitN rfl) _).putBit
    (hbit bitZ rfl) _

theorem keepsFlags_putSVNZC (x : Byte) (v n z c : Bool) : KeepsFlags 0x1F x (putSVNZC x v n z c) :=
  (keepsFlags_putSVNZ rfl x v n z).putBit rfl c

theorem keepsFlags_putHSVNZC (x : Byte) (h v n z c : Bool) : KeepsFlags 0x3F x (putHSVNZC x h v n z c) :=
  ((keepsFlags_putSVNZ rfl x v n z).putBit rfl c).putBit rfl h

theorem keepsFlags_mulFlags (x : Byte) (r : Word) (c : Bool) : KeepsFlags 0x03 x (mulFlags x r c) :=
  ((KeepsFlags.refl 0x03 x).putBit rfl _).putBit rfl c

/-- BSET and BCLR of a flag, by its number in the mask (R200, R201). -/
theorem keepsFlags_putBit (x : Byte) (i : BitVec 3) (b : Bool) :
    KeepsFlags (1#8 <<< i.toNat) x (putBit x i.toNat b) := by
  refine (KeepsFlags.refl _ x).putBit ?_ b
  have := i.isLt
  simp [BitVec.getLsbD_shiftLeft, -BitVec.getLsbD_eq_getElem, this]

theorem signAgrees_packSreg (i t h v n z c : Bool) : SignAgrees (packSreg i t h (n ^^ v) v n z c) := by
  obtain ⟨-, -, hN, hV, hS, -⟩ := packSreg_bits i t h (n ^^ v) v n z c
  rw [SignAgrees, hS, hN, hV]

theorem signAgrees_putSVNZ (x : Byte) (v n z : Bool) : SignAgrees (putSVNZ x v n z) :=
  putSVNZ_eq x v n z ▸ signAgrees_packSreg _ _ _ _ _ _ _

theorem signAgrees_putSVNZC (x : Byte) (v n z c : Bool) : SignAgrees (putSVNZC x v n z c) :=
  putSVNZC_eq x v n z c ▸ signAgrees_packSreg _ _ _ _ _ _ _

theorem signAgrees_putHSVNZC (x : Byte) (h v n z c : Bool) : SignAgrees (putHSVNZC x h v n z c) :=
  putHSVNZC_eq x h v n z c ▸ signAgrees_packSreg _ _ _ _ _ _ _

/-! The returns. -/

theorem pop8_keeps_sreg {x : Byte} {s : State} (h : s.sreg = x) : AccessWithin (fun p => p.2.sreg = x) (pop8 s) :=
  (memRead_readFrame _ (s.setSp (s.sp + 1))).mono fun _ hr => hr.sreg.trans h

theorem execRet_keepsFlags (s : State) : ResultWithin (fun t => KeepsFlags 0 s.sreg t.sreg) (execRet s) :=
  returnWith_rule (fun _ => pop8_keeps_sreg) rfl fun _ _ _ h => .of_eq h

/-- RETI sets I (R233). -/
theorem execReti_keepsFlags (s : State) : ResultWithin (fun t => KeepsFlags 0x80 s.sreg t.sreg) (execReti s) := by
  unfold execReti returnFromInterrupt
  refine returnWith_rule (P := fun t => t.sreg = s.sreg) (fun _ => pop8_keeps_sreg) rfl fun t a n h => ?_
  exact (KeepsFlags.of_eq h).putBit (i := bitI) rfl true

/-! The meanings. -/

theorem loadByte_keepsFlags {mask : Byte} {d : Reg} {a : Addr} {words : Nat} {upd : State → State} {s : State}
    (hu : ∀ t, (upd t).sreg = t.sreg) :
    ResultWithin (fun t => KeepsFlags mask s.sreg t.sreg) (loadByte d a words upd s) :=
  loadByte_rule fun v t h => .of_eq ((hu (t.setReg d v)).trans h.sreg)

theorem loadProg_keepsFlags {mask : Byte} {d : Reg} {b : Nat} {upd : State → State} {s : State}
    (hu : ∀ t, (upd t).sreg = t.sreg) : ResultWithin (fun t => KeepsFlags mask s.sreg t.sreg) (loadProg d b upd s) :=
  loadProg_within fun v => .of_eq (hu (s.setReg d v))

/-- An instruction that the member has, and that does not write the data space, keeps the flags outside its row. The
cases go by the row of R46, and where it is empty by the shared operation of the meaning. -/
theorem exec_keepsFlags {i : Instr} {s : State} (hi : s.cfg.hasInstr i = true) (hs : i ≠ .spm)
    (hd : storesData i = false) : ResultWithin (fun t => KeepsFlags (flagsOf i) s.sreg t.sreg) (exec i s) := by
  cases i with
  | add | adc | sub | subi | sbc | sbci | cp | cpc | cpi | neg | lsl | rol => exact keepsFlags_putHSVNZC _ _ _ _ _ _
  | adiw | sbiw | asr | ror | lsr | com => exact keepsFlags_putSVNZC _ _ _ _ _
  | inc | dec | and | andi | or | ori | eor | tst | clr | cbr | sbr =>
    exact keepsFlags_putSVNZ (mask := 0x1E) rfl _ _ _ _
  | mul | muls | mulsu | fmul | fmuls | fmulsu => exact ifPresent_within hi (keepsFlags_mulFlags _ _ _)
  | bst => exact keepsFlags_putBit _ 6 _
  | bset b | bclr b => exact keepsFlags_putBit _ b _
  | sec | clc => exact keepsFlags_putBit _ 0 _
  | sez | clz => exact keepsFlags_putBit _ 1 _
  | sen | cln => exact keepsFlags_putBit _ 2 _
  | sev | clv => exact keepsFlags_putBit _ 3 _
  | ses | cls => exact keepsFlags_putBit _ 4 _
  | seh | clh => exact keepsFlags_putBit _ 5 _
  | setT | clt => exact keepsFlags_putBit _ 6 _
  | sei | cli => exact keepsFlags_putBit _ 7 _
  | reti => exact execReti_keepsFlags s
  | swap | bld | rjmp | mov | ldi | ser | nop | sleep | wdr => exact .refl _ s.sreg
  | jmp | ijmp | eijmp | movw => exact ifPresent_within hi (KeepsFlags.refl _ s.sreg)
  | brbs | brbc | brcs | brlo | brcc | brsh | breq | brne | brmi | brpl | brvs | brvc | brlt | brge | brhs | brhc | brts
  | brtc | brie | brid => exact branchIf_rule (KeepsFlags.refl _ s.sreg) (KeepsFlags.refl _ s.sreg)
  | cpse | sbrc | sbrs => exact skip_rule fun _ => KeepsFlags.refl _ s.sreg
  | sbic | sbis => exact skip_rule fun _ => KeepsFlags.of_eq (ioRead_readFrame _ s).sreg
  | ldX | lddY | lddZ | ldY | ldZ | lds => exact loadByte_keepsFlags fun _ => rfl
  | ldXInc | ldYInc | ldZInc | ldXDec | ldYDec | ldZDec => exact ifDisjoint_within (loadByte_keepsFlags fun _ => rfl)
  | lpm => exact loadProg_keepsFlags fun _ => rfl
  | lpmZ | elpm | elpmZ => exact ifPresent_within hi (loadProg_keepsFlags fun _ => rfl)
  | lpmZInc | elpmZInc => exact ifPresent_within hi (ifDisjoint_within (loadProg_keepsFlags fun _ => rfl))
  | inIo d a => exact KeepsFlags.of_eq (ioRead_readFrame a s).sreg
  | pop => exact execPop_rule (P := fun t => t.sreg = s.sreg) hi (pop8_keeps_sreg rfl) fun _ _ ht => .of_eq ht
  | ret => exact execRet_keepsFlags s
  | brk => exact execBrk_rule (KeepsFlags.refl _ s.sreg)
  | spm => exact absurd rfl hs
  | stX | stXInc | stXDec | stYInc | stYDec | stZInc | stZDec | stdY | stdZ | stY | stZ | sts | outIo | sbi | cbi | push
  | rcall | call | icall | eicall => cases hd

/-- Settles O39: an instruction that goes on is one that the member has. -/
theorem flagsOutsideTheRowStay : Obligations.FlagsOutsideTheRowStay := by
  intro i s t n hd h hn hrow
  obtain ⟨hi, hs⟩ := hasInstr_of_exec_next h
  exact (exec_keepsFlags hi hs hd).of_next h n hn hrow

/-- An instruction whose row has S, V and N leaves S = N ^ V: its flag formula writes the three together. -/
theorem exec_signAgrees {i : Instr} {s : State} (hrow : flagsOf i &&& 0x1C = 0x1C) :
    ResultWithin (fun t => SignAgrees t.sreg) (exec i s) := by
  cases i with
  | add | adc | sub | subi | sbc | sbci | cp | cpc | cpi | neg | lsl | rol => exact signAgrees_putHSVNZC _ _ _ _ _ _
  | adiw | sbiw | asr | ror | lsr | com => exact signAgrees_putSVNZC _ _ _ _ _
  | inc | dec | and | andi | or | ori | eor | tst | clr | cbr | sbr => exact signAgrees_putSVNZ _ _ _ _
  | bset b | bclr b => exact absurd hrow (by revert b; decide)
  | _ => exact absurd hrow (by simp [flagsOf])

/-- Settles O6: every flag formula that writes N and V writes S with them. -/
theorem signFlagIsNegativeXorOverflow : Obligations.SignFlagIsNegativeXorOverflow :=
  fun _ _ _ hrow h => (exec_signAgrees hrow).of_next h

end Sys2Proof.Machine
end

section
/-! PROOFS. The calls with the stack anywhere (O20, O29): each call of the claims pushes a return address and
jumps, and an interrupt entry pushes one too. -/

namespace Sys2Proof.Machine

/-! The four calls as one operation, in the words of the claims. -/

theorem ifPresent_of_has {i : Instr} {s : State} {r : Result} (hi : s.cfg.hasInstr i = true) : ifPresent i s r = r :=
  if_pos hi

/-- The target of IJMP and ICALL as a number (R226). -/
theorem wrapPc_zTarget (s : State) : wrapPc s.cfg s.zTarget = pcOf s.cfg (s.pairNat 30) := by
  apply wrapPc_of_emod
  have hh := (s.reg 31).isLt
  have hl := (s.reg 30).isLt
  have hz : s.ptr .z = BitVec.ofNat 16 (s.pairNat 30) := s.pair_eq 30
  have hn : s.pairNat 30 = (s.reg 31).toNat * 256 + (s.reg 30).toNat := rfl
  simp only [State.zTarget, hz, BitVec.toNat_setWidth, BitVec.toNat_ofNat]
  omega

/-- The target of EIJMP and EICALL as a number (R227). -/
theorem wrapPc_extTarget (s : State) :
    wrapPc s.cfg s.extTarget = pcOf s.cfg (s.eind.toNat % 64 * 65536 + s.pairNat 30) := by
  apply wrapPc_of_emod
  have hh := (s.reg 31).isLt
  have hl := (s.reg 30).isLt
  have hz : s.ptr .z = BitVec.ofNat 16 (s.pairNat 30) := s.pair_eq 30
  have hn : s.pairNat 30 = (s.reg 31).toNat * 256 + (s.reg 30).toNat := rfl
  rw [State.extTarget, BitVec.toNat_append, ← Nat.shiftLeft_add_eq_or_of_lt (BitVec.isLt _), Nat.shiftLeft_eq, hz]
  simp only [BitVec.extractLsb'_toNat, BitVec.toNat_ofNat]
  omega

/-- The result `r` of a call at `s` with return address `ra`, wherever the stack is: it goes to `target` behind the
pushes, or it is the fault of the first address that holds nothing (R28, R29, R64, R341). -/
def CallsAnywhere (ra : PcWord) (target : Int) (cycles : Nat) (s : State) (r : Result) : Prop :=
  ((∀ b ∈ pushAddrs s.cfg (stackBytes s.cfg ra) s.sp, Mapped s.cfg b) →
    ∃ t, Pushes (stackBytes s.cfg ra) s t ∧ r = .next (t.goTo target cycles)) ∧
  ∀ b, FirstUnmapped s.cfg (pushAddrs s.cfg (stackBytes s.cfg ra) s.sp) b → r = .fault (.unmappedAccess b)

theorem callTo_anywhere {ra target : PcWord} {n16 n22 : Nat} {s : State} {m : Int}
    (hm : wrapPc s.cfg target = pcOf s.cfg m) :
    CallsAnywhere ra m (cyclesBy s.cfg n16 n22) s (callTo ra target n16 n22 s) := by
  refine ⟨fun h => ?_, fun b h => ?_⟩
  · obtain ⟨t, hpush, hp⟩ := pushPc_mapped ra h
    exact ⟨t, hp, callTo_of_pushed hpush (by rw [hp.cfg, hm])⟩
  · rw [callTo, pushPc_unmapped ra h, finish]

theorem rcall_anywhere (k : BitVec 12) (s : State) :
    CallsAnywhere (pcOf s.cfg (s.pc.toNat + 1)) (s.pc.toNat + 1 + k.toInt) (cyclesBy s.cfg 3 4) s
      (exec (.rcall k) s) := by
  rw [← State.nextPc_eq]
  exact callTo_anywhere (wrapPc_relTarget s k (by decide))

theorem call_anywhere (a : PcWord) {s : State} (hi : s.cfg.hasJmpCall = true) :
    CallsAnywhere (pcOf s.cfg (s.pc.toNat + 2)) a.toNat (cyclesBy s.cfg 4 5) s (exec (.call a) s) := by
  have hra : wrapPc s.cfg (s.pc + 2) = pcOf s.cfg (s.pc.toNat + 2) := wrapPc_add s.cfg s.pc 2
  rw [show exec (.call a) s = callTo (wrapPc s.cfg (s.pc + 2)) a 4 5 s from ifPresent_of_has hi, hra]
  exact callTo_anywhere (wrapPc_eq s.cfg a)

theorem icall_anywhere {s : State} (hi : s.cfg.hasIjmpIcall = true) :
    CallsAnywhere (pcOf s.cfg (s.pc.toNat + 1)) (s.pairNat 30) (cyclesBy s.cfg 3 4) s (exec .icall s) := by
  rw [show exec .icall s = callTo s.nextPc s.zTarget 3 4 s from ifPresent_of_has hi, State.nextPc_eq]
  exact callTo_anywhere (wrapPc_zTarget s)

/-- EICALL takes four cycles with either program counter (R380). -/
theorem eicall_anywhere {s : State} (hi : s.cfg.hasExtended = true) :
    CallsAnywhere (pcOf s.cfg (s.pc.toNat + 1)) (s.eind.toNat % 64 * 65536 + s.pairNat 30) 4 s (exec .eicall s) := by
  have hcycles : cyclesBy s.cfg 4 4 = 4 := by unfold cyclesBy; cases s.cfg.pcWidth <;> rfl
  have h := callTo_anywhere (ra := s.nextPc) (n16 := 4) (n22 := 4) (wrapPc_extTarget s)
  rw [hcycles, State.nextPc_eq] at h
  rwa [show exec .eicall s = callTo s.nextPc s.extTarget 4 4 s from ifPresent_of_has hi, State.nextPc_eq]

/-- Settles O20: each of the four calls pushes its return address and jumps, and a push of several bytes completes or
stops at the first address that holds nothing. -/
theorem callsWithStackAnywhere : Obligations.CallsWithStackAnywhere := by
  intro k a s
  simp only [List.forall_mem_cons, List.not_mem_nil, false_implies, implies_true, and_true]
  exact ⟨fun _ => rcall_anywhere k s, fun hi => call_anywhere a hi, fun hi => icall_anywhere hi,
    fun hi => eicall_anywhere hi⟩

/-! A stack pointer at an address that holds nothing. -/

/-- The first byte of a return address is pushed at SP (R28, R29). -/
theorem firstUnmapped_push {c : Config} {sp : Word} (ra : PcWord) (h : ¬Mapped c sp) :
    FirstUnmapped c (pushAddrs c (stackBytes c ra) sp) sp := by
  rw [← returnBytes_eq]
  unfold returnBytes
  cases c.pcWidth <;> exact firstUnmapped_cons.mpr (.inl ⟨h, rfl⟩)

/-- The first byte of a return address is popped above SP (R28, R30). -/
theorem firstUnmapped_pop {c : Config} {sp : Word} (h : ¬Mapped c (spOf c (sp.toNat + 1))) :
    FirstUnmapped c (popAddrs c (returnLength c) sp) (spOf c (sp.toNat + 1)) := by
  unfold returnLength
  cases c.pcWidth <;> exact firstUnmapped_cons.mpr (.inl ⟨h, rfl⟩)

theorem CallsAnywhere.fault_at_sp {ra : PcWord} {target : Int} {cycles : Nat} {s : State} {r : Result}
    (h : CallsAnywhere ra target cycles s r) (hsp : ¬Mapped s.cfg s.sp) : r = .fault (.unmappedAccess s.sp) := by
  obtain ⟨-, hfault⟩ := h
  exact hfault s.sp (firstUnmapped_push ra hsp)

theorem interruptEntry_fault_at_sp (n : Nat) {s : State} (hsp : ¬Mapped s.cfg s.sp) :
    interruptEntry n s = .fault (.unmappedAccess s.sp) := by
  rw [interruptEntry, pushPc_unmapped (s := { s with sleeping := false }) s.pc (firstUnmapped_push s.pc hsp), finish]

theorem returnWith_fault_above_sp (fin : State → State) {s : State} (h : ¬Mapped s.cfg (spOf s.cfg (s.sp.toNat + 1))) :
    returnWith fin s = .fault (.unmappedAccess (spOf s.cfg (s.sp.toNat + 1))) := by
  rw [returnWith, popPc_unmapped (firstUnmapped_pop h)]

/-- Settles O29: the address at SP is the first one pushed to, the address above it the first one popped from. -/
theorem stackOutsideMemoryFaults : Obligations.StackOutsideMemoryFaults := by
  intro k a n s
  refine ⟨fun hsp => ⟨(rcall_anywhere k s).fault_at_sp hsp, fun hi => (call_anywhere a hi).fault_at_sp hsp,
    fun hi => (icall_anywhere hi).fault_at_sp hsp, fun hi => (eicall_anywhere hi).fault_at_sp hsp,
    interruptEntry_fault_at_sp n hsp⟩, fun hsp => ?_⟩
  have hreti : returnFromInterrupt s = .fault (.unmappedAccess (spOf s.cfg (s.sp.toNat + 1))) := by
    rw [returnFromInterrupt, returnWith_fault_above_sp _ hsp]
  simp only [List.forall_mem_cons, List.not_mem_nil, false_implies, implies_true, and_true]
  exact ⟨returnWith_fault_above_sp (fun t => t) hsp, hreti⟩

end Sys2Proof.Machine
end

section
/-! PROOFS. Memory by address: the I/O space through the data space (O28), registers and SRAM as storage (O30), and the
bytes of program memory (O32). -/

namespace Sys2Proof.Machine

/-! The I/O space. -/

/-- The data address of an I/O register names that register (R63). -/
theorem place_ioData (c : Config) (n : BitVec 6) : place c (ioData n.toNat) = .io n := by
  have hn := n.isLt
  have ht := ioData_toNat n
  rcases place_cases c (ioData n.toNat) with ⟨h, -⟩ | ⟨-, -, m, hm, e⟩ | ⟨h, -⟩ | ⟨h, -⟩ | ⟨h, -⟩
  · omega
  · rw [e, (ioData_eq_iff n m _ rfl).mp hm]
  · omega
  · omega
  · exact absurd (.inl (by omega)) h

theorem memRead_ioData (n : BitVec 6) (s : State) : memRead (ioData n.toNat) s = .ok (ioRead n s) := by
  simp only [memRead, place_ioData]

theorem memWrite_ioData (n : BitVec 6) (v : Byte) (s : State) :
    memWrite (ioData n.toNat) v s = .ok (ioWrite n v s) := by
  simp only [memWrite, place_ioData]

theorem loadByte_of_read {d : Reg} {a : Addr} {words : Nat} {upd : State → State} {s t : State} {v : Byte}
    (h : memRead a s = .ok (v, t)) : loadByte d a words upd s = .next ((upd (t.withReg d v)).after words 2) := by
  rw [loadByte, h]
  exact congrArg _ (State.advance_eq _ _ _)

theorem storeByte_of_write {r : Reg} {a : Addr} {words : Nat} {upd : State → State} {s t : State}
    (h : memWrite a (s.reg r) s = .ok t) : storeByte r a words upd s = .next ((upd t).after words 2) := by
  rw [storeByte, h, finish, State.advance_eq]

/-- Settles O28: the data address A + $20 is the I/O register A, so both pairs make the same access. -/
theorem ioThroughTheDataSpace : Obligations.IoThroughTheDataSpace := by
  refine fun d a s => ⟨⟨(ioRead a s).1, (ioRead a s).2, ?_, ?_⟩, ioWrite a (s.reg d) s, ?_, ?_⟩
  · exact congrArg _ (State.advance_eq _ 1 1)
  · exact loadByte_of_read (upd := fun t => t) (memRead_ioData a s)
  · exact congrArg _ (State.advance_eq _ 1 1)
  · exact storeByte_of_write (upd := fun t => t) (memWrite_ioData a _ s)

/-! Registers and SRAM. -/

/-- The addresses behind which there is storage and nothing else: working registers and SRAM (R63, R74). -/
def PlainAddress (c : Config) (a : Addr) : Prop := a.toNat < 0x20 ∨ InSram c a.toNat

/-- What a plain address holds. -/
def State.plainByte (s : State) (a : Addr) : Byte :=
  if h : a.toNat < 0x20 then s.regs[a.toNat]'(by omega) else s.ramByte a

theorem PlainAddress.cases {c : Config} {a : Addr} (h : PlainAddress c a) :
    (∃ r : Reg, r.val = a.toNat ∧ place c a = .register r) ∨ (0x60 ≤ a.toNat ∧ place c a = .sram) := by
  rcases h with h | h
  · rcases place_cases c a with ⟨-, r, hr, e⟩ | ⟨hio, -⟩ | ⟨hdev, -⟩ | ⟨hsram, -⟩ | ⟨hnone, -⟩
    · exact .inl ⟨r, hr, e⟩
    · omega
    · omega
    · omega
    · exact absurd (.inl (by omega)) hnone
  · have e := place_of_inSram h
    rw [ofInt_toNat] at e
    obtain ⟨h60, -⟩ := h
    exact .inr ⟨by omega, e⟩

theorem State.plainByte_register (s : State) {a : Addr} {r : Reg} (h : r.val = a.toNat) : s.plainByte a = s.reg r := by
  have hlt : a.toNat < 0x20 := h ▸ r.isLt
  simp only [State.plainByte, hlt, dif_pos, State.reg, h]

theorem State.plainByte_sram (s : State) {a : Addr} (h : 0x60 ≤ a.toNat) : s.plainByte a = s.ramByte a :=
  dif_neg (by omega)

/-- A read of a plain address has no side effect (R74). -/
theorem memRead_plain {a : Addr} {s : State} (h : PlainAddress s.cfg a) : memRead a s = .ok (s.plainByte a, s) := by
  rcases h.cases with ⟨r, hr, e⟩ | ⟨h60, e⟩
  · simp only [memRead, e, s.plainByte_register hr]
  · simp only [memRead, e, s.plainByte_sram h60]

/-- A write of a plain address replaces its byte, and no other plain address holds anything else (R74). -/
theorem memWrite_plain {a : Addr} {v : Byte} {s t : State} (ha : PlainAddress s.cfg a) (h : memWrite a v s = .ok t) :
    t.cfg = s.cfg ∧ ∀ b, PlainAddress s.cfg b → t.plainByte b = if b = a then v else s.plainByte b := by
  rcases ha.cases with ⟨r, hr, e⟩ | ⟨h60, e⟩
  · simp only [memWrite, e, Except.ok.injEq] at h
    subst h
    refine ⟨rfl, fun b hb => ?_⟩
    rcases hb.cases with ⟨q, hq, -⟩ | ⟨h60, -⟩
    · have hqr : q = r ↔ b = a := by rw [Fin.ext_iff, hq, hr, BitVec.toNat_inj]
      simp only [State.plainByte_register _ hq, State.reg_setReg, hqr]
    · have hba : b ≠ a := by
        rintro rfl
        have := r.isLt
        omega
      rw [if_neg hba, State.plainByte_sram _ h60, State.plainByte_sram _ h60]
      rfl
  · simp only [memWrite, e, Except.ok.injEq] at h
    subst h
    refine ⟨rfl, fun b hb => ?_⟩
    rcases hb.cases with ⟨q, hq, -⟩ | ⟨hb60, -⟩
    · have hba : b ≠ a := by
        rintro rfl
        have := q.isLt
        omega
      rw [if_neg hba, State.plainByte_register _ hq, State.plainByte_register _ hq]
      rfl
    · rw [State.plainByte_sram _ hb60, State.plainByte_sram _ hb60, State.ramByte_setRam]

/-- Settles O30: a plain address reads as the byte it holds, and a write replaces that byte alone. -/
theorem readAfterWrite : Obligations.ReadAfterWrite := by
  intro a b v s t ha hb h
  obtain ⟨hcfg, hbyte⟩ := memWrite_plain ha h
  refine ⟨?_, s.plainByte b, memRead_plain hb, fun hne => ?_⟩
  · rw [memRead_plain (s := t) (hcfg ▸ ha), hbyte a ha, if_pos rfl]
  · rw [memRead_plain (s := t) (hcfg ▸ hb), hbyte b hb, if_neg hne]

/-! Program memory. -/

theorem progByte_inside {s : State} {b : Nat} (h : b / 2 < s.cfg.flashWords) : progByte s b = .ok (flashByte s b) :=
  if_pos h

/-- A word has the low byte at the even address and the high byte behind it (R69). -/
theorem progWord_eq_some {s : State} {a : PcWord} {w : Word} (h : progWord s a = some w) :
    a.toNat < s.cfg.flashWords ∧
      w.toNat = (flashByte s (2 * a.toNat + 1)).toNat * 256 + (flashByte s (2 * a.toNat)).toNat := by
  by_cases hin : a.toNat < s.cfg.flashWords
  · rw [progWord_inside hin, Option.some_inj] at h
    exact ⟨hin, h ▸ append_toNat _ _⟩
  · rw [progWord, if_neg hin] at h
    cases h

/-- Settles O32: the two bytes as the remainder and the quotient of the word by 256. -/
theorem programBytesOfWord : Obligations.ProgramBytesOfWord := by
  refine fun a w b s => ⟨fun h => ?_, fun h => if_neg (Nat.not_lt.mpr h)⟩
  obtain ⟨hin, hw⟩ := progWord_eq_some h
  have hlow := (flashByte s (2 * a.toNat)).isLt
  constructor
  · rw [progByte_inside (by omega), show w.toNat % 256 = (flashByte s (2 * a.toNat)).toNat by omega,
      BitVec.ofNat_toNat, BitVec.setWidth_eq]
  · rw [progByte_inside (by omega), show w.toNat / 256 = (flashByte s (2 * a.toNat + 1)).toNat by omega,
      BitVec.ofNat_toNat, BitVec.setWidth_eq]

end Sys2Proof.Machine
end

section
/-! PROOFS. What every step keeps: program memory (O57), and the records of the run, which only grow (O58). Both follow
from what the parts of a step keep: the environment's actions, the entry of an interrupt, an instruction. -/

namespace Sys2Proof.Machine

/-! The parts of a step. -/

/-- What the environment's actions and the use of `irq_inhibit` leave alone: the member, the registers, both memories
and the records of the run (R346, R371). -/
def BoundaryFrame (s t : State) : Prop :=
  t = { s with pc := t.pc, sp := t.sp, sreg := t.sreg, rampz := t.rampz, eind := t.eind, irqInhibit := t.irqInhibit,
               sleeping := t.sleeping, pending := t.pending, sleepEnabled := t.sleepEnabled, env := t.env }

theorem BoundaryFrame.trans {s t u : State} (h1 : BoundaryFrame s t) (h2 : BoundaryFrame t u) : BoundaryFrame s u := by
  unfold BoundaryFrame at h1
  rw [h1] at h2
  exact h2

theorem applyEvent_boundary (s : State) (e : EnvEvent) : BoundaryFrame s (applyEvent s e) := by
  cases e with
  | raise n =>
    simp only [applyEvent]
    split <;> exact rfl
  | withdraw n | sleepEnabled b | reset => exact rfl

theorem applyEnv_boundary (s : State) : BoundaryFrame s (applyEnv s) := by
  unfold applyEnv
  exact List.foldlRecOn _ _ (motive := BoundaryFrame s) rfl fun _ ht e _ => ht.trans (applyEvent_boundary _ e)

theorem begun_boundary (s : State) : BoundaryFrame s (begun s) := (applyEnv_boundary s).trans rfl

/-- A relation between the states before and after holds of a step when it holds of the step's parts. -/
theorem step_relation {R : State → State → Prop} (htrans : ∀ {s t u}, R s t → R t u → R s u)
    (hboundary : ∀ {s t}, BoundaryFrame s t → R s t) (hentry : ∀ n s, ResultWithin (R s) (interruptEntry n s))
    (hexec : ∀ {i s}, s.cfg.hasInstr i = true → i ≠ .spm → ResultWithin (R s) (exec i s)) {s t : State}
    (h : step s = .next t) : R s t := by
  have hbegun := hboundary (begun_boundary s)
  rcases step_cases s with ⟨n, e⟩ | e | ⟨f, e⟩ | ⟨i, e⟩ <;> rw [e] at h
  · exact htrans (hboundary (applyEnv_boundary s)) ((hentry n _).of_next h)
  · cases h
    exact hbegun
  · cases h
  · obtain ⟨hi, hs⟩ := hasInstr_of_exec_next h
    exact htrans hbegun ((hexec hi hs).of_next h)

/-! Program memory. -/

/-- The member and its program memory are the same (R6, R78). -/
def SameProgram (s t : State) : Prop := t.cfg = s.cfg ∧ t.flash = s.flash

theorem SameProgram.trans {s t u : State} (h1 : SameProgram s t) (h2 : SameProgram t u) : SameProgram s u :=
  ⟨h2.1.trans h1.1, h2.2.trans h1.2⟩

theorem BoundaryFrame.sameProgram {s t : State} (h : BoundaryFrame s t) : SameProgram s t := by
  unfold BoundaryFrame at h
  rw [h]
  exact ⟨rfl, rfl⟩

theorem StoreFrame.sameProgram {s t : State} (h : StoreFrame s t) : SameProgram s t := by
  unfold StoreFrame at h
  rw [h]
  exact ⟨rfl, rfl⟩

theorem SpecialStateKept.sameProgram {i : Instr} {s t : State} (h : SpecialStateKept i s t) : SameProgram s t := by
  obtain ⟨⟨hcfg, hflash, -⟩, -⟩ := h
  exact ⟨hcfg, hflash⟩

theorem acknowledge_sameProgram (n : Nat) (s : State) : SameProgram s (acknowledge n s) := by
  simp only [acknowledge]
  split <;> exact ⟨rfl, rfl⟩

theorem interruptEntry_sameProgram (n : Nat) (s : State) : ResultWithin (SameProgram s) (interruptEntry n s) :=
  finish_within (pushBytes_within _ { s with sleeping := false }) fun t ht =>
    SameProgram.trans (t := t.setSreg (putBit t.sreg bitI false)) ht.sameProgram (acknowledge_sameProgram n _)

/-- A word of program memory depends on the member and its program memory only (R61, R69). -/
theorem SameProgram.progWord_eq {s t : State} (h : SameProgram s t) (a : PcWord) : progWord t a = progWord s a := by
  obtain ⟨hcfg, hflash⟩ := h
  simp only [progWord, flashByte, hcfg, hflash]

/-- Settles O57: no part of a step writes program memory. -/
theorem programMemoryIsConstant : Obligations.ProgramMemoryIsConstant := by
  intro s t h
  have hsame : SameProgram s t := step_relation (R := SameProgram) SameProgram.trans BoundaryFrame.sameProgram
    interruptEntry_sameProgram (fun hi hs => (exec_within hi hs).mono fun _ => SpecialStateKept.sameProgram) h
  exact ⟨hsame.2, hsame.progWord_eq⟩

/-! The records of the run. -/

/-- Output events are added behind the earlier ones, and the cycle count does not fall (R75, R381). -/
def RecordsGrow (s t : State) : Prop := (∃ l, t.events = s.events ++ l) ∧ s.cycles ≤ t.cycles

theorem RecordsGrow.trans {s t u : State} (h1 : RecordsGrow s t) (h2 : RecordsGrow t u) : RecordsGrow s u := by
  obtain ⟨⟨l, hl⟩, hc⟩ := h1
  obtain ⟨⟨m, hm⟩, hd⟩ := h2
  exact ⟨⟨l ++ m, by rw [hm, hl, List.append_assoc]⟩, hc.trans hd⟩

/-- No event, and some cycles. -/
theorem RecordsGrow.of_quiet {s t : State} {n : Nat} (he : t.events = s.events) (hc : t.cycles = s.cycles + n) :
    RecordsGrow s t :=
  ⟨⟨[], by rw [he, List.append_nil]⟩, by omega⟩

theorem RecordsGrow.of_event {s t : State} {e : OutEvent} (he : t.events = s.events ++ [e]) (hc : t.cycles = s.cycles) :
    RecordsGrow s t :=
  ⟨⟨[e], he⟩, hc.ge⟩

theorem RecordsGrow.refl (s : State) : RecordsGrow s s := .of_quiet (n := 0) rfl rfl

/-- Behind some part of a meaning, a part without events. -/
theorem RecordsGrow.quiet {s t u : State} {n : Nat} (h : RecordsGrow s t) (he : u.events = t.events)
    (hc : u.cycles = t.cycles + n) : RecordsGrow s u :=
  h.trans (.of_quiet he hc)

theorem BoundaryFrame.recordsGrow {s t : State} (h : BoundaryFrame s t) : RecordsGrow s t := by
  unfold BoundaryFrame at h
  rw [h]
  exact .refl s

/-! The data space and the stack: at most a device access is recorded (R66). -/

theorem DeviceReads.recordsGrow {a : Addr} {s t : State} {v : Byte} (h : DeviceReads a s v t) : RecordsGrow s t := by
  unfold DeviceReads at h
  split_ifs at h <;> obtain ⟨-, rfl⟩ := h <;> exact .of_event rfl rfl

theorem DeviceStored.recordsGrow {a : Addr} {s t : State} {v : Byte} (h : DeviceStored a v s t) : RecordsGrow s t := by
  unfold DeviceStored at h
  split_ifs at h
  · obtain ⟨h, -⟩ := h
    rw [h]
    exact .of_event rfl rfl
  · rw [h]
    exact .of_event rfl rfl

/-- Only a read of a device leaves another state (R66). -/
theorem ReadsAs.same_or_device {a : Addr} {s t : State} {v : Byte} (h : ReadsAs a s v t) :
    t = s ∨ DeviceReads a s v t := by
  unfold ReadsAs at h
  split_ifs at h
  on_goal 7 => exact .inr h
  all_goals exact .inl h.2

/-- Only a write of a device is recorded (R66). -/
theorem StoredAt.quiet_or_device {a : Addr} {s t : State} {v : Byte} (h : StoredAt a v s t) :
    (t.events = s.events ∧ t.cycles = s.cycles) ∨ DeviceStored a v s t := by
  unfold StoredAt at h
  split_ifs at h
  on_goal 8 =>
    obtain ⟨h, -⟩ := h
    rw [h]
    exact .inl ⟨rfl, rfl⟩
  on_goal 7 => exact .inr h
  all_goals exact .inl (h ▸ ⟨rfl, rfl⟩)

theorem ReadsAs.recordsGrow {a : Addr} {s t : State} {v : Byte} (h : ReadsAs a s v t) : RecordsGrow s t := by
  rcases h.same_or_device with rfl | h
  · exact .refl t
  · exact h.recordsGrow

theorem StoredAt.recordsGrow {a : Addr} {s t : State} {v : Byte} (h : StoredAt a v s t) : RecordsGrow s t := by
  rcases h.quiet_or_device with ⟨he, hc⟩ | h
  · exact .of_quiet (n := 0) he hc
  · exact h.recordsGrow

theorem memRead_recordsGrow {s t : State} (h : RecordsGrow s t) (a : Addr) :
    AccessWithin (fun p => RecordsGrow s p.2) (memRead a t) := by
  by_cases hm : Mapped t.cfg a
  · obtain ⟨v, u, e, hr⟩ := memRead_mapped hm
    rw [e]
    exact h.trans hr.recordsGrow
  · rw [memRead_unmapped hm]
    exact fun _ _ => Fault.noConfusion

theorem memWrite_recordsGrow {s t : State} (h : RecordsGrow s t) (a : Addr) (v : Byte) :
    AccessWithin (RecordsGrow s) (memWrite a v t) := by
  by_cases hm : Mapped t.cfg a
  · obtain ⟨u, e, hs⟩ := memWrite_mapped v hm
    rw [e]
    exact h.trans hs.recordsGrow
  · rw [memWrite_unmapped v hm]
    exact fun _ _ => Fault.noConfusion

theorem push8_recordsGrow {s t : State} (h : RecordsGrow s t) (v : Byte) :
    AccessWithin (RecordsGrow s) (push8 v t) := by
  unfold push8
  rcases (memWrite_recordsGrow h t.sp v).cases with ⟨f, e, hf⟩ | ⟨u, e, hu⟩ <;> rw [e]
  · exact hf
  · exact hu.quiet (n := 0) rfl rfl

theorem pushBytes_recordsGrow (vs : List Byte) {s t : State} (h : RecordsGrow s t) :
    AccessWithin (RecordsGrow s) (pushBytes vs t) := by
  induction vs generalizing t with
  | nil => exact h
  | cons v vs ih =>
    unfold pushBytes
    rcases (push8_recordsGrow h v).cases with ⟨f, e, hf⟩ | ⟨u, e, hu⟩ <;> rw [e]
    · exact hf
    · exact ih hu

theorem pop8_recordsGrow {s t : State} (h : RecordsGrow s t) : AccessWithin (fun p => RecordsGrow s p.2) (pop8 t) :=
  memRead_recordsGrow (t := t.setSp (t.sp + 1)) (h.quiet (n := 0) rfl rfl) _

/-! The meanings. -/

theorem loadByte_recordsGrow {d : Reg} {a : Addr} {words : Nat} {upd : State → State} {s : State}
    (hu : ∀ t, (upd t).events = t.events ∧ (upd t).cycles = t.cycles) :
    ResultWithin (RecordsGrow s) (loadByte d a words upd s) := by
  unfold loadByte
  rcases (memRead_recordsGrow (.refl s) a).cases with ⟨f, e, hf⟩ | ⟨p, e, hp⟩ <;> rw [e]
  · exact hf
  · obtain ⟨he, hc⟩ := hu (p.2.setReg d p.1)
    exact hp.quiet (n := 2) he (congrArg (· + 2) hc)

theorem storeByte_recordsGrow {r : Reg} {a : Addr} {words : Nat} {upd : State → State} {s : State}
    (hu : ∀ t, (upd t).events = t.events ∧ (upd t).cycles = t.cycles) :
    ResultWithin (RecordsGrow s) (storeByte r a words upd s) :=
  finish_within (memWrite_recordsGrow (.refl s) a (s.reg r)) fun t ht =>
    ht.quiet (n := 2) (hu t).1 (congrArg (· + 2) (hu t).2)

theorem modifyIo_recordsGrow (a : BitVec 5) (f : Byte → Byte) (s : State) :
    ResultWithin (RecordsGrow s) (modifyIo a f s) :=
  ((ioRead_reads _ s).recordsGrow.trans (ioWrite_stored _ _ _).recordsGrow).quiet (n := 2) rfl rfl

theorem callTo_recordsGrow {ra target : PcWord} {n16 n22 : Nat} {s : State} :
    ResultWithin (RecordsGrow s) (callTo ra target n16 n22 s) :=
  finish_within (pushBytes_recordsGrow _ (.refl s)) fun _ ht => ht.quiet rfl rfl

theorem returnWith_recordsGrow {fin : State → State} {s : State}
    (hfin : ∀ t, (fin t).events = t.events ∧ (fin t).cycles = t.cycles) :
    ResultWithin (RecordsGrow s) (returnWith fin s) :=
  returnWith_rule (fun _ => pop8_recordsGrow) (.refl s) fun t a n ht =>
    ht.quiet (n := n) (hfin (t.jump a n)).1 (hfin (t.jump a n)).2

theorem execReti_recordsGrow (s : State) : ResultWithin (RecordsGrow s) (execReti s) := by
  unfold execReti returnFromInterrupt
  exact returnWith_recordsGrow fun _ => ⟨rfl, rfl⟩

/-- An instruction that the member has makes the records grow. The cases go by the shared operation of the meaning. -/
theorem exec_recordsGrow {i : Instr} {s : State} (hi : s.cfg.hasInstr i = true) (hs : i ≠ .spm) :
    ResultWithin (RecordsGrow s) (exec i s) := by
  cases i with
  | add | adc | adiw | sub | subi | sbc | sbci | sbiw | inc | dec | neg | com | cp | cpc | cpi | and | andi | or | ori
  | eor | asr | lsr | ror | swap | bld | bst | bset | bclr | rjmp | mov | ldi | nop | sleep | lsl | rol | tst
  | clr | ser | cbr | sbr | sec | sez | sen | sev | ses | seh | setT | sei | clc | clz | cln | clv | cls | clh | clt
  | cli => exact RecordsGrow.of_quiet rfl rfl
  | wdr => exact (RecordsGrow.of_event (t := s.emit .wdr) rfl rfl).quiet rfl rfl
  | jmp | ijmp | eijmp | movw | mul | muls | mulsu | fmul | fmuls | fmulsu =>
    exact ifPresent_within hi (RecordsGrow.of_quiet rfl rfl)
  | brbs | brbc | brcs | brlo | brcc | brsh | breq | brne | brmi | brpl | brvs | brvc | brlt | brge | brhs | brhc | brts
  | brtc | brie | brid => exact branchIf_rule (.of_quiet rfl rfl) (.of_quiet rfl rfl)
  | cpse | sbrc | sbrs => exact skip_rule fun n => .of_quiet (n := n) rfl rfl
  | sbic | sbis => exact skip_rule fun n => (ioRead_reads _ s).recordsGrow.quiet (n := n) rfl rfl
  | ldX | lddY | lddZ | ldY | ldZ | lds => exact loadByte_recordsGrow fun _ => ⟨rfl, rfl⟩
  | ldXInc | ldYInc | ldZInc | ldXDec | ldYDec | ldZDec =>
    exact ifDisjoint_within (loadByte_recordsGrow fun _ => ⟨rfl, rfl⟩)
  | stX | stdY | stdZ | stY | stZ | sts => exact storeByte_recordsGrow fun _ => ⟨rfl, rfl⟩
  | stXInc | stYInc | stZInc | stXDec | stYDec | stZDec =>
    exact ifDisjoint_within (storeByte_recordsGrow fun _ => ⟨rfl, rfl⟩)
  | lpm => exact loadProg_within (P := RecordsGrow s) (upd := fun t => t) fun _ => .of_quiet (n := 3) rfl rfl
  | lpmZ | elpm | elpmZ => exact ifPresent_within hi (loadProg_within fun _ => .of_quiet (n := 3) rfl rfl)
  | lpmZInc | elpmZInc =>
    exact ifPresent_within hi (ifDisjoint_within (loadProg_within fun _ => .of_quiet (n := 3) rfl rfl))
  | inIo => exact (ioRead_reads _ s).recordsGrow.quiet rfl rfl
  | outIo => exact (ioWrite_stored _ _ s).recordsGrow.quiet rfl rfl
  | sbi a b => exact modifyIo_recordsGrow a (fun v => putBit v b.toNat true) s
  | cbi a b => exact modifyIo_recordsGrow a (fun v => putBit v b.toNat false) s
  | push =>
    exact ifPresent_within hi (finish_within (push8_recordsGrow (.refl s) _) fun _ ht => ht.quiet (n := 2) rfl rfl)
  | pop => exact execPop_rule hi (pop8_recordsGrow (.refl s)) fun _ _ ht => ht.quiet (n := 2) rfl rfl
  | rcall => exact callTo_recordsGrow
  | call | icall | eicall => exact ifPresent_within hi callTo_recordsGrow
  | ret => exact returnWith_recordsGrow fun _ => ⟨rfl, rfl⟩
  | reti => exact execReti_recordsGrow s
  | brk => exact execBrk_rule (.of_quiet rfl rfl)
  | spm => exact absurd rfl hs

/-! The step. -/

theorem acknowledge_recordsGrow (n : Nat) (s : State) : RecordsGrow s (acknowledge n s) := by
  simp only [acknowledge]
  split <;> exact .of_event rfl rfl

theorem interruptEntry_recordsGrow (n : Nat) (s : State) : ResultWithin (RecordsGrow s) (interruptEntry n s) :=
  finish_within (pushBytes_recordsGrow (t := { s with sleeping := false }) _ (.of_quiet (n := 0) rfl rfl)) fun t ht =>
    (RecordsGrow.trans (t := t.setSreg (putBit t.sreg bitI false)) ht (acknowledge_recordsGrow n _)).quiet rfl rfl

/-- Settles O58: every part of a step adds to the records of the run or leaves them alone. -/
theorem eventsAreAppended : Obligations.EventsAreAppended := fun _ _ =>
  step_relation (R := RecordsGrow) RecordsGrow.trans BoundaryFrame.recordsGrow interruptEntry_recordsGrow
    exec_recordsGrow

end Sys2Proof.Machine
end

section
/-! PROOFS. The rows of the opcode map, format by format (R109). Of each format: its words keep the bits that its rows
fix, its fields are read as they were written, and a word that fits a row is built again from its fields. -/

namespace Sys2Proof

/-! Rows and patterns. -/

/-- The row of the opcode map that a word fits (R103). -/
def rowOf (w : Word) : Option Row := opcodeMap.find? (fun row => row.matches w)

theorem Row.matches_iff {row : Row} {w : Word} : row.matches w = true ↔ w &&& row.mask = row.pat := beq_iff_eq

theorem rowOf_some {w : Word} {row : Row} (h : rowOf w = some row) : row ∈ opcodeMap ∧ w &&& row.mask = row.pat :=
  ⟨List.mem_of_find?_eq_some h, Row.matches_iff.mp (List.find?_some (p := fun row : Row => row.matches w) h)⟩

/-- Two words with the same fixed bits decode by the same row. -/
theorem decodeWord_of_rowOf {v w : Word} {row : Row} (hv : rowOf v = some row) (hw : w &&& row.mask = v &&& row.mask)
    (w2 : Word) : decodeWord w w2 = some (row.make w w2) := by
  obtain ⟨hm, hp⟩ := rowOf_some hv
  exact decodeWord_of_row hm w2 (Row.matches_iff.mpr (hw.trans hp))

/-- Encoding of decoding for one row: the words that fit it are those of the instruction it reads (R103). -/
def Row.RoundTrips (row : Row) : Prop :=
  ∀ w w2, w &&& row.mask = row.pat → wellFormed (row.make w w2) = true ∧
    encode (row.make w w2) = if wordCount row.pat = 2 then [w, w2] else [w]

/-- A row of one-word instructions. -/
theorem Row.RoundTrips.of_one {pat mask : Word} {make : Word → Instr} (hc : wordCount pat = 1)
    (h : ∀ w, w &&& mask = pat → wellFormed (make w) = true ∧ encode (make w) = [w]) :
    Row.RoundTrips ⟨pat, mask, fun w _ => make w⟩ := by
  intro w w2 hw
  simpa [hc] using h w hw

/-- A row of two-word instructions. -/
theorem Row.RoundTrips.of_two {pat mask : Word} {make : Word → Word → Instr} (hc : wordCount pat = 2)
    (h : ∀ w w2, w &&& mask = pat → wellFormed (make w w2) = true ∧ encode (make w w2) = [w, w2]) :
    Row.RoundTrips ⟨pat, mask, make⟩ := by
  intro w w2 hw
  simpa [hc] using h w w2 hw

/-! Fields of words. -/

/-- A field lies in one part of a concatenation. The parts are explicit here and in `extract_append_extract`: with holes
for them `simp` unifies their widths with the 16 bits of a word. -/
theorem extract_append {m n s l : Nat} (x : BitVec m) (y : BitVec n) (h : s + l ≤ n ∨ n ≤ s) :
    (x ++ y).extractLsb' s l = if s + l ≤ n then y.extractLsb' s l else x.extractLsb' (s - n) l := by
  split_ifs with hs
  · exact BitVec.extractLsb'_append_eq_of_add_le hs
  · exact BitVec.extractLsb'_append_eq_of_le (h.resolve_left hs)

/-- The bits of a word that a pattern fixes. -/
theorem extract_of_pattern {w mask pat : Word} (h : w &&& mask = pat) (s n : Nat)
    (hm : mask.extractLsb' s n = BitVec.allOnes n) : w.extractLsb' s n = pat.extractLsb' s n := by
  rw [← h, BitVec.extractLsb'_and, hm, BitVec.and_allOnes]

/-- Fields side by side are one field. -/
theorem extract_append_extract {n s t : Nat} (x : BitVec n) (l k : Nat) (h : s = t + k) :
    x.extractLsb' s l ++ x.extractLsb' t k = x.extractLsb' t (l + k) :=
  BitVec.extractLsb'_append_extractLsb'_eq_extractLsb' h

theorem toFin_field (d : Reg) : d.field.toFin = d := rfl

theorem field_fieldD (w : Word) : (fieldD w).field = w.extractLsb' 4 5 := rfl

theorem field_fieldR (w : Word) : (fieldR w).field = w.extractLsb' 9 1 ++ w.extractLsb' 0 4 := rfl

/-! The classes of registers (R21, R104): 16 + a field of 4 bits, 16 + a field of 3 bits, twice a field. -/

theorem upper_of_lowField {d : Reg} (h : d.isUpper = true) : (0b1#1 ++ d.lowField 4).toFin = d := by
  revert d
  decide

theorem lowField_of_upper (x : BitVec 4) :
    Reg.isUpper (0b1#1 ++ x).toFin = true ∧ Reg.lowField (0b1#1 ++ x).toFin 4 = x := by
  revert x
  decide

theorem mid_of_lowField {d : Reg} (h : d.isMid = true) : (0b10#2 ++ d.lowField 3).toFin = d := by
  revert d
  decide

theorem lowField_of_mid (x : BitVec 3) :
    Reg.isMid (0b10#2 ++ x).toFin = true ∧ Reg.lowField (0b10#2 ++ x).toFin 3 = x := by
  revert x
  decide

theorem even_of_pairField {d : Reg} (h : d.isEven = true) : (d.pairField ++ 0b0#1).toFin = d := by
  revert d
  decide

theorem pairField_of_even (x : BitVec 4) :
    Reg.isEven (x ++ 0b0#1).toFin = true ∧ Reg.pairField (x ++ 0b0#1).toFin = x := by
  revert x
  decide

theorem upperPair_of_field {d : Reg} (h : d.isUpperPair = true) :
    (0b11#2 ++ BitVec.ofNat 2 (d.val / 2) ++ 0b0#1).toFin = d := by
  revert d
  decide

theorem field_of_upperPair (x : BitVec 2) :
    Reg.isUpperPair (0b11#2 ++ x ++ 0b0#1).toFin = true ∧ BitVec.ofNat 2 ((0b11#2 ++ x ++ 0b0#1).toNat / 2) = x := by
  revert x
  decide

/-! The instructions of one word (R117). -/

theorem decodeWord_fixed {w w2 : Word} {i : Instr} (h : rowOf w = some ⟨w, 0xFFFF, fun _ _ => i⟩) :
    decodeWord w w2 = some i := decodeWord_of_rowOf h rfl w2

theorem roundTrips_fixed {pat : Word} {i : Instr} (henc : encode i = [pat]) (hwf : wellFormed i = true)
    (hc : wordCount pat = 1) : Row.RoundTrips ⟨pat, 0xFFFF, fun _ _ => i⟩ := by
  refine .of_one hc fun w h => ⟨hwf, ?_⟩
  have hw : w = pat := BitVec.and_allOnes.symm.trans h
  rw [henc, hw]

/-! Format RR: two registers. -/

theorem wordRR_fixed (op : BitVec 6) (d r : Reg) :
    wordRR op d r &&& 0xFC00 = wordRR op 0 0 &&& 0xFC00 := by
  rw [show (0xFC00 : Word) = 0b111111#6 ++ 0#1 ++ 0#5 ++ 0#4 by rfl]
  simp only [wordRR, BitVec.and_append (w := _) (v := _), BitVec.and_zero]

theorem decodeWord_wordRR {op : BitVec 6} {pat w2 : Word} {mk : Reg → Reg → Instr} {d r : Reg}
    (h : rowOf (wordRR op 0 0) = some ⟨pat, 0xFC00, fun w _ => mk (fieldD w) (fieldR w)⟩) :
    decodeWord (wordRR op d r) w2 = some (mk d r) := by
  have hd : fieldD (wordRR op d r) = d := by
    simp [fieldD, wordRR, extract_append _ _, toFin_field]
  have hr : fieldR (wordRR op d r) = r := by
    simp [fieldR, wordRR, extract_append _ _, toFin_field, extract_append_extract _ _ _]
  have hrow := decodeWord_of_rowOf h (wordRR_fixed op d r) w2
  simpa only [hd, hr] using hrow

theorem wordRR_of_fits {op : BitVec 6} {w : Word} (h : w &&& 0xFC00 = wordRR op 0 0) :
    wordRR op (fieldD w) (fieldR w) = w := by
  have h10 : w.extractLsb' 10 6 = op := by
    simpa [wordRR, extract_append _ _] using extract_of_pattern h 10 6 rfl
  simp [wordRR, field_fieldD, field_fieldR, extract_append _ _, ← h10, extract_append_extract _ _ _]

theorem roundTrips_wordRR {op : BitVec 6} {pat : Word} {mk : Reg → Reg → Instr}
    (henc : ∀ d r, encode (mk d r) = [wordRR op d r])
    (hwf : ∀ d r, wellFormed (mk d r) = true)
    (hp : pat = wordRR op 0 0) (hc : wordCount pat = 1) :
    Row.RoundTrips ⟨pat, 0xFC00, fun w _ => mk (fieldD w) (fieldR w)⟩ :=
  .of_one hc fun w h => ⟨hwf _ _, by rw [henc, wordRR_of_fits (h.trans hp)]⟩

/-! Format RI: an upper register and a constant of 8 bits. -/

theorem wordRI_fixed (op : BitVec 4) (d : Reg) (k : Byte) :
    wordRI op d k &&& 0xF000 = wordRI op 0 0 &&& 0xF000 := by
  rw [show (0xF000 : Word) = 0b1111#4 ++ 0#4 ++ 0#4 ++ 0#4 by rfl]
  simp only [wordRI, BitVec.and_append (w := _) (v := _), BitVec.and_zero]

theorem decodeWord_wordRI {op : BitVec 4} {pat w2 : Word} {mk : Reg → Byte → Instr} {d : Reg} {k : Byte}
    (h : rowOf (wordRI op 0 0) = some ⟨pat, 0xF000, fun w _ => mk (fieldUpperD w) (fieldK8 w)⟩)
    (hwf : d.isUpper = true) :
    decodeWord (wordRI op d k) w2 = some (mk d k) := by
  have hd : fieldUpperD (wordRI op d k) = d := by
    simp [fieldUpperD, wordRI, extract_append _ _, upper_of_lowField hwf]
  have hk : fieldK8 (wordRI op d k) = k := by
    simp [fieldK8, wordRI, extract_append _ _, extract_append_extract _ _ _]
  have hrow := decodeWord_of_rowOf h (wordRI_fixed op d k) w2
  simpa only [hd, hk] using hrow

theorem wordRI_of_fits {op : BitVec 4} {w : Word} (h : w &&& 0xF000 = wordRI op 0 0) :
    wordRI op (fieldUpperD w) (fieldK8 w) = w := by
  have h12 : w.extractLsb' 12 4 = op := by
    simpa [wordRI, extract_append _ _] using extract_of_pattern h 12 4 rfl
  simp [wordRI, fieldUpperD, lowField_of_upper, fieldK8, extract_append _ _, ← h12, extract_append_extract _ _ _]

theorem roundTrips_wordRI {op : BitVec 4} {pat : Word} {mk : Reg → Byte → Instr}
    (henc : ∀ d k, encode (mk d k) = [wordRI op d k])
    (hwf : ∀ d k, wellFormed (mk d k) = d.isUpper)
    (hp : pat = wordRI op 0 0) (hc : wordCount pat = 1) :
    Row.RoundTrips ⟨pat, 0xF000, fun w _ => mk (fieldUpperD w) (fieldK8 w)⟩ :=
  .of_one hc fun w h => ⟨(hwf _ _).trans (lowField_of_upper _).1, by rw [henc, wordRI_of_fits (h.trans hp)]⟩

/-! Format R1: one register. -/

theorem wordR1_fixed (op : BitVec 7) (low : BitVec 4) (d : Reg) :
    wordR1 op d low &&& 0xFE0F = wordR1 op 0 low &&& 0xFE0F := by
  rw [show (0xFE0F : Word) = 0b1111111#7 ++ 0#5 ++ 0b1111#4 by rfl]
  simp only [wordR1, BitVec.and_append (w := _) (v := _), BitVec.and_zero]

theorem decodeWord_wordR1 {op : BitVec 7} {low : BitVec 4} {pat w2 : Word} {mk : Reg → Instr} {d : Reg}
    (h : rowOf (wordR1 op 0 low) = some ⟨pat, 0xFE0F, fun w _ => mk (fieldD w)⟩) :
    decodeWord (wordR1 op d low) w2 = some (mk d) := by
  have hd : fieldD (wordR1 op d low) = d := by
    simp [fieldD, wordR1, extract_append _ _, toFin_field]
  have hrow := decodeWord_of_rowOf h (wordR1_fixed op low d) w2
  simpa only [hd] using hrow

theorem wordR1_of_fits {op : BitVec 7} {low : BitVec 4} {w : Word} (h : w &&& 0xFE0F = wordR1 op 0 low) :
    wordR1 op (fieldD w) low = w := by
  have h9 : w.extractLsb' 9 7 = op := by
    simpa [wordR1, extract_append _ _] using extract_of_pattern h 9 7 rfl
  have h0 : w.extractLsb' 0 4 = low := by
    simpa [wordR1, extract_append _ _] using extract_of_pattern h 0 4 rfl
  simp [wordR1, field_fieldD, ← h9, ← h0, extract_append_extract _ _ _]

theorem roundTrips_wordR1 {op : BitVec 7} {low : BitVec 4} {pat : Word} {mk : Reg → Instr}
    (henc : ∀ d, encode (mk d) = [wordR1 op d low])
    (hwf : ∀ d, wellFormed (mk d) = true)
    (hp : pat = wordR1 op 0 low) (hc : wordCount pat = 1) :
    Row.RoundTrips ⟨pat, 0xFE0F, fun w _ => mk (fieldD w)⟩ :=
  .of_one hc fun w h => ⟨hwf _, by rw [henc, wordR1_of_fits (h.trans hp)]⟩

/-! Format WI: ADIW and SBIW. -/

theorem wordWI_fixed (op : BitVec 8) (d : Reg) (k : BitVec 6) :
    wordWI op d k &&& 0xFF00 = wordWI op 0 0 &&& 0xFF00 := by
  rw [show (0xFF00 : Word) = 0b11111111#8 ++ 0#2 ++ 0#2 ++ 0#4 by rfl]
  simp only [wordWI, BitVec.and_append (w := _) (v := _), BitVec.and_zero]

theorem decodeWord_wordWI {op : BitVec 8} {pat w2 : Word} {mk : Reg → BitVec 6 → Instr} {d : Reg} {k : BitVec 6}
    (h : rowOf (wordWI op 0 0) = some ⟨pat, 0xFF00, fun w _ => mk (fieldWordPair w) (fieldK6 w)⟩)
    (hwf : d.isUpperPair = true) :
    decodeWord (wordWI op d k) w2 = some (mk d k) := by
  have hd : fieldWordPair (wordWI op d k) = d := by
    simp [fieldWordPair, wordWI, extract_append _ _, upperPair_of_field hwf]
  have hk : fieldK6 (wordWI op d k) = k := by
    simp [fieldK6, wordWI, extract_append _ _, extract_append_extract _ _ _]
  have hrow := decodeWord_of_rowOf h (wordWI_fixed op d k) w2
  simpa only [hd, hk] using hrow

theorem wordWI_of_fits {op : BitVec 8} {w : Word} (h : w &&& 0xFF00 = wordWI op 0 0) :
    wordWI op (fieldWordPair w) (fieldK6 w) = w := by
  have h8 : w.extractLsb' 8 8 = op := by
    simpa [wordWI, extract_append _ _] using extract_of_pattern h 8 8 rfl
  simp [wordWI, fieldWordPair, field_of_upperPair, fieldK6, extract_append _ _, ← h8, extract_append_extract _ _ _]

theorem roundTrips_wordWI {op : BitVec 8} {pat : Word} {mk : Reg → BitVec 6 → Instr}
    (henc : ∀ d k, encode (mk d k) = [wordWI op d k])
    (hwf : ∀ d k, wellFormed (mk d k) = d.isUpperPair)
    (hp : pat = wordWI op 0 0) (hc : wordCount pat = 1) :
    Row.RoundTrips ⟨pat, 0xFF00, fun w _ => mk (fieldWordPair w) (fieldK6 w)⟩ :=
  .of_one hc fun w h => ⟨(hwf _ _).trans (field_of_upperPair _).1, by rw [henc, wordWI_of_fits (h.trans hp)]⟩

/-! Format RB: a register and a bit. -/

theorem wordRB_fixed (op : BitVec 7) (d : Reg) (b : BitVec 3) :
    wordRB op d b &&& 0xFE08 = wordRB op 0 0 &&& 0xFE08 := by
  rw [show (0xFE08 : Word) = 0b1111111#7 ++ 0#5 ++ 0b1#1 ++ 0#3 by rfl]
  simp only [wordRB, BitVec.and_append (w := _) (v := _), BitVec.and_zero]

theorem decodeWord_wordRB {op : BitVec 7} {pat w2 : Word} {mk : Reg → BitVec 3 → Instr} {d : Reg} {b : BitVec 3}
    (h : rowOf (wordRB op 0 0) = some ⟨pat, 0xFE08, fun w _ => mk (fieldD w) (fieldB w)⟩) :
    decodeWord (wordRB op d b) w2 = some (mk d b) := by
  have hd : fieldD (wordRB op d b) = d := by
    simp [fieldD, wordRB, extract_append _ _, toFin_field]
  have hb : fieldB (wordRB op d b) = b := by
    simp [fieldB, wordRB, extract_append _ _]
  have hrow := decodeWord_of_rowOf h (wordRB_fixed op d b) w2
  simpa only [hd, hb] using hrow

theorem wordRB_of_fits {op : BitVec 7} {w : Word} (h : w &&& 0xFE08 = wordRB op 0 0) :
    wordRB op (fieldD w) (fieldB w) = w := by
  have h9 : w.extractLsb' 9 7 = op := by
    simpa [wordRB, extract_append _ _] using extract_of_pattern h 9 7 rfl
  have h3 : w.extractLsb' 3 1 = 0#1 := by
    simpa [wordRB, extract_append _ _] using extract_of_pattern h 3 1 rfl
  simp [wordRB, field_fieldD, fieldB, ← h9, ← h3, extract_append_extract _ _ _]

theorem roundTrips_wordRB {op : BitVec 7} {pat : Word} {mk : Reg → BitVec 3 → Instr}
    (henc : ∀ d b, encode (mk d b) = [wordRB op d b])
    (hwf : ∀ d b, wellFormed (mk d b) = true)
    (hp : pat = wordRB op 0 0) (hc : wordCount pat = 1) :
    Row.RoundTrips ⟨pat, 0xFE08, fun w _ => mk (fieldD w) (fieldB w)⟩ :=
  .of_one hc fun w h => ⟨hwf _ _, by rw [henc, wordRB_of_fits (h.trans hp)]⟩

/-! Format IO: IN and OUT. -/

theorem wordIO_fixed (op : BitVec 5) (d : Reg) (a : BitVec 6) :
    wordIO op d a &&& 0xF800 = wordIO op 0 0 &&& 0xF800 := by
  rw [show (0xF800 : Word) = 0b11111#5 ++ 0#2 ++ 0#5 ++ 0#4 by rfl]
  simp only [wordIO, BitVec.and_append (w := _) (v := _), BitVec.and_zero]

theorem decodeWord_wordIO {op : BitVec 5} {pat w2 : Word} {mk : Reg → BitVec 6 → Instr} {d : Reg} {a : BitVec 6}
    (h : rowOf (wordIO op 0 0) = some ⟨pat, 0xF800, fun w _ => mk (fieldD w) (fieldA6 w)⟩) :
    decodeWord (wordIO op d a) w2 = some (mk d a) := by
  have hd : fieldD (wordIO op d a) = d := by
    simp [fieldD, wordIO, extract_append _ _, toFin_field]
  have ha : fieldA6 (wordIO op d a) = a := by
    simp [fieldA6, wordIO, extract_append _ _, extract_append_extract _ _ _]
  have hrow := decodeWord_of_rowOf h (wordIO_fixed op d a) w2
  simpa only [hd, ha] using hrow

theorem wordIO_of_fits {op : BitVec 5} {w : Word} (h : w &&& 0xF800 = wordIO op 0 0) :
    wordIO op (fieldD w) (fieldA6 w) = w := by
  have h11 : w.extractLsb' 11 5 = op := by
    simpa [wordIO, extract_append _ _] using extract_of_pattern h 11 5 rfl
  simp [wordIO, field_fieldD, fieldA6, extract_append _ _, ← h11, extract_append_extract _ _ _]

theorem roundTrips_wordIO {op : BitVec 5} {pat : Word} {mk : Reg → BitVec 6 → Instr}
    (henc : ∀ d a, encode (mk d a) = [wordIO op d a])
    (hwf : ∀ d a, wellFormed (mk d a) = true)
    (hp : pat = wordIO op 0 0) (hc : wordCount pat = 1) :
    Row.RoundTrips ⟨pat, 0xF800, fun w _ => mk (fieldD w) (fieldA6 w)⟩ :=
  .of_one hc fun w h => ⟨hwf _ _, by rw [henc, wordIO_of_fits (h.trans hp)]⟩

/-! Format LSQ: loads and stores with displacement. -/

theorem wordLSQ_fixed (store y : BitVec 1) (d : Reg) (q : BitVec 6) :
    wordLSQ store y d q &&& 0xD208 = wordLSQ store y 0 0 &&& 0xD208 := by
  rw [show (0xD208 : Word) = 0b11#2 ++ 0#1 ++ 0b1#1 ++ 0#2 ++ 0b1#1 ++ 0#5 ++ 0b1#1 ++ 0#3 by rfl]
  simp only [wordLSQ, BitVec.and_append (w := _) (v := _), BitVec.and_zero]

theorem decodeWord_wordLSQ {store y : BitVec 1} {pat w2 : Word} {mk : Reg → BitVec 6 → Instr} {d : Reg}
    {q : BitVec 6}
    (h : rowOf (wordLSQ store y 0 0) = some ⟨pat, 0xD208, fun w _ => mk (fieldD w) (fieldQ w)⟩) :
    decodeWord (wordLSQ store y d q) w2 = some (mk d q) := by
  have hd : fieldD (wordLSQ store y d q) = d := by
    simp [fieldD, wordLSQ, extract_append _ _, toFin_field]
  have hq : fieldQ (wordLSQ store y d q) = q := by
    simp [fieldQ, wordLSQ, extract_append _ _, extract_append_extract _ _ _]
  have hrow := decodeWord_of_rowOf h (wordLSQ_fixed store y d q) w2
  simpa only [hd, hq] using hrow

theorem wordLSQ_of_fits {store y : BitVec 1} {w : Word} (h : w &&& 0xD208 = wordLSQ store y 0 0) :
    wordLSQ store y (fieldD w) (fieldQ w) = w := by
  have h14 : w.extractLsb' 14 2 = 0b10#2 := by
    simpa [wordLSQ, extract_append _ _] using extract_of_pattern h 14 2 rfl
  have h12 : w.extractLsb' 12 1 = 0#1 := by
    simpa [wordLSQ, extract_append _ _] using extract_of_pattern h 12 1 rfl
  have h9 : w.extractLsb' 9 1 = store := by
    simpa [wordLSQ, extract_append _ _] using extract_of_pattern h 9 1 rfl
  have h3 : w.extractLsb' 3 1 = y := by
    simpa [wordLSQ, extract_append _ _] using extract_of_pattern h 3 1 rfl
  simp [wordLSQ, field_fieldD, fieldQ, extract_append _ _, ← h14, ← h12, ← h9, ← h3, extract_append_extract _ _ _]

theorem roundTrips_wordLSQ {store y : BitVec 1} {pat : Word} {mk : Reg → BitVec 6 → Instr}
    (henc : ∀ d q, encode (mk d q) = [wordLSQ store y d q])
    (hwf : ∀ d q, wellFormed (mk d q) = true)
    (hp : pat = wordLSQ store y 0 0) (hc : wordCount pat = 1) :
    Row.RoundTrips ⟨pat, 0xD208, fun w _ => mk (fieldD w) (fieldQ w)⟩ :=
  .of_one hc fun w h => ⟨hwf _ _, by rw [henc, wordLSQ_of_fits (h.trans hp)]⟩

/-! Format M3: the multiplications of R16 to R23. -/

theorem wordM3_fixed (hi lo : BitVec 1) (d r : Reg) :
    wordM3 hi lo d r &&& 0xFF88 = wordM3 hi lo 16 16 &&& 0xFF88 := by
  rw [show (0xFF88 : Word) = 0b11111111#8 ++ 0b1#1 ++ 0#3 ++ 0b1#1 ++ 0#3 by rfl]
  simp only [wordM3, BitVec.and_append (w := _) (v := _), BitVec.and_zero]

theorem decodeWord_wordM3 {hi lo : BitVec 1} {pat w2 : Word} {mk : Reg → Reg → Instr} {d r : Reg}
    (h : rowOf (wordM3 hi lo 16 16) = some ⟨pat, 0xFF88, fun w _ => mk (fieldMidD w) (fieldMidR w)⟩)
    (hwf : (d.isMid && r.isMid) = true) :
    decodeWord (wordM3 hi lo d r) w2 = some (mk d r) := by
  obtain ⟨hd, hr⟩ := Bool.and_eq_true_iff.mp hwf
  have hd : fieldMidD (wordM3 hi lo d r) = d := by
    simp [fieldMidD, wordM3, extract_append _ _, mid_of_lowField hd]
  have hr : fieldMidR (wordM3 hi lo d r) = r := by
    simp [fieldMidR, wordM3, extract_append _ _, mid_of_lowField hr]
  have hrow := decodeWord_of_rowOf h (wordM3_fixed hi lo d r) w2
  simpa only [hd, hr] using hrow

theorem wordM3_of_fits {hi lo : BitVec 1} {w : Word} (h : w &&& 0xFF88 = wordM3 hi lo 16 16) :
    wordM3 hi lo (fieldMidD w) (fieldMidR w) = w := by
  have h8 : w.extractLsb' 8 8 = 0b00000011#8 := by
    simpa [wordM3, extract_append _ _] using extract_of_pattern h 8 8 rfl
  have h7 : w.extractLsb' 7 1 = hi := by
    simpa [wordM3, extract_append _ _] using extract_of_pattern h 7 1 rfl
  have h3 : w.extractLsb' 3 1 = lo := by
    simpa [wordM3, extract_append _ _] using extract_of_pattern h 3 1 rfl
  simp [wordM3, fieldMidD, lowField_of_mid, fieldMidR, ← h8, ← h7, ← h3, extract_append_extract _ _ _]

theorem roundTrips_wordM3 {hi lo : BitVec 1} {pat : Word} {mk : Reg → Reg → Instr}
    (henc : ∀ d r, encode (mk d r) = [wordM3 hi lo d r])
    (hwf : ∀ d r, wellFormed (mk d r) = (d.isMid && r.isMid))
    (hp : pat = wordM3 hi lo 16 16) (hc : wordCount pat = 1) :
    Row.RoundTrips ⟨pat, 0xFF88, fun w _ => mk (fieldMidD w) (fieldMidR w)⟩ :=
  .of_one hc fun w h => ⟨(hwf _ _).trans (Bool.and_eq_true_iff.mpr ⟨(lowField_of_mid _).1, (lowField_of_mid _).1⟩),
    by rw [henc, wordM3_of_fits (h.trans hp)]⟩

/-! The format of SBI, CBI, SBIC and SBIS. -/

theorem ioBit_fixed (op : BitVec 8) (a : BitVec 5) (b : BitVec 3) :
    (op ++ a ++ b) &&& 0xFF00 = (op ++ 0#5 ++ 0#3) &&& 0xFF00 := by
  rw [show (0xFF00 : Word) = 0b11111111#8 ++ 0#5 ++ 0#3 by rfl]
  simp only [BitVec.and_append (w := _) (v := _), BitVec.and_zero]

theorem decodeWord_ioBit {op : BitVec 8} {pat w2 : Word} {mk : BitVec 5 → BitVec 3 → Instr} {a : BitVec 5}
    {b : BitVec 3}
    (h : rowOf (op ++ 0#5 ++ 0#3) = some ⟨pat, 0xFF00, fun w _ => mk (fieldA5 w) (fieldB w)⟩) :
    decodeWord (op ++ a ++ b) w2 = some (mk a b) := by
  have ha : fieldA5 (op ++ a ++ b) = a := by
    simp [fieldA5, extract_append _ _]
  have hb : fieldB (op ++ a ++ b) = b := by
    simp [fieldB, extract_append _ _]
  have hrow := decodeWord_of_rowOf h (ioBit_fixed op a b) w2
  simpa only [ha, hb] using hrow

theorem ioBit_of_fits {op : BitVec 8} {w : Word} (h : w &&& 0xFF00 = op ++ 0#5 ++ 0#3) :
    op ++ fieldA5 w ++ fieldB w = w := by
  have h8 : w.extractLsb' 8 8 = op := by
    simpa [extract_append _ _] using extract_of_pattern h 8 8 rfl
  simp [fieldA5, fieldB, ← h8, extract_append_extract _ _ _]

theorem roundTrips_ioBit {op : BitVec 8} {pat : Word} {mk : BitVec 5 → BitVec 3 → Instr}
    (henc : ∀ a b, encode (mk a b) = [op ++ a ++ b])
    (hwf : ∀ a b, wellFormed (mk a b) = true)
    (hp : pat = op ++ 0#5 ++ 0#3) (hc : wordCount pat = 1) :
    Row.RoundTrips ⟨pat, 0xFF00, fun w _ => mk (fieldA5 w) (fieldB w)⟩ :=
  .of_one hc fun w h => ⟨hwf _ _, by rw [henc, ioBit_of_fits (h.trans hp)]⟩

/-! The format of BSET and BCLR. -/

theorem flagBit_fixed (op : BitVec 9) (s : BitVec 3) :
    (op ++ s ++ 0b1000#4) &&& 0xFF8F = (op ++ 0#3 ++ 0b1000#4) &&& 0xFF8F := by
  rw [show (0xFF8F : Word) = 0b111111111#9 ++ 0#3 ++ 0b1111#4 by rfl]
  simp only [BitVec.and_append (w := _) (v := _), BitVec.and_zero]

theorem decodeWord_flagBit {op : BitVec 9} {pat w2 : Word} {mk : BitVec 3 → Instr} {s : BitVec 3}
    (h : rowOf (op ++ 0#3 ++ 0b1000#4) = some ⟨pat, 0xFF8F, fun w _ => mk (fieldSreg w)⟩) :
    decodeWord (op ++ s ++ 0b1000#4) w2 = some (mk s) := by
  have hs : fieldSreg (op ++ s ++ 0b1000#4) = s := by
    simp [fieldSreg, extract_append _ _]
  have hrow := decodeWord_of_rowOf h (flagBit_fixed op s) w2
  simpa only [hs] using hrow

theorem flagBit_of_fits {op : BitVec 9} {w : Word} (h : w &&& 0xFF8F = op ++ 0#3 ++ 0b1000#4) :
    op ++ fieldSreg w ++ 0b1000#4 = w := by
  have h7 : w.extractLsb' 7 9 = op := by
    simpa [extract_append _ _] using extract_of_pattern h 7 9 rfl
  have h0 : w.extractLsb' 0 4 = 0b1000#4 := by
    simpa [extract_append _ _] using extract_of_pattern h 0 4 rfl
  simp [fieldSreg, ← h7, ← h0, extract_append_extract _ _ _]

theorem roundTrips_flagBit {op : BitVec 9} {pat : Word} {mk : BitVec 3 → Instr}
    (henc : ∀ s, encode (mk s) = [op ++ s ++ 0b1000#4])
    (hwf : ∀ s, wellFormed (mk s) = true)
    (hp : pat = op ++ 0#3 ++ 0b1000#4) (hc : wordCount pat = 1) :
    Row.RoundTrips ⟨pat, 0xFF8F, fun w _ => mk (fieldSreg w)⟩ :=
  .of_one hc fun w h => ⟨hwf _, by rw [henc, flagBit_of_fits (h.trans hp)]⟩

/-! The format of BRBS and BRBC. -/

theorem branch_fixed (op : BitVec 6) (s : BitVec 3) (k : BitVec 7) :
    (op ++ k ++ s) &&& 0xFC00 = (op ++ 0#7 ++ 0#3) &&& 0xFC00 := by
  rw [show (0xFC00 : Word) = 0b111111#6 ++ 0#7 ++ 0#3 by rfl]
  simp only [BitVec.and_append (w := _) (v := _), BitVec.and_zero]

theorem decodeWord_branch {op : BitVec 6} {pat w2 : Word} {mk : BitVec 3 → BitVec 7 → Instr} {s : BitVec 3}
    {k : BitVec 7}
    (h : rowOf (op ++ 0#7 ++ 0#3) = some ⟨pat, 0xFC00, fun w _ => mk (fieldB w) (fieldK7 w)⟩) :
    decodeWord (op ++ k ++ s) w2 = some (mk s k) := by
  have hs : fieldB (op ++ k ++ s) = s := by
    simp [fieldB, extract_append _ _]
  have hk : fieldK7 (op ++ k ++ s) = k := by
    simp [fieldK7, extract_append _ _]
  have hrow := decodeWord_of_rowOf h (branch_fixed op s k) w2
  simpa only [hs, hk] using hrow

theorem branch_of_fits {op : BitVec 6} {w : Word} (h : w &&& 0xFC00 = op ++ 0#7 ++ 0#3) :
    op ++ fieldK7 w ++ fieldB w = w := by
  have h10 : w.extractLsb' 10 6 = op := by
    simpa [extract_append _ _] using extract_of_pattern h 10 6 rfl
  simp [fieldB, fieldK7, ← h10, extract_append_extract _ _ _]

theorem roundTrips_branch {op : BitVec 6} {pat : Word} {mk : BitVec 3 → BitVec 7 → Instr}
    (henc : ∀ s k, encode (mk s k) = [op ++ k ++ s])
    (hwf : ∀ s k, wellFormed (mk s k) = true)
    (hp : pat = op ++ 0#7 ++ 0#3) (hc : wordCount pat = 1) :
    Row.RoundTrips ⟨pat, 0xFC00, fun w _ => mk (fieldB w) (fieldK7 w)⟩ :=
  .of_one hc fun w h => ⟨hwf _ _, by rw [henc, branch_of_fits (h.trans hp)]⟩

/-! The format of RJMP and RCALL. -/

theorem relJump_fixed (op : BitVec 4) (k : BitVec 12) :
    (op ++ k) &&& 0xF000 = (op ++ 0#12) &&& 0xF000 := by
  rw [show (0xF000 : Word) = 0b1111#4 ++ 0#12 by rfl]
  simp only [BitVec.and_append (w := _) (v := _), BitVec.and_zero]

theorem decodeWord_relJump {op : BitVec 4} {pat w2 : Word} {mk : BitVec 12 → Instr} {k : BitVec 12}
    (h : rowOf (op ++ 0#12) = some ⟨pat, 0xF000, fun w _ => mk (fieldK12 w)⟩) :
    decodeWord (op ++ k) w2 = some (mk k) := by
  have hk : fieldK12 (op ++ k) = k := by
    simp [fieldK12, extract_append _ _]
  have hrow := decodeWord_of_rowOf h (relJump_fixed op k) w2
  simpa only [hk] using hrow

theorem relJump_of_fits {op : BitVec 4} {w : Word} (h : w &&& 0xF000 = op ++ 0#12) :
    op ++ fieldK12 w = w := by
  have h12 : w.extractLsb' 12 4 = op := by
    simpa [extract_append _ _] using extract_of_pattern h 12 4 rfl
  simp [fieldK12, ← h12, extract_append_extract _ _ _]

theorem roundTrips_relJump {op : BitVec 4} {pat : Word} {mk : BitVec 12 → Instr}
    (henc : ∀ k, encode (mk k) = [op ++ k])
    (hwf : ∀ k, wellFormed (mk k) = true)
    (hp : pat = op ++ 0#12) (hc : wordCount pat = 1) :
    Row.RoundTrips ⟨pat, 0xF000, fun w _ => mk (fieldK12 w)⟩ :=
  .of_one hc fun w h => ⟨hwf _, by rw [henc, relJump_of_fits (h.trans hp)]⟩

/-! The format of MOVW. -/

theorem movw_fixed (d r : Reg) :
    (0b00000001#8 ++ d.pairField ++ r.pairField) &&& 0xFF00 = (0b00000001#8 ++ 0#4 ++ 0#4) &&& 0xFF00 := by
  rw [show (0xFF00 : Word) = 0b11111111#8 ++ 0#4 ++ 0#4 by rfl]
  simp only [BitVec.and_append (w := _) (v := _), BitVec.and_zero]

theorem decodeWord_movw {pat w2 : Word} {mk : Reg → Reg → Instr} {d r : Reg}
    (h : rowOf (0b00000001#8 ++ 0#4 ++ 0#4) = some ⟨pat, 0xFF00, fun w _ => mk (fieldPairD w) (fieldPairR w)⟩)
    (hwf : (d.isEven && r.isEven) = true) :
    decodeWord (0b00000001#8 ++ d.pairField ++ r.pairField) w2 = some (mk d r) := by
  obtain ⟨hd, hr⟩ := Bool.and_eq_true_iff.mp hwf
  have hd : fieldPairD (0b00000001#8 ++ d.pairField ++ r.pairField) = d := by
    simp [fieldPairD, extract_append _ _, even_of_pairField hd]
  have hr : fieldPairR (0b00000001#8 ++ d.pairField ++ r.pairField) = r := by
    simp [fieldPairR, extract_append _ _, even_of_pairField hr]
  have hrow := decodeWord_of_rowOf h (movw_fixed d r) w2
  simpa only [hd, hr] using hrow

theorem movw_of_fits {w : Word} (h : w &&& 0xFF00 = 0b00000001#8 ++ 0#4 ++ 0#4) :
    0b00000001#8 ++ (fieldPairD w).pairField ++ (fieldPairR w).pairField = w := by
  have h8 : w.extractLsb' 8 8 = 0b00000001#8 := by
    simpa [extract_append _ _] using extract_of_pattern h 8 8 rfl
  simp [fieldPairD, pairField_of_even, fieldPairR, ← h8, extract_append_extract _ _ _]

theorem roundTrips_movw {pat : Word} {mk : Reg → Reg → Instr}
    (henc : ∀ d r, encode (mk d r) = [0b00000001#8 ++ d.pairField ++ r.pairField])
    (hwf : ∀ d r, wellFormed (mk d r) = (d.isEven && r.isEven))
    (hp : pat = 0b00000001#8 ++ 0#4 ++ 0#4) (hc : wordCount pat = 1) :
    Row.RoundTrips ⟨pat, 0xFF00, fun w _ => mk (fieldPairD w) (fieldPairR w)⟩ :=
  .of_one hc fun w h => ⟨(hwf _ _).trans (Bool.and_eq_true_iff.mpr ⟨(pairField_of_even _).1, (pairField_of_even _).1⟩),
    by rw [henc, movw_of_fits (h.trans hp)]⟩

/-! The format of MULS. -/

theorem muls_fixed (d r : Reg) :
    (0b00000010#8 ++ d.lowField 4 ++ r.lowField 4) &&& 0xFF00 = (0b00000010#8 ++ 0#4 ++ 0#4) &&& 0xFF00 := by
  rw [show (0xFF00 : Word) = 0b11111111#8 ++ 0#4 ++ 0#4 by rfl]
  simp only [BitVec.and_append (w := _) (v := _), BitVec.and_zero]

theorem decodeWord_muls {pat w2 : Word} {mk : Reg → Reg → Instr} {d r : Reg}
    (h : rowOf (0b00000010#8 ++ 0#4 ++ 0#4) = some ⟨pat, 0xFF00, fun w _ => mk (fieldUpperD w) (fieldUpperR w)⟩)
    (hwf : (d.isUpper && r.isUpper) = true) :
    decodeWord (0b00000010#8 ++ d.lowField 4 ++ r.lowField 4) w2 = some (mk d r) := by
  obtain ⟨hd, hr⟩ := Bool.and_eq_true_iff.mp hwf
  have hd : fieldUpperD (0b00000010#8 ++ d.lowField 4 ++ r.lowField 4) = d := by
    simp [fieldUpperD, extract_append _ _, upper_of_lowField hd]
  have hr : fieldUpperR (0b00000010#8 ++ d.lowField 4 ++ r.lowField 4) = r := by
    simp [fieldUpperR, extract_append _ _, upper_of_lowField hr]
  have hrow := decodeWord_of_rowOf h (muls_fixed d r) w2
  simpa only [hd, hr] using hrow

theorem muls_of_fits {w : Word} (h : w &&& 0xFF00 = 0b00000010#8 ++ 0#4 ++ 0#4) :
    0b00000010#8 ++ (fieldUpperD w).lowField 4 ++ (fieldUpperR w).lowField 4 = w := by
  have h8 : w.extractLsb' 8 8 = 0b00000010#8 := by
    simpa [extract_append _ _] using extract_of_pattern h 8 8 rfl
  simp [fieldUpperD, lowField_of_upper, fieldUpperR, ← h8, extract_append_extract _ _ _]

theorem roundTrips_muls {pat : Word} {mk : Reg → Reg → Instr}
    (henc : ∀ d r, encode (mk d r) = [0b00000010#8 ++ d.lowField 4 ++ r.lowField 4])
    (hwf : ∀ d r, wellFormed (mk d r) = (d.isUpper && r.isUpper))
    (hp : pat = 0b00000010#8 ++ 0#4 ++ 0#4) (hc : wordCount pat = 1) :
    Row.RoundTrips ⟨pat, 0xFF00, fun w _ => mk (fieldUpperD w) (fieldUpperR w)⟩ :=
  .of_one hc fun w h => ⟨(hwf _ _).trans (Bool.and_eq_true_iff.mpr ⟨(lowField_of_upper _).1, (lowField_of_upper _).1⟩),
    by rw [henc, muls_of_fits (h.trans hp)]⟩

/-! Format LS: format R1 with a second word, LDS and STS. -/

theorem decodeWord_wordLS {op : BitVec 7} {low : BitVec 4} {pat k : Word} {mk : Reg → Word → Instr} {d : Reg}
    (h : rowOf (wordR1 op 0 low) = some ⟨pat, 0xFE0F, fun w w2 => mk (fieldD w) w2⟩) :
    decodeWord (wordR1 op d low) k = some (mk d k) := by
  have hd : fieldD (wordR1 op d low) = d := by
    simp [fieldD, wordR1, extract_append _ _, toFin_field]
  have hrow := decodeWord_of_rowOf h (wordR1_fixed op low d) k
  simpa only [hd] using hrow

theorem roundTrips_wordLS {op : BitVec 7} {low : BitVec 4} {pat : Word} {mk : Reg → Word → Instr}
    (henc : ∀ d k, encode (mk d k) = [wordR1 op d low, k])
    (hwf : ∀ d k, wellFormed (mk d k) = true)
    (hp : pat = wordR1 op 0 low) (hc : wordCount pat = 2) :
    Row.RoundTrips ⟨pat, 0xFE0F, fun w w2 => mk (fieldD w) w2⟩ :=
  .of_two hc fun w w2 h => ⟨hwf _ _, by rw [henc, wordR1_of_fits (h.trans hp)]⟩

/-! Format ABS: JMP and CALL. -/

theorem wordABS_fixed (op : BitVec 3) (k : PcWord) :
    wordABS op k &&& 0xFE0E = wordABS op 0 &&& 0xFE0E := by
  rw [show (0xFE0E : Word) = 0b1111111#7 ++ 0#5 ++ 0b111#3 ++ 0#1 by rfl]
  simp only [wordABS, BitVec.and_append (w := _) (v := _), BitVec.and_zero]

theorem decodeWord_wordABS {op : BitVec 3} {pat : Word} {mk : PcWord → Instr} {k : PcWord}
    (h : rowOf (wordABS op 0) = some ⟨pat, 0xFE0E, fun w w2 => mk (fieldK22 w w2)⟩) :
    decodeWord (wordABS op k) (k.extractLsb' 0 16) = some (mk k) := by
  have hk : fieldK22 (wordABS op k) (k.extractLsb' 0 16) = k := by
    simp [fieldK22, wordABS, extract_append _ _, extract_append_extract _ _ _]
  have hrow := decodeWord_of_rowOf h (wordABS_fixed op k) (k.extractLsb' 0 16)
  simpa only [hk] using hrow

theorem wordABS_of_fits {op : BitVec 3} {w : Word} (h : w &&& 0xFE0E = wordABS op 0) (w2 : Word) :
    wordABS op (fieldK22 w w2) = w := by
  have h9 : w.extractLsb' 9 7 = 0b1001010#7 := by
    simpa [wordABS, extract_append _ _] using extract_of_pattern h 9 7 rfl
  have h1 : w.extractLsb' 1 3 = op := by
    simpa [wordABS, extract_append _ _] using extract_of_pattern h 1 3 rfl
  simp [wordABS, fieldK22, extract_append _ _, ← h9, ← h1, extract_append_extract _ _ _]

theorem roundTrips_wordABS {op : BitVec 3} {pat : Word} {mk : PcWord → Instr}
    (henc : ∀ k, encode (mk k) = [wordABS op k, k.extractLsb' 0 16])
    (hwf : ∀ k, wellFormed (mk k) = true)
    (hp : pat = wordABS op 0) (hc : wordCount pat = 2) :
    Row.RoundTrips ⟨pat, 0xFE0E, fun w w2 => mk (fieldK22 w w2)⟩ :=
  .of_two hc fun w w2 h => ⟨hwf _, by
    rw [henc, wordABS_of_fits (h.trans hp), fieldK22, BitVec.extractLsb'_append_eq_right]⟩

end Sys2Proof
end

section
/-! PROOFS. The decoder and the encoder agree (O42, O43): every row of the opcode map gives back its words, and every
instruction has a row. The words of R124 fit no row (O44). -/

namespace Sys2Proof

/-! Every row gives back its words, by regions (R110 to R122). -/

theorem regionZero_roundTrips : ∀ row ∈ regionZero, row.RoundTrips := by
  simp only [regionZero, List.forall_mem_cons]
  refine ⟨roundTrips_fixed rfl rfl rfl, roundTrips_movw (fun _ _ => rfl) (fun _ _ => rfl) rfl rfl,
    roundTrips_muls (fun _ _ => rfl) (fun _ _ => rfl) rfl rfl, ?mulsu, ?fmul, ?fmuls, ?fmulsu, ?cpc, ?sbc, ?add, nofun⟩
  case mulsu | fmul | fmuls | fmulsu => exact roundTrips_wordM3 (fun _ _ => rfl) (fun _ _ => rfl) rfl rfl
  case cpc | sbc | add => exact roundTrips_wordRR (fun _ _ => rfl) (fun _ _ => rfl) rfl rfl

theorem regionTwoRegs_roundTrips : ∀ row ∈ regionTwoRegs, row.RoundTrips := by
  simp only [regionTwoRegs, List.forall_mem_cons, List.not_mem_nil, false_implies, implies_true, and_true]
  and_intros
  all_goals exact roundTrips_wordRR (fun _ _ => rfl) (fun _ _ => rfl) rfl rfl

theorem regionImmediate_roundTrips : ∀ row ∈ regionImmediate, row.RoundTrips := by
  simp only [regionImmediate, List.forall_mem_cons, List.not_mem_nil, false_implies, implies_true, and_true]
  and_intros
  all_goals exact roundTrips_wordRI (fun _ _ => rfl) (fun _ _ => rfl) rfl rfl

theorem regionDisplacement_roundTrips : ∀ row ∈ regionDisplacement, row.RoundTrips := by
  simp only [regionDisplacement, List.forall_mem_cons, List.not_mem_nil, false_implies, implies_true, and_true]
  and_intros
  · exact roundTrips_wordLSQ (mk := .lddY) (fun _ _ => rfl) (fun _ _ => rfl) rfl rfl
  · exact roundTrips_wordLSQ (mk := .lddZ) (fun _ _ => rfl) (fun _ _ => rfl) rfl rfl
  · exact roundTrips_wordLSQ (mk := fun r q => .stdY q r) (fun _ _ => rfl) (fun _ _ => rfl) rfl rfl
  · exact roundTrips_wordLSQ (mk := fun r q => .stdZ q r) (fun _ _ => rfl) (fun _ _ => rfl) rfl rfl

theorem regionLoad_roundTrips : ∀ row ∈ regionLoad, row.RoundTrips := by
  simp only [regionLoad, List.forall_mem_cons, List.not_mem_nil, false_implies, implies_true, and_true]
  refine ⟨roundTrips_wordLS (mk := .lds) (fun _ _ => rfl) (fun _ _ => rfl) rfl rfl, ?_⟩
  and_intros
  all_goals exact roundTrips_wordR1 (fun _ => rfl) (fun _ => rfl) rfl rfl

theorem regionStore_roundTrips : ∀ row ∈ regionStore, row.RoundTrips := by
  simp only [regionStore, List.forall_mem_cons, List.not_mem_nil, false_implies, implies_true, and_true]
  refine ⟨roundTrips_wordLS (mk := fun r k => .sts k r) (fun _ _ => rfl) (fun _ _ => rfl) rfl rfl, ?_⟩
  and_intros
  all_goals exact roundTrips_wordR1 (fun _ => rfl) (fun _ => rfl) rfl rfl

theorem regionOneReg_roundTrips : ∀ row ∈ regionOneReg, row.RoundTrips := by
  simp only [regionOneReg, List.forall_mem_cons, List.not_mem_nil, false_implies, implies_true, and_true]
  and_intros
  all_goals exact roundTrips_wordR1 (fun _ => rfl) (fun _ => rfl) rfl rfl

theorem regionFixed_roundTrips : ∀ row ∈ regionFixed, row.RoundTrips := by
  simp only [regionFixed, List.forall_mem_cons, List.not_mem_nil, false_implies, implies_true, and_true]
  refine ⟨roundTrips_flagBit (fun _ => rfl) (fun _ => rfl) rfl rfl,
    roundTrips_flagBit (fun _ => rfl) (fun _ => rfl) rfl rfl, ?_⟩
  and_intros
  all_goals exact roundTrips_fixed rfl rfl rfl

theorem regionAbsolute_roundTrips : ∀ row ∈ regionAbsolute, row.RoundTrips := by
  simp only [regionAbsolute, List.forall_mem_cons]
  refine ⟨?jmp, ?call, ?adiw, ?sbiw, ?cbi, ?sbic, ?sbi, ?sbis,
    roundTrips_wordRR (fun _ _ => rfl) (fun _ _ => rfl) rfl rfl, nofun⟩
  case jmp | call => exact roundTrips_wordABS (fun _ => rfl) (fun _ => rfl) rfl rfl
  case adiw | sbiw => exact roundTrips_wordWI (fun _ _ => rfl) (fun _ _ => rfl) rfl rfl
  case cbi | sbic | sbi | sbis => exact roundTrips_ioBit (fun _ _ => rfl) (fun _ _ => rfl) rfl rfl

theorem regionHigh_roundTrips : ∀ row ∈ regionHigh, row.RoundTrips := by
  simp only [regionHigh, List.forall_mem_cons]
  refine ⟨roundTrips_wordIO (mk := .inIo) (fun _ _ => rfl) (fun _ _ => rfl) rfl rfl,
    roundTrips_wordIO (mk := fun r a => .outIo a r) (fun _ _ => rfl) (fun _ _ => rfl) rfl rfl, ?rjmp, ?rcall, ?brbs,
    ?brbc, ?bld, ?bst, ?sbrc, ?sbrs, nofun⟩
  case rjmp | rcall => exact roundTrips_relJump (fun _ => rfl) (fun _ => rfl) rfl rfl
  case brbs | brbc => exact roundTrips_branch (fun _ _ => rfl) (fun _ _ => rfl) rfl rfl
  case bld | bst | sbrc | sbrs => exact roundTrips_wordRB (fun _ _ => rfl) (fun _ _ => rfl) rfl rfl

theorem opcodeMap_roundTrips : ∀ row ∈ opcodeMap, row.RoundTrips := by
  simp only [opcodeMap, List.forall_mem_append]
  exact ⟨⟨⟨⟨⟨⟨⟨⟨⟨regionZero_roundTrips, regionTwoRegs_roundTrips⟩, regionImmediate_roundTrips⟩,
    regionDisplacement_roundTrips⟩, regionLoad_roundTrips⟩, regionStore_roundTrips⟩, regionOneReg_roundTrips⟩,
    regionFixed_roundTrips⟩, regionAbsolute_roundTrips⟩, regionHigh_roundTrips⟩

/-! The number of words is the row's (R101). -/

/-- Whether a row differs from a pattern in a bit that both fix. -/
def Row.contradicts (row : Row) (m p : Word) : Bool := row.mask &&& m &&& (row.pat ^^^ p) != 0

theorem Row.not_fits_of_contradicts {row : Row} {m p w : Word} (h : row.contradicts m p = true)
    (hw : w &&& row.mask = row.pat) : w &&& m ≠ p := fun hm =>
  Row.not_both (y := ⟨p, m, fun _ _ => .nop⟩) (bne_iff_ne.mp h) (Row.matches_iff.mpr hw) (Row.matches_iff.mpr hm)

/-- Whether a row fixes all the bits that a pattern fixes, or contradicts it. -/
def Row.decides (row : Row) (m p : Word) : Bool := row.mask &&& m == m || row.contradicts m p

/-- A word that fits a row meets a pattern that the row decides just when the row's own pattern does. -/
theorem Row.pattern_iff_of_decides {row : Row} {m p w : Word} (h : row.decides m p = true)
    (hw : w &&& row.mask = row.pat) : w &&& m = p ↔ row.pat &&& m = p := by
  rcases Bool.or_eq_true_iff.mp h with h | h
  · rw [← hw, BitVec.and_assoc, beq_iff_eq.mp h]
  · have hpat : row.pat &&& row.mask = row.pat := by rw [← hw, BitVec.and_assoc, BitVec.and_self]
    exact iff_of_false (row.not_fits_of_contradicts h hw) (row.not_fits_of_contradicts h hpat)

/-- Every row decides the two patterns of the two-word instructions. -/
theorem opcodeMap_decides_wordCount :
    opcodeMap.all (fun row => row.decides 0xFE0C 0x940C && row.decides 0xFC0F 0x9000) = true := by decide +kernel

theorem wordCount_of_fits {row : Row} (hm : row ∈ opcodeMap) {w : Word} (hw : w &&& row.mask = row.pat) :
    wordCount w = wordCount row.pat := by
  obtain ⟨hjump, hdata⟩ := Bool.and_eq_true_iff.mp (List.all_eq_true.mp opcodeMap_decides_wordCount row hm)
  unfold wordCount
  simp only [Row.pattern_iff_of_decides hjump hw, Row.pattern_iff_of_decides hdata hw]

/-- Settles O43: the word fits the row that reads it, and every row gives back its words. -/
theorem encodeOfDecode : Obligations.EncodeOfDecode := by
  intro w w2 i h
  obtain ⟨row, hrow, rfl⟩ := Option.map_eq_some_iff.mp h
  obtain ⟨hm, hw⟩ := rowOf_some hrow
  rw [wordCount_of_fits hm hw]
  exact opcodeMap_roundTrips row hm w w2 hw

/-! Every instruction has a row. -/

theorem Instr.base_base (i : Instr) : i.base.base = i.base := by
  cases i <;> rfl

theorem wellFormed_base {i : Instr} (h : wellFormed i = true) : wellFormed i.base = true := by
  cases i <;> exact h

theorem encode_base (i : Instr) : encode i.base = encode i := congrArg encodeCore i.base_base

/-- The second word of an instruction, 0 where it has none. -/
def Instr.secondWord (i : Instr) : Word := (encode i).getD 1 0

/-- The words of a well-formed core instruction decode to it. The cases go by the format. -/
theorem decodeWord_core {i : Instr} (hc : i.base = i) (hw : wellFormed i = true) :
    decodeWord (firstWord i) i.secondWord = some i := by
  cases i with
  | add | adc | sub | sbc | cp | cpc | cpse | and | or | eor | mov | mul => exact decodeWord_wordRR rfl
  | subi | sbci | cpi | andi | ori | ldi => exact decodeWord_wordRI rfl hw
  | adiw | sbiw => exact decodeWord_wordWI rfl hw
  | movw => exact decodeWord_movw rfl hw
  | muls => exact decodeWord_muls rfl hw
  | mulsu | fmul | fmuls | fmulsu => exact decodeWord_wordM3 rfl hw
  | inc | dec | neg | com | asr | lsr | ror | swap | ldX | ldXInc | ldXDec | ldYInc | ldYDec | ldZInc | ldZDec | stX
  | stXInc | stXDec | stYInc | stYDec | stZInc | stZDec | lpmZ | lpmZInc | elpmZ | elpmZInc | push | pop =>
    exact decodeWord_wordR1 rfl
  | lds => exact decodeWord_wordLS rfl
  | sts => exact decodeWord_wordLS (mk := fun r k => .sts k r) rfl
  | lddY | lddZ => exact decodeWord_wordLSQ rfl
  | stdY => exact decodeWord_wordLSQ (mk := fun r q => .stdY q r) rfl
  | stdZ => exact decodeWord_wordLSQ (mk := fun r q => .stdZ q r) rfl
  | inIo => exact decodeWord_wordIO rfl
  | outIo => exact decodeWord_wordIO (mk := fun r a => .outIo a r) rfl
  | bld | bst | sbrc | sbrs => exact decodeWord_wordRB rfl
  | bset | bclr => exact decodeWord_flagBit rfl
  | sbi | cbi | sbic | sbis => exact decodeWord_ioBit rfl
  | brbs | brbc => exact decodeWord_branch rfl
  | rjmp | rcall => exact decodeWord_relJump rfl
  | jmp | call => exact decodeWord_wordABS rfl
  | ijmp | eijmp | icall | eicall | ret | reti | lpm | elpm | nop | brk | sleep | wdr | spm =>
    exact decodeWord_fixed rfl
  | _ => nomatch hc

/-! Bytes and words (R69, R100). -/

theorem takeWord_bytesOfWord (w : Word) (rest : List Byte) : takeWord (bytesOfWord w ++ rest) = some (w, rest) := by
  have hw : wordOfBytes (w.extractLsb' 0 8) (w.extractLsb' 8 8) = w := BitVec.extractLsb'_append_extractLsb'
  simp only [bytesOfWord, List.cons_append, List.nil_append, takeWord, hw]

theorem decode_one_word {w : Word} {i : Instr} (hc : wordCount w ≠ 2) (hd : decodeWord w 0 = some i)
    (rest : List Byte) : decode (bytesOfWord w ++ rest) = .ok (i, rest) := by
  simp only [decode, takeWord_bytesOfWord, if_neg hc, hd]

theorem decode_two_words {w w2 : Word} {i : Instr} (hc : wordCount w = 2) (hd : decodeWord w w2 = some i)
    (rest : List Byte) : decode (bytesOfWord w ++ (bytesOfWord w2 ++ rest)) = .ok (i, rest) := by
  simp only [decode, takeWord_bytesOfWord, if_pos hc, hd]

/-- Settles O42: the words of the core instruction decode to it, and what they decode to tells how many they are
(O43). -/
theorem decodeOfEncode : Obligations.DecodeOfEncode := by
  intro i rest hw
  have hd := decodeWord_core i.base_base (wellFormed_base hw)
  obtain ⟨-, henc⟩ := encodeOfDecode _ _ _ hd
  rw [encodeBytes, ← encode_base]
  by_cases hc : wordCount (firstWord i.base) = 2
  · rw [henc, if_pos hc]
    simpa using decode_two_words hc hd rest
  · rw [if_neg hc] at henc
    have hsecond : i.base.secondWord = 0 := by rw [Instr.secondWord, henc]; rfl
    rw [hsecond] at hd
    rw [henc]
    simpa using decode_one_word hc hd rest

/-! Words of no row (R124). -/

/-- Whether every row contradicts a pattern, but for rows of one word that are excepted. -/
def unassignedBut (except : List Word) (m p : Word) : Bool :=
  opcodeMap.all fun row => row.contradicts m p || (row.mask == 0xFFFF && except.contains row.pat)

theorem decodeWord_of_unassignedBut {except : List Word} {m p w : Word} (h : unassignedBut except m p = true)
    (hw : w &&& m = p) (hout : w ∉ except) (w2 : Word) : decodeWord w w2 = none := by
  refine decodeWord_none w2 fun row hm => Bool.eq_false_iff.mpr fun hfit => ?_
  have hfit := Row.matches_iff.mp hfit
  rcases Bool.or_eq_true_iff.mp (List.all_eq_true.mp h row hm) with hdiff | hexc
  · exact row.not_fits_of_contradicts hdiff hfit hw
  · obtain ⟨hmask, hin⟩ := Bool.and_eq_true_iff.mp hexc
    have hpat : w = row.pat := by rw [← hfit, beq_iff_eq.mp hmask]; exact BitVec.and_allOnes.symm
    exact hout (hpat ▸ List.contains_iff_mem.mp hin)

theorem unassigned_registerWords :
    [0x9007#16, 0x9008#16, 0x900B#16, 0x9203#16, 0x9204#16, 0x9205#16, 0x9206#16, 0x9207#16, 0x9208#16, 0x920B#16,
      0x9404#16, 0x940B#16].all (unassignedBut [] 0xFE0F) = true := by decide +kernel

theorem unassigned_singleWords :
    [0x9528#16, 0x9538#16, 0x9548#16, 0x9558#16, 0x9568#16, 0x9578#16, 0x95B8#16, 0x95F8#16].all
      (unassignedBut [] 0xFFFF) = true := by decide +kernel

/-- Settles O44: each row of the table is a pattern that every row of the opcode map contradicts, but for NOP in the
first and the indirect jumps and calls in the third. -/
theorem unassignedWords : Obligations.UnassignedWords := by
  rintro w w2 (⟨hw, hne⟩ | hmem | ⟨hw, hout⟩ | hmem | hw)
  · exact decodeWord_of_unassignedBut (except := [0]) (by decide +kernel) hw (by simpa using hne) w2
  · exact decodeWord_of_unassignedBut (List.all_eq_true.mp unassigned_registerWords _ hmem) rfl List.not_mem_nil w2
  · exact decodeWord_of_unassignedBut (by decide +kernel) hw hout w2
  · exact decodeWord_of_unassignedBut (List.all_eq_true.mp unassigned_singleWords w hmem) BitVec.and_allOnes
      List.not_mem_nil w2
  · exact decodeWord_of_unassignedBut (except := []) (by decide +kernel) hw List.not_mem_nil w2

/-- Settles O41: the words written out are those of the instructions. -/
theorem wordsDecode : Obligations.WordsDecode :=
  ⟨decodeWord_core (i := .add 16 17) rfl rfl,
    decodeWord_core (i := .adiw 26 63) rfl rfl,
    decodeWord_core (i := .andi 16 0x0F) rfl rfl,
    decodeWord_core (i := .asr 16) rfl rfl,
    decodeWord_core (i := .sbi 0x18 7) rfl rfl,
    decodeWord_core (i := .brbc 1 0x7E) rfl rfl,
    decodeWord_core (i := .jmp 0x3F1234) rfl rfl,
    decodeWord_core (i := .lddZ 31 63) rfl rfl,
    decodeWord_core (i := .outIo 0x3E 16) rfl rfl,
    decodeWord_core (i := .sts 0x0100 16) rfl rfl,
    decodeWord_core (i := .mulsu 23 22) rfl rfl,
    decodeWord_core (i := .sleep) rfl rfl⟩

end Sys2Proof
end

section
/-! PROOFS. Comparison: CP leaves the equality, the unsigned and the signed order of its operands in Z, C and S, which the
branches read (O7) and CPC carries on to words (O9). -/

namespace Sys2Proof.Machine

/-! The order of two bytes in the flags of their difference. -/

/-- A number of nine bits is negative when exactly one of these holds: its remainder has bit 7 set, it overflows. -/
theorem negative_iff_bit7_xor_overflows {x : Int} (hlow : -256 ≤ x) (hhigh : x < 256) :
    (decide (128 ≤ x % 256) ^^ overflows 8 x) = decide (x < 0) := by
  apply bool_eq_of_iff
  by_cases hv : x < -128 ∨ 128 ≤ x
  · have hV : overflows 8 x = true := by simpa [overflows] using hv
    simp [hV]
    omega
  · have hV : overflows 8 x = false := by simpa [overflows] using hv
    simp [hV]
    omega

/-- S of a subtraction is the sign of the exact difference: N is wrong exactly when V is set (R36, R41). -/
theorem subSreg_sign (old a b : Byte) (z : Bool) {c : Nat} (hc : c ≤ 1) :
    (subSreg old a b c z).getLsbD 4 = decide (a.toInt < b.toInt + c) := by
  obtain ⟨-, -, -, -, hS, -⟩ := packSreg_bits _ _ _ _ _ _ _ _
  have hmod : ((a.toNat : Int) - b.toNat - c) % 256 = (a.toInt - b.toInt - c) % 256 := by
    rw [toInt_byte, toInt_byte]
    split <;> split <;> omega
  have ha := a.toInt_lt
  have ha' := a.le_toInt
  have hb := b.toInt_lt
  have hb' := b.le_toInt
  refine hS.trans ?_
  rw [hmod, negative_iff_bit7_xor_overflows (by omega) (by omega)]
  exact decide_eq_decide.mpr (by omega)

/-- What CPC leaves (R41, R154): its flags count the carry, and Z can only be cleared. -/
theorem cpc_observed (d r : Reg) (s : State) :
    ∃ t, exec (.cpc d r) s = .next t ∧ t.regs = s.regs ∧
      t.flag 1 = (decide (((s.reg d).toNat - (s.reg r).toNat - (s.flag 0).toNat : Int) % 256 = 0) && s.flag 1) ∧
      t.flag 0 = decide ((s.reg d).toNat < (s.reg r).toNat + (s.flag 0).toNat) ∧
      t.flag 4 = decide ((s.reg d).toInt < (s.reg r).toInt + (s.flag 0).toNat) := by
  obtain ⟨-, -, -, -, -, hcpc, -⟩ := subtractionClass d r 0 s
  obtain ⟨hC, hZ, -⟩ := packSreg_bits _ _ _ _ _ _ _ _
  exact ⟨_, hcpc, rfl, hZ, hC, subSreg_sign _ _ _ _ (Bool.toNat_le _)⟩

/-- What CP leaves (R41, R153, R156). -/
theorem cp_observed (d r : Reg) (s : State) :
    ∃ t, exec (.cp d r) s = .next t ∧ t.regs = s.regs ∧ t.flag 1 = decide (s.reg d = s.reg r) ∧
      t.flag 0 = decide ((s.reg d).toNat < (s.reg r).toNat) ∧
      t.flag 4 = decide ((s.reg d).toInt < (s.reg r).toInt) := by
  obtain ⟨-, -, -, -, hcp, -⟩ := subtractionClass d r 0 s
  obtain ⟨hC, hZ, -⟩ := packSreg_bits _ _ _ _ _ _ _ _
  have hequal : ((s.reg d).toNat - (s.reg r).toNat - (0 : Nat) : Int) % 256 = 0 ↔ s.reg d = s.reg r := by
    rw [BitVec.toNat_eq]
    omega
  refine ⟨_, hcp, rfl, hZ.trans ?_, hC, ?_⟩
  · rw [Bool.and_true]
    exact decide_eq_decide.mpr hequal
  · exact (subSreg_sign _ _ _ _ (Nat.zero_le 1)).trans (by rw [Int.natCast_zero, Int.add_zero])

/-! The branches. -/

theorem branchIf_of_flag {flag : Bool} {p : Prop} [Decidable p] (h : flag = decide p) (k : BitVec 7) (s : State) :
    branchIf flag k s = .next (if p then s.goTo (s.pc.toNat + 1 + k.toInt) 2 else s.after 1 1) := by
  rw [branchIf, s.jump_eq _ _ 2 (wrapPc_relTarget s k (by decide)), s.advance_eq, h]
  by_cases hp : p <;> simp [hp]

theorem branchIf_not_of_flag {flag : Bool} {p : Prop} [Decidable p] (h : flag = decide p) (k : BitVec 7) (s : State) :
    branchIf (!flag) k s = .next (if p then s.after 1 1 else s.goTo (s.pc.toNat + 1 + k.toInt) 2) := by
  rw [branchIf_of_flag (p := ¬p) (by rw [h, decide_not]) k s, ite_not]

/-- Settles O7: each branch reads the flag in which CP left the relation it tests, set or clear. -/
theorem compareThenBranch : Obligations.CompareThenBranch := by
  intro d r k s
  obtain ⟨t, ht, -, hZ, hC, hS⟩ := cp_observed d r s
  exact ⟨t, ht, branchIf_of_flag hZ k t, branchIf_not_of_flag hZ k t, branchIf_of_flag hC k t,
    branchIf_not_of_flag hC k t, branchIf_of_flag hS k t, branchIf_not_of_flag hS k t⟩

/-! Words. -/

/-- The order of words is that of the high bytes with the borrow of the low ones (R23), signed or not. -/
theorem lt_borrow_iff_word_lt (x y : Int) {m n : Nat} (hm : m < 256) (hn : n < 256) :
    x < y + (decide (m < n)).toNat ↔ x * 256 + m < y * 256 + n := by
  by_cases h : m < n
  · rw [decide_eq_true h, Bool.toNat_true]
    omega
  · rw [decide_eq_false h, Bool.toNat_false]
    omega

/-- Settles O9: the borrow of the low bytes decides between equal high bytes, and Z stays set only if CP set it. -/
theorem cpThenCpcComparesWords : Obligations.CpThenCpcComparesWords := by
  intro dl dh rl rh s
  obtain ⟨t, ht, tregs, tZ, tC, -⟩ := cp_observed dl rl s
  obtain ⟨u, hu, uregs, uZ, uC, uS⟩ := cpc_observed dh rh t
  have treg : ∀ q, t.reg q = s.reg q := fun q => by rw [State.reg, tregs]; rfl
  rw [treg, treg, tC] at uZ uC uS
  rw [tZ] at uZ
  have hl := (s.reg dl).isLt
  have hl' := (s.reg rl).isLt
  refine ⟨t, u, ht, hu, uregs.trans tregs, ?_, ?_, ?_⟩
  · rw [uZ]
    by_cases hlow : s.reg dl = s.reg rl
    · simp [hlow]
      omega
    · have := mt BitVec.eq_of_toNat_eq hlow
      simp [hlow]
      omega
  · exact uC.trans (decide_eq_decide.mpr (mod_cast lt_borrow_iff_word_lt (s.reg dh).toNat (s.reg rh).toNat hl hl'))
  · exact uS.trans (decide_eq_decide.mpr (lt_borrow_iff_word_lt _ _ hl hl'))

end Sys2Proof.Machine
end

section
/-! PROOFS. Left shifts, bit transfers and single bits of registers (O12 to O16): a bit written is `putBit`, in a register, in
SREG and in an I/O register, and a register added to itself is a register shifted to the left. -/

namespace Sys2Proof.Machine

/-! One bit written. -/

theorem flagWritten_putBit (x : Byte) (n : Nat) (b : Bool) : FlagWritten x (putBit x n b) n b := by
  intro k hk
  simp only [putBit_getLsbD, hk, and_true]

/-! The shared operations, in the words of the claims. -/

theorem writeReg_eq (d : Reg) {v w : Byte} (s : State) (h : v = w) :
    writeReg d v s = .next ((s.withReg d w).after 1 1) := by
  rw [writeReg, State.advance_eq, h]
  rfl

/-- A flag set; I set from 0 to 1 inhibits interrupts for one instruction (R200, R352). -/
theorem setFlag_written (n : Nat) (s : State) :
    ∃ f, FlagWritten s.sreg f n true ∧
      setFlag n s =
        .next ({ s with sreg := f, irqInhibit := s.irqInhibit || (decide (n = 7) && !s.flag 7) }.after 1 1) :=
  ⟨_, flagWritten_putBit s.sreg n true, congrArg _ (State.advance_eq _ 1 1)⟩

/-- A flag cleared (R201). -/
theorem clearFlag_written (n : Nat) (s : State) :
    ∃ f, FlagWritten s.sreg f n false ∧ clearFlag n s = .next ({ s with sreg := f }.after 1 1) :=
  ⟨_, flagWritten_putBit s.sreg n false, writeFlags_eq _ s⟩

/-- One bit of an I/O register written: the whole register is read once, and then written once (R74). -/
theorem modifyIo_putBit (a : BitVec 5) (n : Nat) (b : Bool) (s : State) :
    ∃ v t w u, ReadsAs (ioData a.toNat) s v t ∧ FlagWritten v w n b ∧ StoredAt (ioData a.toNat) w t u ∧
      modifyIo a (fun v => putBit v n b) s = .next (u.after 1 2) := by
  have ha : (a.setWidth 6).toNat = a.toNat := BitVec.toNat_setWidth_of_le (by decide)
  have hread := ioRead_reads (a.setWidth 6) s
  have hwrite := fun w t => ioWrite_stored (a.setWidth 6) w t
  rw [ha] at hread
  simp only [ha] at hwrite
  exact ⟨_, _, _, _, hread, flagWritten_putBit _ n b, hwrite _ _, congrArg _ (State.advance_eq _ 1 2)⟩

/-! A register added to itself. -/

/-- The sum of a byte with itself and a carry is the byte shifted to the left, the carry entering at bit 0 (R194, R195). -/
theorem add_self_add_eq_shiftConcat (x c : Byte) {b : Bool} (hc : c.toNat = b.toNat) : x + x + c = x.shiftConcat b := by
  apply BitVec.eq_of_toNat_eq
  rw [BitVec.toNat_shiftConcat, BitVec.toNat_add, BitVec.toNat_add, hc, Nat.shiftLeft_eq]
  omega

/-- A left shift moves every bit but the last one up. -/
theorem getLsbD_succ_shiftConcat (x : Byte) (b : Bool) {k : Nat} (hk : k < 7) :
    (x.shiftConcat b).getLsbD (k + 1) = x.getLsbD k := by
  rw [BitVec.getLsbD_shiftConcat, decide_eq_true (Nat.succ_lt_succ hk), Bool.true_and, if_neg k.succ_ne_zero,
    Nat.add_sub_cancel]

theorem carryAt_self (i : Nat) (x r : Byte) : carryAt i x x r = x.getLsbD i := by
  unfold carryAt
  cases x.getLsbD i <;> simp

theorem addOverflow_self (x r : Byte) : addOverflow x x r = (x.getLsbD 7 ^^ r.getLsbD 7) := by
  unfold addOverflow
  cases x.getLsbD 7 <;> simp

/-- The flags of a register added to itself, by bits of the register (R194, R195). -/
theorem addFlags_shiftConcat (sreg x : Byte) (b : Bool) :
    addFlags sreg x x (x.shiftConcat b) =
      packSreg (sreg.getLsbD 7) (sreg.getLsbD 6) (x.getLsbD 3) (x.getLsbD 6 ^^ (x.getLsbD 7 ^^ x.getLsbD 6))
        (x.getLsbD 7 ^^ x.getLsbD 6) (x.getLsbD 6) (decide (x.shiftConcat b = 0)) (x.getLsbD 7) := by
  have hN : (x.shiftConcat b).getLsbD 7 = x.getLsbD 6 := getLsbD_succ_shiftConcat x b (by decide)
  rw [addFlags, putHSVNZC_eq, carryAt_self, carryAt_self, addOverflow_self, hN]
  rfl

/-- A register added to itself and a carry, in the words of a shift (R194, R195). -/
theorem addTo_self_shifts (d : Reg) (c : Byte) {b : Bool} (hc : c.toNat = b.toNat) (s : State) :
    ∃ v : Byte, v.getLsbD 0 = b ∧ (∀ k, k < 7 → v.getLsbD (k + 1) = (s.reg d).getLsbD k) ∧
      addTo d (s.reg d) (s.reg d) c s =
        .next ({ s.withReg d v with
          sreg := packSreg (s.flag 7) (s.flag 6) ((s.reg d).getLsbD 3)
            ((s.reg d).getLsbD 6 ^^ ((s.reg d).getLsbD 7 ^^ (s.reg d).getLsbD 6))
            ((s.reg d).getLsbD 7 ^^ (s.reg d).getLsbD 6) ((s.reg d).getLsbD 6) (decide (v = 0))
            ((s.reg d).getLsbD 7) }.after 1 1) := by
  refine ⟨(s.reg d).shiftConcat b, by simp, fun k => getLsbD_succ_shiftConcat _ b, ?_⟩
  rw [addTo, add_self_add_eq_shiftConcat _ c hc, addFlags_shiftConcat]
  exact writeResult_eq d _ s rfl

/-- Settles O12: LSL is the addition of a register to itself, and ROL the addition with the carry flag. -/
theorem leftShiftsByBits : Obligations.LeftShiftsByBits := by
  intro d s
  simp only [List.forall_mem_cons, List.not_mem_nil, false_implies, implies_true, and_true]
  exact ⟨addTo_self_shifts d 0 rfl s, addTo_self_shifts d s.carry s.carry_eq s⟩

/-! Digits and bits of registers. -/

/-- The digits of a byte exchanged, as a number (R196). -/
theorem digits_exchanged (x : Byte) :
    x.extractLsb' 0 4 ++ x.extractLsb' 4 4 = BitVec.ofNat 8 (x.toNat % 16 * 16 + x.toNat / 16) := by
  have hx := x.isLt
  have hhigh : (x.extractLsb' 4 4).toNat = x.toNat / 16 := by
    simp [BitVec.extractLsb'_toNat, Nat.shiftRight_eq_div_pow]
    omega
  have hlow : (x.extractLsb' 0 4).toNat = x.toNat % 16 := by simp [BitVec.extractLsb'_toNat]
  apply BitVec.eq_of_toNat_eq
  rw [BitVec.toNat_append, ← Nat.shiftLeft_add_eq_or_of_lt (BitVec.isLt _), hhigh, hlow, Nat.shiftLeft_eq,
    BitVec.toNat_ofNat]
  omega

/-- Settles O13: BLD and BST write one bit, of a register and of SREG. -/
theorem swapAndTransferBit : Obligations.SwapAndTransferBit := fun d _ s =>
  ⟨writeReg_eq d s (digits_exchanged _), ⟨_, flagWritten_putBit _ _ _, writeReg_eq d s rfl⟩,
    _, flagWritten_putBit _ 6 _, writeFlags_eq _ s⟩

/-! Flags and bits of I/O registers. -/

/-- Settles O14: each of the nine sets the flag of its number. -/
theorem flagsAreSet : Obligations.FlagsAreSet := by
  intro b s
  simp only [List.forall_mem_cons, List.not_mem_nil, false_implies, implies_true, and_true]
  exact ⟨setFlag_written b.toNat s, setFlag_written 0 s, setFlag_written 1 s, setFlag_written 2 s, setFlag_written 3 s,
    setFlag_written 4 s, setFlag_written 5 s, setFlag_written 6 s, setFlag_written 7 s⟩

/-- Settles O15: each of the nine clears the flag of its number. -/
theorem flagsAreCleared : Obligations.FlagsAreCleared := by
  intro b s
  simp only [List.forall_mem_cons, List.not_mem_nil, false_implies, implies_true, and_true]
  exact ⟨clearFlag_written b.toNat s, clearFlag_written 0 s, clearFlag_written 1 s, clearFlag_written 2 s,
    clearFlag_written 3 s, clearFlag_written 4 s, clearFlag_written 5 s, clearFlag_written 6 s, clearFlag_written 7 s⟩

/-- Settles O16: SBI and CBI write their bit of the I/O register through `modifyIo`. -/
theorem ioBitsAreReadModifyWrite : Obligations.IoBitsAreReadModifyWrite := by
  intro a b s
  simp only [List.forall_mem_cons, List.not_mem_nil, false_implies, implies_true, and_true]
  exact ⟨modifyIo_putBit a b.toNat true s, modifyIo_putBit a b.toNat false s⟩

end Sys2Proof.Machine
end

section
/-! PROOFS. Branches (O17), jumps (O18) and skips (O23): a target is the number of the claims modulo `2^PC_BITS`, and a skip
goes by the length of the next word. -/

namespace Sys2Proof.Machine

/-! Branches. -/

/-- The branches that test for a flag that is set (R221, R223). -/
theorem branchIf_set (n : Nat) (k : BitVec 7) (s : State) :
    branchIf (s.flag n) k s =
      .next (if s.flag n = true then s.goTo (s.pc.toNat + 1 + k.toInt) 2 else s.after 1 1) :=
  branchIf_of_flag Bool.decide_eq_true.symm k s

/-- The branches that test for a flag that is clear (R222, R223). -/
theorem branchIf_clear (n : Nat) (k : BitVec 7) (s : State) :
    branchIf (!s.flag n) k s =
      .next (if s.flag n = false then s.goTo (s.pc.toNat + 1 + k.toInt) 2 else s.after 1 1) :=
  branchIf_of_flag Bool.decide_eq_false.symm k s

/-- Settles O17: each of the twenty tests its flag for one value. -/
theorem conditionalBranches : Obligations.ConditionalBranches := by
  intro b k s
  simp only [List.forall_mem_cons, List.not_mem_nil, false_implies, implies_true, and_true]
  exact ⟨branchIf_set b.toNat k s, branchIf_clear b.toNat k s, branchIf_set 0 k s, branchIf_set 0 k s,
    branchIf_clear 0 k s, branchIf_clear 0 k s, branchIf_set 1 k s, branchIf_clear 1 k s, branchIf_set 2 k s,
    branchIf_clear 2 k s, branchIf_set 3 k s, branchIf_clear 3 k s, branchIf_set 4 k s, branchIf_clear 4 k s,
    branchIf_set 5 k s, branchIf_clear 5 k s, branchIf_set 6 k s, branchIf_clear 6 k s, branchIf_set 7 k s,
    branchIf_clear 7 k s⟩

/-! Jumps. -/

/-- A jump of a member that has it (R125). -/
theorem jump_of_has {i : Instr} {target : PcWord} {m : Int} {s : State} (n : Nat) (hi : s.cfg.hasInstr i = true)
    (hm : wrapPc s.cfg target = pcOf s.cfg m) : ifPresent i s (.next (s.jump target n)) = .next (s.goTo m n) := by
  rw [ifPresent_of_has hi, s.jump_eq target m n hm]

theorem exec_rjmp (k : BitVec 12) (s : State) : exec (.rjmp k) s = .next (s.goTo (s.pc.toNat + 1 + k.toInt) 2) :=
  congrArg _ (s.jump_eq _ _ 2 (wrapPc_relTarget s k (by decide)))

/-- Settles O18: each target, as a word address, is its number modulo `2^PC_BITS`. -/
theorem jumps : Obligations.Jumps := fun k a s =>
  ⟨exec_rjmp k s, fun hi => jump_of_has (i := .jmp a) 3 hi (wrapPc_eq s.cfg a),
    fun hi => jump_of_has (i := .ijmp) 2 hi (wrapPc_zTarget s),
    fun hi => jump_of_has (i := .eijmp) 2 hi (wrapPc_extTarget s)⟩

/-! Skips. -/

theorem progWord_outside {s : State} {a : PcWord} (h : s.cfg.flashWords ≤ a.toNat) : progWord s a = none :=
  if_neg (Nat.not_lt.mpr h)

theorem skip_skips (cond : Bool) (s : State) : Skips cond s (skip cond s) := by
  rw [skip_eq]
  cases cond with
  | false => exact ⟨fun _ => rfl, nofun, nofun⟩
  | true => exact ⟨nofun, fun _ w hw => by rw [hw]; rfl, fun _ hout => by rw [progWord_outside hout]; rfl⟩

/-- A skip of either kind completes when the next word is inside program memory (R234). -/
theorem Skips.completes {cond : Bool} {s : State} {r : Result} (h : Skips cond s r)
    (hin : (pcOf s.cfg (s.pc.toNat + 1)).toNat < s.cfg.flashWords) : ∃ t, r = .next t := by
  obtain ⟨hstay, hskip, -⟩ := h
  cases cond with
  | false => exact ⟨_, hstay rfl⟩
  | true => exact ⟨_, hskip rfl _ (progWord_inside hin)⟩

/-- The I/O register of SBIC and SBIS is read by its data address (R63, R238, R239). -/
theorem ioRead_low_reads (a : BitVec 5) (s : State) :
    ReadsAs (ioData a.toNat) s (ioRead (a.setWidth 6) s).1 (ioRead (a.setWidth 6) s).2 := by
  have h := ioRead_reads (a.setWidth 6) s
  rwa [BitVec.toNat_setWidth_of_le (by decide)] at h

/-- A skip behind a read of an I/O register completes like one without it: the read moves neither the program counter
nor the end of program memory. -/
theorem Skips.completes_of_read {x : Addr} {v : Byte} {cond : Bool} {s t : State} {r : Result} (hr : ReadsAs x s v t)
    (h : Skips cond t r) (hin : (pcOf s.cfg (s.pc.toNat + 1)).toNat < s.cfg.flashWords) : ∃ u, r = .next u := by
  have hpc : t.pc = s.pc := by rw [hr.frame]
  exact h.completes (by rwa [hr.cfg, hpc])

/-- Settles O23: CPSE, SBRC and SBRS skip at once, SBIC and SBIS behind their read. -/
theorem skipInstructions : Obligations.SkipInstructions := by
  intro d r a b s
  have hcpse : Skips (decide (s.reg d = s.reg r)) s (exec (.cpse d r) s) := skip_skips _ s
  have hsbrc : Skips (!(s.reg r).getLsbD b.toNat) s (exec (.sbrc r b) s) := skip_skips _ s
  have hsbrs : Skips ((s.reg r).getLsbD b.toNat) s (exec (.sbrs r b) s) := skip_skips _ s
  have hread := ioRead_low_reads a s
  have hsbic : Skips (!(ioRead (a.setWidth 6) s).1.getLsbD b.toNat) _ (exec (.sbic a b) s) := skip_skips _ _
  have hsbis : Skips ((ioRead (a.setWidth 6) s).1.getLsbD b.toNat) _ (exec (.sbis a b) s) := skip_skips _ _
  refine ⟨hcpse, hsbrc, hsbrs, ⟨_, _, hread, hsbic⟩, ⟨_, _, hread, hsbis⟩, fun hin => ?_⟩
  simp only [List.forall_mem_cons, List.not_mem_nil, false_implies, implies_true, and_true]
  exact ⟨hcpse.completes hin, hsbrc.completes hin, hsbrs.completes hin, hsbic.completes_of_read hread hin,
    hsbis.completes_of_read hread hin⟩

end Sys2Proof.Machine
end

section
/-! PROOFS. The calls with the stack in SRAM (O19) and the returns with the stack anywhere (O21). -/

namespace Sys2Proof.Machine

/-! The four calls. -/

theorem callTo_sram {ra target : PcWord} {n16 n22 : Nat} {s : State} {m : Int} (hroom : PushRoom s)
    (hm : wrapPc s.cfg target = pcOf s.cfg m) :
    ∃ t, ReturnPushed ra s t ∧ callTo ra target n16 n22 s = .next (t.goTo m (cyclesBy s.cfg n16 n22)) := by
  obtain ⟨t, hpush, ht⟩ := pushPc_sram ra hroom
  exact ⟨t, ht, callTo_of_pushed hpush (by rw [ht.cfg, hm])⟩

theorem exec_rcall (k : BitVec 12) (s : State) :
    exec (.rcall k) s = callTo (pcOf s.cfg (s.pc.toNat + 1)) (relTarget s k) 3 4 s := by
  rw [← State.nextPc_eq]
  rfl

theorem exec_call (a : PcWord) {s : State} (hi : s.cfg.hasJmpCall = true) :
    exec (.call a) s = callTo (pcOf s.cfg (s.pc.toNat + 2)) a 4 5 s := by
  rw [show pcOf s.cfg (s.pc.toNat + 2) = wrapPc s.cfg (s.pc + 2) from (wrapPc_add s.cfg s.pc 2).symm]
  exact ifPresent_of_has hi

theorem exec_icall {s : State} (hi : s.cfg.hasIjmpIcall = true) :
    exec .icall s = callTo (pcOf s.cfg (s.pc.toNat + 1)) s.zTarget 3 4 s := by
  rw [← State.nextPc_eq]
  exact ifPresent_of_has hi

theorem exec_eicall {s : State} (hi : s.cfg.hasExtended = true) :
    exec .eicall s = callTo (pcOf s.cfg (s.pc.toNat + 1)) s.extTarget 4 4 s := by
  rw [← State.nextPc_eq]
  exact ifPresent_of_has hi

theorem cyclesBy_same (c : Config) (n : Nat) : cyclesBy c n n = n := by
  unfold cyclesBy
  cases c.pcWidth <;> rfl

/-- Settles O19: each of the four calls pushes its return address in SRAM and jumps. -/
theorem callsWithStackInSram : Obligations.CallsWithStackInSram := by
  intro k a s hroom
  refine ⟨?_, fun hi => ?_, fun hi => ?_, fun hi => ?_⟩
  · rw [exec_rcall]
    exact callTo_sram hroom (wrapPc_relTarget s k (by decide))
  · rw [exec_call a hi]
    exact callTo_sram hroom (wrapPc_eq s.cfg a)
  · rw [exec_icall hi]
    exact callTo_sram hroom (wrapPc_zTarget s)
  · rw [exec_eicall hi]
    simpa only [cyclesBy_same] using
      callTo_sram (ra := pcOf s.cfg (s.pc.toNat + 1)) (n16 := 4) (n22 := 4) hroom (wrapPc_extTarget s)

/-! The returns. -/

theorem pcOf_emod (c : Config) (n : Int) : pcOf c (n % 2 ^ c.pcBits) = pcOf c n := by
  rw [pcOf, Int.emod_emod, pcOf]

theorem wrapPc_ofNat (c : Config) (n : Nat) : wrapPc c (BitVec.ofNat 22 n) = pcOf c n :=
  wrapPc_of_emod c _ n (by simp)

/-- RET and RETI with an address popped: both go there, and RETI sets I and `irq_inhibit` besides (R232, R233). -/
theorem returns_of_popped {a : PcWord} {s t : State} {n : Int} (h : popPc s = .ok (a, t))
    (hn : wrapPc t.cfg a = pcOf t.cfg n) :
    exec .ret s = .next (t.goTo n (cyclesBy s.cfg 4 5)) ∧
    ∃ f, FlagWritten t.sreg f 7 true ∧
      exec .reti s = .next ({ t with sreg := f, irqInhibit := true }.goTo n (cyclesBy s.cfg 4 5)) := by
  have hgoTo : t.goTo a.toNat (cyclesBy s.cfg 4 5) = t.goTo n (cyclesBy s.cfg 4 5) := by
    rw [State.goTo, ← wrapPc_eq, hn, State.goTo]
  have hreturn : ∀ fin, returnWith fin s = .next (fin (t.goTo n (cyclesBy s.cfg 4 5))) := fun fin => by
    rw [returnWith_of_popped h, hgoTo]
  exact ⟨hreturn fun u => u, _, flagWritten_putBit t.sreg 7 true,
    hreturn fun u => { u with sreg := putBit u.sreg 7 true, irqInhibit := true }⟩

theorem returns_fault {s : State} {f : Fault} (h : popPc s = .error f) :
    exec .ret s = .fault f ∧ exec .reti s = .fault f := by
  have hreturn : ∀ fin, returnWith fin s = .fault f := fun fin => by rw [returnWith, h]
  exact ⟨hreturn fun t => t, hreturn fun t => { t with sreg := putBit t.sreg 7 true, irqInhibit := true }⟩

/-- Settles O21: RET and RETI go where the popped address points, and stop where the pop stops. -/
theorem returns : Obligations.Returns := by
  refine ⟨fun s hroom => returns_of_popped (popPc_sram hroom) (wrapPc_ofNat s.cfg _), fun s => ⟨fun hmapped => ?_,
    fun b hb => returns_fault (popPc_unmapped hb)⟩⟩
  obtain ⟨vs, t, hlen, hpops, hpop, hcfg⟩ := popPc_mapped hmapped
  have htarget : wrapPc t.cfg (BitVec.ofNat 22 (returnOf vs % 2 ^ s.cfg.pcBits)) = pcOf t.cfg (returnOf vs) := by
    rw [wrapPc_ofNat, hcfg, ← pcOf_emod s.cfg (returnOf vs)]
    norm_cast
  obtain ⟨hret, f, hf, hreti⟩ := returns_of_popped hpop htarget
  exact ⟨vs, t, f, hlen, hpops, hf, hret, hreti⟩

end Sys2Proof.Machine
end

section
/-! PROOFS. An interrupt and the return from it (O51): the entry pushes the program counter in SRAM, and the acknowledgement
touches nothing that the pop reads. -/

namespace Sys2Proof.Machine

/-- The acknowledgement is recorded, and it may withdraw the request (R346). -/
theorem acknowledge_frame (n : Nat) (s : State) :
    acknowledge n s =
      { s with pending := (acknowledge n s).pending, events := (acknowledge n s).events } := by
  simp only [acknowledge]
  split <;> rfl

/-- An interrupt entry with its return address pushed (R350). -/
theorem interruptEntry_of_pushed {n : Nat} {s t : State} (h : pushPc s.pc { s with sleeping := false } = .ok t) :
    interruptEntry n s =
      .next ((acknowledge n { t with sreg := putBit t.sreg 7 false }).goTo (n * s.cfg.vectorStride : Nat)
        s.cfg.irqEntryCycles) := by
  rw [interruptEntry, h, finish, State.jump_eq _ _ _ _ (wrapPc_ofNat _ _)]
  rfl

/-- A pushed return address is there for every state with the same stack. -/
theorem ReturnPushed.of_same_stack {ra : PcWord} {s t u : State} (h : ReturnPushed ra s t) (hcfg : u.cfg = t.cfg)
    (hsp : u.sp = t.sp) (hram : u.ram = t.ram) : ReturnPushed ra { u with sp := s.sp, ram := s.ram } u := by
  have hcfg' : u.cfg = s.cfg := hcfg.trans h.cfg
  have hbyte : ∀ b, u.ramByte b = t.ramByte b := fun b => by simp only [State.ramByte, hram]
  obtain ⟨hframe, hbytes, hother⟩ := h
  have hsp' : u.sp = BitVec.ofInt 16 (s.sp.toNat - returnLength u.cfg) := by rw [hsp, hframe, hcfg']
  refine ⟨?_, fun k hk => ?_, fun b hb => ?_⟩
  · show u = { u with sp := BitVec.ofInt 16 (s.sp.toNat - returnLength u.cfg) }
    rw [← hsp']
  · rw [hcfg'] at hk
    exact (hbyte _).trans (hbytes k hk)
  · rw [hcfg'] at hb
    exact (hbyte b).trans (hother b hb)

/-- What an interrupt entry leaves for the return, with the stack in SRAM: the program counter on the stack, I clear, the
registers and the other flags as they were (R350). -/
theorem interruptEntry_observed (n : Nat) {s : State} (hroom : PushRoom s) (hpc : s.pc.toNat < 2 ^ s.cfg.pcBits) :
    ∃ t, interruptEntry n s = .next t ∧ t.cfg = s.cfg ∧ t.regs = s.regs ∧ t.sleeping = false ∧
      FlagWritten s.sreg t.sreg 7 false ∧ popPc t = .ok (s.pc, { t with sp := s.sp }) := by
  obtain ⟨t, hpush, ht⟩ := pushPc_sram (s := { s with sleeping := false }) s.pc hroom
  have hack := acknowledge_frame n { t with sreg := putBit t.sreg 7 false }
  have hentry := interruptEntry_of_pushed (n := n) hpush
  generalize acknowledge n { t with sreg := putBit t.sreg 7 false } = u at hack hentry
  have hcfg : u.cfg = s.cfg := by rw [hack]; exact ht.cfg
  have hstack := ht.of_same_stack (u := u) (by rw [hack]) (by rw [hack]) (by rw [hack])
  have hroom' : PushRoom { u with sp := s.sp, ram := s.ram } := by simpa only [PushRoom, hcfg] using hroom
  have hpop := popPc_goTo_of_pushed hstack hroom' (by rwa [hcfg]) (n * s.cfg.vectorStride : Nat) s.cfg.irqEntryCycles
  obtain ⟨hframe, -⟩ := ht
  refine ⟨_, hentry, hcfg, ?_, ?_, ?_, hpop⟩
  · show u.regs = s.regs
    rw [hack, hframe]
  · show u.sleeping = false
    rw [hack, hframe]
  · show FlagWritten s.sreg u.sreg 7 false
    rw [hack, hframe]
    exact flagWritten_putBit s.sreg 7 false

theorem pcOf_of_range {c : Config} {a : PcWord} (h : a.toNat < 2 ^ c.pcBits) : pcOf c a.toNat = a := by
  rw [pcOf, Int.emod_eq_of_lt (by omega) (mod_cast h), BitVec.ofInt_natCast, BitVec.ofNat_toNat, BitVec.setWidth_eq]

/-- Settles O51: the entry pushes what RETI pops, and of the flags both write I only. -/
theorem interruptThenReturn : Obligations.InterruptThenReturn := by
  intro s n hroom hpc
  obtain ⟨t, hentry, hcfg, hregs, hawake, hclear, hpop⟩ := interruptEntry_observed n hroom hpc
  obtain ⟨-, f, hset, hreti⟩ := returns_of_popped hpop (wrapPc_eq t.cfg s.pc)
  refine ⟨t, _, hentry, hclear 7 (by decide), hawake, hreti, ?_, rfl, hregs, hset 7 (by decide), rfl, fun k hk => ?_⟩
  · show pcOf t.cfg s.pc.toNat = s.pc
    rw [hcfg, pcOf_of_range hpc]
  · have hset := hset k (by omega)
    have hclear := hclear k (by omega)
    rw [if_neg (by omega)] at hset hclear
    exact hset.trans hclear

end Sys2Proof.Machine
end

section
/-! PROOFS. A jump to itself (O53): without interrupts the step fetches the word at the program counter, and RJMP with
k = -1 goes back to it. -/

namespace Sys2Proof.Machine

/-! A step without interrupts. -/

theorem applyEnv_of_env_nil {s : State} (h : s.env = []) : applyEnv s = s := by
  unfold applyEnv
  rw [h]
  show { s with env := [] } = s
  rw [← h]

/-- No request of a vector that exists, or I clear: nothing is accepted (R349). -/
theorem State.Uninterrupted.acceptable_eq_none {s : State} (h : s.Uninterrupted) : acceptable s = none := by
  obtain ⟨-, hflag | hpending⟩ := h
  · simp [acceptable, hflag]
  · have hleast : leastPending s = none := by
      refine List.find?_eq_none.mpr fun n hn => ?_
      obtain ⟨i, hi, rfl⟩ := List.mem_drop_iff_getElem.mp hn
      rw [List.length_range] at hi
      rw [List.getElem_range, mem_of_contains]
      intro hm
      rcases hpending _ hm with h | h <;> omega
    rw [acceptable, hleast, ite_self]

/-- Without interrupts, and with no instruction held off, the environment's part of a step does nothing (R349). -/
theorem State.Uninterrupted.begun_eq {s : State} (h : s.Uninterrupted) (hirq : s.irqInhibit = false) : begun s = s := by
  obtain ⟨henv, -⟩ := h
  rw [begun, applyEnv_of_env_nil henv, ← hirq]

/-- The fetch of an instruction of one word (R16, R341). -/
theorem fetchInstr_of_one_word {s : State} {w : Word} {i : Instr} (hw : progWord s s.pc = some w)
    (hc : wordCount w ≠ 2) (hd : decodeWord w 0 = some i) (hi : s.cfg.hasInstr i = true) (hs : i ≠ .spm) :
    fetchInstr s = .ok i := by
  have hexec := executable_of_decodeWord (.inr rfl) hd hi hs
  have hsecond : secondWord s w = .ok 0 := if_neg hc
  simp only [fetchInstr, hw, hexec, if_true, hsecond, hd]

/-! The jump. -/

/-- `$CFFF` is RJMP with k = -1 (R224). -/
theorem decodeWord_jumpToItself : decodeWord 0xCFFF 0 = some (.rjmp 0xFFF) :=
  decodeWord_core (i := .rjmp 0xFFF) rfl rfl

theorem exec_jumpToItself {s : State} (hpc : s.pc.toNat < 2 ^ s.cfg.pcBits) :
    exec (.rjmp 0xFFF) s = .next { s with cycles := s.cycles + 2 } := by
  have hback : (s.pc.toNat : Int) + 1 + (0xFFF : BitVec 12).toInt = s.pc.toNat := by
    rw [show (0xFFF : BitVec 12).toInt = -1 from rfl]
    omega
  rw [exec_rjmp, hback, State.goTo, pcOf_of_range hpc]

theorem step_jumpToItself {s : State} (hawake : s.sleeping = false) (hirq : s.irqInhibit = false)
    (hun : s.Uninterrupted) (hpc : s.pc.toNat < 2 ^ s.cfg.pcBits) (hw : progWord s s.pc = some 0xCFFF) :
    step s = .next { s with cycles := s.cycles + 2 } := by
  have ⟨henv, _⟩ := hun
  have hbegun := hun.begun_eq hirq
  have hfetch := fetchInstr_of_one_word hw (by decide) decodeWord_jumpToItself rfl nofun
  have haccept : acceptable (applyEnv s) = none := by
    rw [applyEnv_of_env_nil henv]
    exact hun.acceptable_eq_none
  rw [step_of_fetch haccept (by rwa [hbegun]) (by rwa [hbegun]), hbegun, exec_jumpToItself hpc]

/-- A run whose first step has a next state goes on from there. -/
theorem run_succ_of_step {M : Host.Core} {s t : M.State} (k : Nat) (h : M.step s = .next t) :
    M.run (k + 1) s = M.run k t := by
  rw [Host.Core.run, h]

/-- Settles O53, by induction on the number of steps: each one leaves a state that meets the same hypotheses. -/
theorem jumpToItself : Obligations.JumpToItself := by
  intro s k hawake hirq hun hpc hw
  induction k generalizing s with
  | zero => rfl
  | succ k ih =>
    have hfirst := run_succ_of_step (M := Sys2Proof.core) k (step_jumpToItself hawake hirq hun hpc hw)
    have hrest := ih { s with cycles := s.cycles + 2 } hawake hirq hun hpc hw
    have hcycles : s.cycles + 2 + 2 * k = s.cycles + 2 * (k + 1) := by omega
    rw [hcycles] at hrest
    exact hfirst.trans hrest

end Sys2Proof.Machine
end

section
/-! PROOFS. Data transfer: register copies (O24), loads and stores through the data space (O25, O26, O27), loads from program
memory (O31), and IN and OUT (O33). A pointer is written with a number modulo 65536, and every load and store is one shared
operation at one address. -/

namespace Sys2Proof.Machine

/-! Pointers as numbers (R24, R263). -/

theorem State.ptr_eq (s : State) (p : Ptr) : s.ptr p = BitVec.ofNat 16 (s.pairNat p.low) := s.pair_eq p.low

theorem State.ptr_toNat (s : State) (p : Ptr) : (s.ptr p).toNat = s.pairNat p.low := append_toNat _ _

theorem State.ptr_z_toNat (s : State) : (s.ptr .z).toNat = s.pairNat 30 := s.ptr_toNat .z

theorem State.pair_eq_ofInt (s : State) (d : Reg) : s.pair d = BitVec.ofInt 16 (s.pairNat d) := by
  rw [s.pair_eq, BitVec.ofInt_natCast]

theorem State.ptr_add_one (s : State) (p : Ptr) : s.ptr p + 1 = BitVec.ofInt 16 (s.pairNat p.low + 1) := by
  rw [State.ptr, s.pair_eq_ofInt, BitVec.ofInt_add]
  rfl

theorem State.ptr_sub_one (s : State) (p : Ptr) : s.ptr p - 1 = BitVec.ofInt 16 (s.pairNat p.low - 1) := by
  rw [State.ptr, s.pair_eq_ofInt, ofInt_sub]
  rfl

theorem dispAddr_eq (p : Ptr) (q : BitVec 6) (s : State) :
    dispAddr p q s = BitVec.ofNat 16 (s.pairNat p.low + q.toNat) := by
  rw [dispAddr, s.ptr_eq, BitVec.ofNat_add, BitVec.ofNat_toNat]

/-- A pointer written with a number, as the last part of a load or a store. -/
theorem setPtr_eq {p : Ptr} {v : Addr} {n : Int} (h : v = BitVec.ofInt 16 n) :
    (fun t : State => t.setPtr p v) = fun t => t.withPair p.low n :=
  funext fun t => t.setPair_eq p.low h

/-! The data register and the pointer (R264). -/

theorem Ptr.holds_iff {p : Ptr} {d : Reg} : p.holds d = true ↔ d = p.low ∨ d = p.low + 1 := by
  simp only [Ptr.holds, Bool.or_eq_true, beq_iff_eq]

theorem ifDisjoint_of_holds (p : Ptr) {d : Reg} {i : Instr} {s : State} {r : Result} (h : d = p.low ∨ d = p.low + 1) :
    ifDisjoint p d i s r = .fault (.undefinedOperands s.pc (firstWord i)) :=
  if_pos (Ptr.holds_iff.mpr h)

theorem ifDisjoint_of_ne (p : Ptr) {d : Reg} {i : Instr} {s : State} {r : Result} (hlow : d ≠ p.low)
    (hhigh : d ≠ p.low + 1) : ifDisjoint p d i s r = r :=
  if_neg fun h => (Ptr.holds_iff.mp h).elim hlow hhigh

/-- Settles O27: in each form the meaning looks at its data register before anything else but its option. -/
theorem pointerAsDataRegister : Obligations.PointerAsDataRegister := by
  intro d s
  simp only [List.forall_mem_cons, List.not_mem_nil, false_implies, implies_true, and_true]
  exact ⟨fun h => ⟨ifDisjoint_of_holds .x h, ifDisjoint_of_holds .x h, ifDisjoint_of_holds .x h,
      ifDisjoint_of_holds .x h⟩,
    fun h => ⟨ifDisjoint_of_holds .y h, ifDisjoint_of_holds .y h, ifDisjoint_of_holds .y h,
      ifDisjoint_of_holds .y h⟩,
    fun h => ⟨ifDisjoint_of_holds .z h, ifDisjoint_of_holds .z h, ifDisjoint_of_holds .z h,
      ifDisjoint_of_holds .z h⟩,
    fun h hi => (ifPresent_of_has (i := .lpmZInc d) hi).trans (ifDisjoint_of_holds .z h),
    fun h hi => (ifPresent_of_has (i := .elpmZInc d) hi).trans (ifDisjoint_of_holds .z h)⟩

/-! Loads and stores through the data space. -/

/-- An instruction that means a load: it reads where something is, and stops where nothing is (R64, R263). -/
theorem loadsFrom_of_exec {i : Instr} {d : Reg} {a b : Addr} {words : Nat} {fin : State → State} {s : State}
    (h : exec i s = loadByte d a words fin s) (ha : a = b) : LoadsFrom i d b words fin s := by
  subst ha
  refine ⟨fun hm => ?_, fun hm => ?_⟩
  · obtain ⟨v, t, e, ht⟩ := memRead_mapped hm
    exact ⟨v, t, ht, h.trans (loadByte_of_read e)⟩
  · rw [h, loadByte, memRead_unmapped hm]

/-- An instruction that means a store: it writes where something is, and stops where nothing is (R64, R263). -/
theorem storesTo_of_exec {i : Instr} {r : Reg} {a b : Addr} {words : Nat} {fin : State → State} {s : State}
    (h : exec i s = storeByte r a words fin s) (ha : a = b) : StoresTo i r b words fin s := by
  subst ha
  refine ⟨fun hm => ?_, fun hm => ?_⟩
  · obtain ⟨t, e, ht⟩ := memWrite_mapped (s.reg r) hm
    exact ⟨t, ht, h.trans (storeByte_of_write e)⟩
  · rw [h, storeByte, memWrite_unmapped _ hm, finish]

/-- The loads with P+ and with -P, the data register not in P (R263). -/
theorem loadsFrom_pointerUpdate (p : Ptr) {d : Reg} {inc dec : Instr} {s : State}
    (hinc : exec inc s = loadInc p d inc s) (hdec : exec dec s = loadDec p d dec s) (hlow : d ≠ p.low)
    (hhigh : d ≠ p.low + 1) :
    LoadsFrom inc d (BitVec.ofNat 16 (s.pairNat p.low)) 1 (fun t => t.withPair p.low (s.pairNat p.low + 1)) s ∧
    LoadsFrom dec d (BitVec.ofInt 16 (s.pairNat p.low - 1)) 1 (fun t => t.withPair p.low (s.pairNat p.low - 1)) s := by
  rw [loadInc, ifDisjoint_of_ne p hlow hhigh, setPtr_eq (s.ptr_add_one p)] at hinc
  rw [loadDec, ifDisjoint_of_ne p hlow hhigh, setPtr_eq (s.ptr_sub_one p)] at hdec
  exact ⟨loadsFrom_of_exec hinc (s.ptr_eq p), loadsFrom_of_exec hdec (s.ptr_sub_one p)⟩

/-- The stores with P+ and with -P, the data register not in P (R263). -/
theorem storesTo_pointerUpdate (p : Ptr) {r : Reg} {inc dec : Instr} {s : State}
    (hinc : exec inc s = storeInc p r inc s) (hdec : exec dec s = storeDec p r dec s) (hlow : r ≠ p.low)
    (hhigh : r ≠ p.low + 1) :
    StoresTo inc r (BitVec.ofNat 16 (s.pairNat p.low)) 1 (fun t => t.withPair p.low (s.pairNat p.low + 1)) s ∧
    StoresTo dec r (BitVec.ofInt 16 (s.pairNat p.low - 1)) 1 (fun t => t.withPair p.low (s.pairNat p.low - 1)) s := by
  rw [storeInc, ifDisjoint_of_ne p hlow hhigh, setPtr_eq (s.ptr_add_one p)] at hinc
  rw [storeDec, ifDisjoint_of_ne p hlow hhigh, setPtr_eq (s.ptr_sub_one p)] at hdec
  exact ⟨storesTo_of_exec hinc (s.ptr_eq p), storesTo_of_exec hdec (s.ptr_sub_one p)⟩

/-- Settles O25: each load is one read of the data space at the address that its mode forms. -/
theorem dataLoads : Obligations.DataLoads := by
  intro d q k s
  refine ⟨loadsFrom_of_exec rfl (s.ptr_eq .x), loadsFrom_of_exec rfl (s.ptr_eq .y),
    loadsFrom_of_exec rfl (s.ptr_eq .z), loadsFrom_of_exec rfl (dispAddr_eq .y q s),
    loadsFrom_of_exec rfl (dispAddr_eq .z q s), loadsFrom_of_exec rfl rfl, ?_⟩
  simp only [List.forall_mem_cons, List.not_mem_nil, false_implies, implies_true, and_true]
  exact ⟨loadsFrom_pointerUpdate .x rfl rfl, loadsFrom_pointerUpdate .y rfl rfl, loadsFrom_pointerUpdate .z rfl rfl⟩

/-- Settles O26: each store is one write of the data space at the address that its mode forms. -/
theorem dataStores : Obligations.DataStores := by
  intro r q k s
  refine ⟨storesTo_of_exec rfl (s.ptr_eq .x), storesTo_of_exec rfl (s.ptr_eq .y),
    storesTo_of_exec rfl (s.ptr_eq .z), storesTo_of_exec rfl (dispAddr_eq .y q s),
    storesTo_of_exec rfl (dispAddr_eq .z q s), storesTo_of_exec rfl rfl, ?_⟩
  simp only [List.forall_mem_cons, List.not_mem_nil, false_implies, implies_true, and_true]
  exact ⟨storesTo_pointerUpdate .x rfl rfl, storesTo_pointerUpdate .y rfl rfl, storesTo_pointerUpdate .z rfl rfl⟩

/-! Loads from program memory. -/

/-- An instruction that means a load from program memory: it reads inside it and stops outside it (R290, R291). -/
theorem loadsProgram_of_exec {i : Instr} {d : Reg} {a b : Nat} {fin : State → State} {s : State}
    (h : exec i s = loadProg d a fin s) (ha : a = b) : LoadsProgram i d b fin s := by
  subst ha
  refine ⟨fun hin => ?_, fun hout => ?_⟩
  · rw [h, loadProg, progByte_inside hin]
    exact congrArg _ (State.advance_eq _ 1 3)
  · rw [h, loadProg, progByte, if_neg (Nat.not_lt.mpr hout)]

theorem State.extZ_toNat (s : State) : s.extZ.toNat = s.rampz.toNat * 65536 + s.pairNat 30 := by
  rw [State.extZ, BitVec.toNat_append, ← Nat.shiftLeft_add_eq_or_of_lt (s.ptr .z).isLt, Nat.shiftLeft_eq,
    s.ptr_z_toNat]

/-- RAMPZ:Z written with its successor: Z takes the low 16 bits and RAMPZ the carry out of them (R298). -/
theorem State.setExtZ_succ (s : State) :
    (fun t : State => t.setExtZ (s.extZ + 1)) = fun t =>
      { t.withPair 30 (s.pairNat 30 + 1) with
        rampz := BitVec.ofNat 8 ((s.rampz.toNat * 65536 + s.pairNat 30 + 1) / 65536) } := by
  have hlow : (s.extZ + 1).extractLsb' 0 16 = BitVec.ofInt 16 (s.pairNat 30 + 1) := by
    have hsucc : s.ptr .z + 1 = BitVec.ofInt 16 (s.pairNat 30 + 1) := s.ptr_add_one .z
    rw [← hsucc]
    apply BitVec.eq_of_toNat_eq
    simp [s.extZ_toNat, s.ptr_z_toNat]
    omega
  have hhigh : (s.extZ + 1).extractLsb' 16 8 =
      BitVec.ofNat 8 ((s.rampz.toNat * 65536 + s.pairNat 30 + 1) / 65536) := by
    apply BitVec.eq_of_toNat_eq
    simp [s.extZ_toNat, Nat.shiftRight_eq_div_pow]
    omega
  funext t
  rw [State.setExtZ, hhigh, State.setPtr, State.setPair_eq _ _ hlow]
  rfl

/-- Settles O31: each of the six is one load from program memory, at Z or at RAMPZ:Z. -/
theorem programLoads : Obligations.ProgramLoads := by
  intro d s
  refine ⟨loadsProgram_of_exec rfl s.ptr_z_toNat,
    fun hi => loadsProgram_of_exec (ifPresent_of_has (i := .lpmZ d) hi) s.ptr_z_toNat,
    fun hi hlow hhigh => ?_,
    fun hi => ⟨loadsProgram_of_exec (ifPresent_of_has (i := .elpm) hi) s.extZ_toNat,
      loadsProgram_of_exec (ifPresent_of_has (i := .elpmZ d) hi) s.extZ_toNat⟩, fun hi hlow hhigh => ?_⟩
  · have hexec : exec (.lpmZInc d) s = loadProg d _ (fun t => t.setPtr .z (s.ptr .z + 1)) s :=
      (ifPresent_of_has (i := .lpmZInc d) hi).trans (ifDisjoint_of_ne .z hlow hhigh)
    rw [setPtr_eq (s.ptr_add_one .z)] at hexec
    exact loadsProgram_of_exec hexec s.ptr_z_toNat
  · have hexec : exec (.elpmZInc d) s = loadProg d _ (fun t => t.setExtZ (s.extZ + 1)) s :=
      (ifPresent_of_has (i := .elpmZInc d) hi).trans (ifDisjoint_of_ne .z hlow hhigh)
    rw [s.setExtZ_succ] at hexec
    exact loadsProgram_of_exec hexec s.extZ_toNat

/-! Copies of registers, IN and OUT. -/

/-- Settles O24: MOVW copies the number in the pair. -/
theorem registerCopies : Obligations.RegisterCopies := by
  intro d r k s
  refine ⟨writeReg_eq d s rfl, fun hi => (ifPresent_of_has (i := .movw d r) hi).trans ?_, writeReg_eq d s rfl,
    writeReg_eq d s rfl⟩
  rw [State.advance_eq, s.setPair_eq d (s.pair_eq_ofInt r)]

/-- Settles O33: an I/O register is accessed by its data address. -/
theorem inAndOut : Obligations.InAndOut := fun d a s =>
  ⟨⟨_, _, ioRead_reads a s, congrArg _ (State.advance_eq _ 1 1)⟩,
    _, ioWrite_stored a (s.reg d) s, congrArg _ (State.advance_eq _ 1 1)⟩

end Sys2Proof.Machine
end

section
/-! PROOFS. Multiply (O35, O36): the operands and the products as integers modulo 65536, and the one write of R1:R0 and of
the flags Z and C that the six instructions share. -/

namespace Sys2Proof.Machine

/-! Operands and products as integers (R320). -/

theorem unsignedOperand_eq (v : Byte) : unsignedOperand v = BitVec.ofInt 16 v.toNat := by
  rw [unsignedOperand, BitVec.ofInt_natCast, BitVec.ofNat_toNat]

theorem signedOperand_eq (v : Byte) : signedOperand v = BitVec.ofInt 16 v.toInt := rfl

theorem unsigned_mul_unsigned (a b : Byte) :
    unsignedOperand a * unsignedOperand b = BitVec.ofInt 16 (a.toNat * b.toNat) := by
  rw [unsignedOperand_eq, unsignedOperand_eq, BitVec.ofInt_mul]

theorem signed_mul_signed (a b : Byte) : signedOperand a * signedOperand b = BitVec.ofInt 16 (a.toInt * b.toInt) := by
  rw [signedOperand_eq, signedOperand_eq, BitVec.ofInt_mul]

theorem signed_mul_unsigned (a b : Byte) :
    signedOperand a * unsignedOperand b = BitVec.ofInt 16 (a.toInt * b.toNat) := by
  rw [signedOperand_eq, unsignedOperand_eq, BitVec.ofInt_mul]

/-- The shift of the fractional products doubles the number (R324). -/
theorem ofInt_shiftLeft_one (n : Int) : BitVec.ofInt 16 n <<< 1 = BitVec.ofInt 16 (2 * n) := by
  rw [BitVec.shiftLeft_eq_mul_twoPow, BitVec.mul_comm, BitVec.ofInt_mul]
  rfl

/-! The flags (R320). -/

theorem toNat_ofInt_word (n : Int) : ((BitVec.ofInt 16 n).toNat : Int) = n % 65536 := by
  rw [BitVec.toNat_ofInt]
  omega

theorem mulFlags_ofInt (x : Byte) (n m : Int) :
    mulFlags x (BitVec.ofInt 16 n) ((BitVec.ofInt 16 m).getLsbD 15) =
      productSreg x (decide (n % 65536 = 0)) (decide (32768 ≤ m % 65536)) := by
  have hz : decide ((BitVec.ofInt 16 n).toNat = 0) = decide (n % 65536 = 0) := by
    rw [← toNat_ofInt_word n]
    exact decide_eq_decide.mpr (by omega)
  have hc : (BitVec.ofInt 16 m).getLsbD 15 = decide (32768 ≤ m % 65536) := by
    rw [bit15_eq, ← toNat_ofInt_word m]
    exact decide_eq_decide.mpr (by omega)
  rw [mulFlags_eq, hz, hc]

/-! The two writes of R1:R0, in the words of the claims. -/

/-- The write of an integer product (R320, R321). -/
theorem writeProduct_eq {p : Word} {n : Int} (s : State) (h : p = BitVec.ofInt 16 n) :
    writeProduct p s =
      .next ({ s.withPair 0 n with
        sreg := productSreg s.sreg (decide (n % 65536 = 0)) (decide (32768 ≤ n % 65536)) }.after 1 2) := by
  rw [h, ← mulFlags_ofInt]
  exact writeWord_eq 0 _ s rfl

/-- The write of a fractional product: Z speaks of the doubled number, C of the number before (R324). -/
theorem writeFraction_eq {p : Word} {n : Int} (s : State) (h : p = BitVec.ofInt 16 n) :
    writeFraction p s =
      .next ({ s.withPair 0 (2 * n) with
        sreg := productSreg s.sreg (decide (2 * n % 65536 = 0)) (decide (32768 ≤ n % 65536)) }.after 1 2) := by
  rw [h, ← mulFlags_ofInt, ← ofInt_shiftLeft_one]
  exact writeWord_eq 0 _ s (ofInt_shiftLeft_one n)

/-- Settles O35: each of the three is one write of the product of its operands. -/
theorem integerProducts : Obligations.IntegerProducts := by
  intro d r s hi
  simp only [List.forall_mem_cons, List.not_mem_nil, false_implies, implies_true, and_true]
  exact ⟨(ifPresent_of_has (i := .mul d r) hi).trans (writeProduct_eq s (unsigned_mul_unsigned _ _)),
    (ifPresent_of_has (i := .muls d r) hi).trans (writeProduct_eq s (signed_mul_signed _ _)),
    (ifPresent_of_has (i := .mulsu d r) hi).trans (writeProduct_eq s (signed_mul_unsigned _ _))⟩

/-- Settles O36: each of the three is one write of twice the product of its operands. -/
theorem fractionalProducts : Obligations.FractionalProducts := by
  intro d r s hi
  simp only [List.forall_mem_cons, List.not_mem_nil, false_implies, implies_true, and_true]
  exact ⟨(ifPresent_of_has (i := .fmul d r) hi).trans (writeFraction_eq s (unsigned_mul_unsigned _ _)),
    (ifPresent_of_has (i := .fmuls d r) hi).trans (writeFraction_eq s (signed_mul_signed _ _)),
    (ifPresent_of_has (i := .fmulsu d r) hi).trans (writeFraction_eq s (signed_mul_unsigned _ _))⟩

end Sys2Proof.Machine
end

section
/-! PROOFS. The system instructions (O37), and a sleep that nothing ends (O52): the step of a sleeping core without
interrupts uses up `irq_inhibit` and does nothing else. -/

namespace Sys2Proof.Machine

/-! NOP, BREAK, SLEEP, WDR and SPM, in the words of the claims. -/

theorem exec_nop (s : State) : exec .nop s = .next (s.after 1 1) := congrArg _ (State.advance_eq _ 1 1)

/-- BREAK without a debug system is NOP (R331). -/
theorem exec_brk_detached {s : State} (h : s.cfg.ocdAttached = false) : exec .brk s = .next (s.after 1 1) := by
  have hdetached : ¬ s.cfg.ocdAttached = true := by simp [h]
  exact (if_neg hdetached).trans (exec_nop s)

/-- BREAK with a debug system stops the run (R331, R360). -/
theorem exec_brk_attached {s : State} (h : s.cfg.ocdAttached = true) : exec .brk s = .refused (.debugStop s.pc) := if_pos h

theorem exec_wdr (s : State) : exec .wdr s = .next ({ s with events := s.events ++ [OutEvent.wdr] }.after 1 1) :=
  congrArg _ (State.advance_eq _ 1 1)

theorem exec_sleep (s : State) : exec .sleep s = .next ({ s with sleeping := s.sleeping || s.sleepEnabled }.after 1 1) :=
  congrArg _ (State.advance_eq _ 1 1)

/-- SPM stops at its own word, whether or not the member lists it (R334). -/
theorem exec_spm (s : State) : exec .spm s = .fault (.illegalEncoding s.pc 0x95E8) := by
  have hword : firstWord .spm = 0x95E8 := by decide
  rw [← hword]
  rfl

/-- Settles O37: NOP, WDR, SLEEP and a BREAK without a debug system go on to the next instruction, the others stop. -/
theorem systemInstructions : Obligations.SystemInstructions := fun s =>
  ⟨exec_nop s, exec_brk_detached, exec_brk_attached, exec_wdr s, exec_sleep s, exec_spm s⟩

/-! Sleep. -/

/-- A sleeping core that accepts no interrupt fetches nothing: its step ends where the environment has left it (R332,
R349). -/
theorem step_of_sleeping {s : State} (ha : acceptable (applyEnv s) = none) (hs : (begun s).sleeping = true) :
    step s = .next (begun s) := by
  unfold begun at hs ⊢
  simp only [step, plan, ha]
  rw [if_pos hs]

theorem step_asleep {s : State} (hs : s.sleeping = true) (hun : s.Uninterrupted) :
    step s = .next { s with irqInhibit := false } := by
  have ⟨henv, _⟩ := hun
  have hbegun : begun s = { s with irqInhibit := false } := by rw [begun, applyEnv_of_env_nil henv]
  have haccept : acceptable (applyEnv s) = none := by
    rw [applyEnv_of_env_nil henv]
    exact hun.acceptable_eq_none
  rw [step_of_sleeping haccept (by rwa [hbegun]), hbegun]

/-- Settles O52, by induction on the number of steps: the first one leaves a core that sleeps on, uninterrupted as it was,
and each later one finds `irq_inhibit` clear already and changes nothing. -/
theorem permanentSleep : Obligations.PermanentSleep := by
  intro s k hs hun
  induction k generalizing s with
  | zero => exact run_succ_of_step 0 (step_asleep hs hun)
  | succ k ih => exact (run_succ_of_step (k + 1) (step_asleep hs hun)).trans (ih { s with irqInhibit := false } hs hun)

end Sys2Proof.Machine
end

section
/-! PROOFS. The boundary of a step: what the environment does there (O54), and the steps that accept no interrupt (O49,
O50). -/

namespace Sys2Proof.Machine

/-! The environment's actions. -/

/-- An action sees nothing of the actions listed for later steps (R346). -/
theorem applyEvent_withEnv (s : State) (e : EnvEvent) (l : List (List EnvEvent)) :
    applyEvent { s with env := l } e = { applyEvent s e with env := l } := by
  cases e with
  | raise n =>
    simp only [applyEvent]
    split <;> rfl
  | withdraw n | sleepEnabled b | reset => rfl

/-- A request raised is pending, beside those that were (R346). -/
theorem applyEvent_raise (s : State) (n : Nat) :
    ∃ l, applyEvent s (.raise n) = { s with pending := l } ∧ ∀ m, m ∈ l ↔ m = n ∨ m ∈ s.pending := by
  simp only [applyEvent, mem_of_contains]
  by_cases hn : n ∈ s.pending
  · refine ⟨s.pending, if_pos hn, fun m => ⟨.inr, ?_⟩⟩
    rintro (rfl | hm)
    · exact hn
    · exact hm
  · exact ⟨n :: s.pending, if_neg hn, fun m => List.mem_cons⟩

/-- Settles O54: each action changes its own field and no action sees the list of later ones, so that the first of several
can be done by itself. -/
theorem environmentActsBetweenSteps : Obligations.EnvironmentActsBetweenSteps := by
  intro s n m b e more rest
  refine ⟨?_, fun hnodup => ⟨s.pending.erase n, rfl, hnodup.mem_erase_iff⟩, rfl, rfl, rfl, ?_, rfl⟩
  · obtain ⟨l, hraise, hmem⟩ := applyEvent_raise { s with env := rest } n
    exact ⟨l, hraise, hmem m⟩
  · show more.foldl applyEvent (applyEvent { s with env := rest } e) =
      more.foldl applyEvent { applyEvent { s with env := [] } e with env := rest }
    rw [applyEvent_withEnv s e rest, applyEvent_withEnv s e []]

/-! Steps that accept no interrupt. -/

/-- The step of an awake core that accepts no interrupt (R16, R349). -/
theorem step_of_awake {s : State} (ha : acceptable (applyEnv s) = none) (hw : (begun s).sleeping = false) :
    step s = fetchAndRun (begun s) := by
  cases hf : fetchInstr (begun s) with
  | ok i => rw [step_of_fetch ha hw hf, fetchAndRun, hf]
  | error f =>
    rw [fetchAndRun, hf]
    unfold begun at hw hf
    simp only [step, plan, ha]
    rw [hf, hw]
    rfl

/-- The step that accepts no interrupt (R349). -/
theorem step_of_not_acceptable {s : State} (ha : acceptable (applyEnv s) = none) :
    step s = if (begun s).sleeping then .next (begun s) else fetchAndRun (begun s) := by
  cases hs : (begun s).sleeping with
  | true => exact step_of_sleeping ha hs
  | false => exact step_of_awake ha hs

theorem acceptable_eq_none_of_irqInhibit {s : State} (h : s.irqInhibit = true) : acceptable s = none := by
  simp [acceptable, h]

/-- Settles O49: each of the three grounds leaves no request to accept. -/
theorem interruptIsHeldOff : Obligations.InterruptIsHeldOff := by
  intro s h
  refine step_of_not_acceptable ?_
  have huninterrupted : ∀ hun, acceptable { applyEnv s with env := [] } = none :=
    fun hun => State.Uninterrupted.acceptable_eq_none ⟨rfl, hun⟩
  rcases h with hflag | hirq | hpending
  · exact huninterrupted (.inl hflag)
  · exact acceptable_eq_none_of_irqInhibit hirq
  · exact huninterrupted (.inr hpending)

/-! The instruction after SEI and RETI. -/

/-- SEI, as BSET 7 too, where I was clear (R200, R352). -/
theorem setFlag_seven_inhibits {s t : State} (hi : s.flag 7 = false) (h : setFlag 7 s = .next t) :
    t.flag 7 = true ∧ t.irqInhibit = true := by
  obtain ⟨f, hf, hset⟩ := setFlag_written 7 s
  cases hset.symm.trans h
  exact ⟨hf 7 (by decide), show (s.irqInhibit || !s.flag 7) = true by simp [hi]⟩

theorem reti_inhibits {s t : State} (h : exec .reti s = .next t) : t.flag 7 = true ∧ t.irqInhibit = true := by
  cases hpop : popPc s with
  | error f =>
    obtain ⟨-, hreti⟩ := returns_fault hpop
    cases hreti.symm.trans h
  | ok p =>
    obtain ⟨a, u⟩ := p
    obtain ⟨-, f, hf, hreti⟩ := returns_of_popped hpop (wrapPc_eq u.cfg a)
    cases hreti.symm.trans h
    exact ⟨hf 7 (by decide), rfl⟩

/-- An instruction other than SLEEP leaves an awake core without actions of the environment as it was in both (R332). -/
theorem awake_of_exec {i : Instr} {s t : State} (h : exec i s = .next t) (hi : i ≠ .sleep) (henv : s.env = [])
    (hawake : s.sleeping = false) : t.env = [] ∧ t.sleeping = false := by
  obtain ⟨⟨-, -, -, -, henv'⟩, hsleeping, -⟩ := specialStateFrame i s t h
  exact ⟨henv'.trans henv, (hsleeping hi).trans hawake⟩

/-- The next step of an awake core in which `irq_inhibit` is set (R349, R352). -/
theorem step_of_irqInhibit {t : State} (henv : t.env = []) (hawake : t.sleeping = false) (hirq : t.irqInhibit = true) :
    step t = fetchAndRun { t with irqInhibit := false } := by
  have henv := applyEnv_of_env_nil henv
  have hbegun : begun t = { t with irqInhibit := false } := by rw [begun, henv]
  have haccept : acceptable (applyEnv t) = none := acceptable_eq_none_of_irqInhibit (by rwa [henv])
  rw [step_of_awake haccept (by rwa [hbegun]), hbegun]

/-- Settles O50: SEI, BSET 7 and RETI leave I and `irq_inhibit` set, and the step after them begins with that. -/
theorem oneInstructionAfterSeiAndReti : Obligations.OneInstructionAfterSeiAndReti := by
  intro s t henv hawake h
  have hnext : ∀ i, exec i s = .next t → i ≠ .sleep → t.flag 7 = true ∧ t.irqInhibit = true →
      t.flag 7 = true ∧ step t = fetchAndRun { t with irqInhibit := false } := fun i hexec hi ⟨hflag, hirq⟩ => by
    obtain ⟨henv', hawake'⟩ := awake_of_exec hexec hi henv hawake
    exact ⟨hflag, step_of_irqInhibit henv' hawake' hirq⟩
  rcases h with ⟨hclear, hsei | hbset⟩ | hreti
  · exact hnext .sei hsei nofun (setFlag_seven_inhibits hclear hsei)
  · exact hnext (.bset 7) hbset nofun (setFlag_seven_inhibits hclear hbset)
  · exact hnext .reti hreti nofun (reti_inhibits hreti)

end Sys2Proof.Machine
end

section
/-! PROOFS. The faults of the fetch (O46): each check of R341 fails by itself, and the step of an awake core stops where its
fetch does. -/

namespace Sys2Proof.Machine

theorem fetchInstr_outside {s : State} (h : s.cfg.flashWords ≤ s.pc.toNat) :
    fetchInstr s = .error (.fetchOutOfRange s.pc) := by
  rw [fetchInstr, progWord_outside h]

/-- A first word that is no word of an instruction the member has (R124, R125). -/
theorem fetchInstr_not_executable {s : State} {w : Word} (hw : progWord s s.pc = some w)
    (h : executable s w = false) : fetchInstr s = .error (.illegalEncoding s.pc w) := by
  simp only [fetchInstr, hw, h]
  rfl

/-- A second word outside program memory, behind a first word that is executable (R26, R341). -/
theorem fetchInstr_second_outside {s : State} {w : Word} (hw : progWord s s.pc = some w)
    (hexec : executable s w = true) (hc : wordCount w = 2)
    (h : s.cfg.flashWords ≤ (pcOf s.cfg (s.pc.toNat + 1)).toNat) :
    fetchInstr s = .error (.fetchOutOfRange (pcOf s.cfg (s.pc.toNat + 1))) := by
  have hsecond : secondWord s w = .error (.fetchOutOfRange (pcOf s.cfg (s.pc.toNat + 1))) := by
    simp only [secondWord, hc, if_true, State.nextPc_eq, progWord_outside h]
  simp only [fetchInstr, hw, hexec, if_true, hsecond]

theorem executable_unassigned {w : Word} (s : State) (h : decodeWord w 0 = none) : executable s w = false := by
  rw [executable, h]

/-- SPM and the instructions whose option the member lacks (R125, R334). -/
theorem executable_lacking {s : State} {w : Word} {i : Instr} (hd : decodeWord w 0 = some i)
    (h : s.cfg.hasInstr i = false ∨ i = .spm) : executable s w = false := by
  rw [executable, hd]
  rcases h with hi | rfl
  · exact Bool.and_eq_false_iff.mpr (.inl hi)
  · exact Bool.and_eq_false_iff.mpr (.inr (by decide))

/-- SPM has one word (R101). -/
theorem ne_spm_of_two_words {w w2 : Word} {i : Instr} (hc : wordCount w = 2) (hd : decodeWord w w2 = some i) :
    i ≠ .spm := by
  rintro rfl
  exact absurd (encode_length_of_two_words hc hd) (by decide)

/-- Settles O46: the step of an awake core is its fetch's fault, and the fetch makes the three checks one after the
other. -/
theorem fetchFaultsInOrder : Obligations.FetchFaultsInOrder := by
  intro s w ha hawake
  have hfault : ∀ f, fetchInstr (begun s) = .error f → step s = .fault f := fun f hf => by
    rw [step_of_awake ha hawake, fetchAndRun, hf]
  refine ⟨fun h => hfault _ (fetchInstr_outside h), fun hw => ⟨fun hd => ?_, fun i hd hi => ?_, fun i hd hi hc h => ?_⟩⟩
  · exact hfault _ (fetchInstr_not_executable hw (executable_unassigned _ hd))
  · exact hfault _ (fetchInstr_not_executable hw (executable_lacking hd hi))
  · have hexec := executable_of_decodeWord (.inl hc) hd hi (ne_spm_of_two_words hc hd)
    exact hfault _ (fetchInstr_second_outside hw hexec hc h)

end Sys2Proof.Machine
end

section
/-! PROOFS. An accepted interrupt, with the stack in SRAM (O47) and anywhere (O48): the request with the lowest number is
entered, and the entry is a push of the program counter with I cleared behind it. -/

namespace Sys2Proof.Machine

/-! The request that is accepted. -/

/-- The lowest-numbered pending request of a vector that exists (R348). -/
theorem leastPending_eq {s : State} {n : Nat} (hpos : 1 ≤ n) (hn : n < s.cfg.nVectors) (hmem : n ∈ s.pending)
    (hleast : ∀ m, 1 ≤ m → m < n → m ∉ s.pending) : leastPending s = some n := by
  have hget : ∀ k (hk : k < ((List.range s.cfg.nVectors).drop 1).length),
      ((List.range s.cfg.nVectors).drop 1)[k] = 1 + k := fun k hk => by
    rw [List.getElem_drop, List.getElem_range]
  have hlength : ((List.range s.cfg.nVectors).drop 1).length = s.cfg.nVectors - 1 := by
    rw [List.length_drop, List.length_range]
  refine List.find?_eq_some_iff_getElem.mpr ⟨mem_of_contains.mpr hmem, n - 1, by omega, ?_, fun k hk => ?_⟩
  · rw [hget]
    omega
  · rw [hget]
    have := hleast (1 + k) (by omega) (by omega)
    simpa using this

/-- A step with I set and `irq_inhibit` clear enters the pending request with the lowest number (R349). -/
theorem step_of_leastPending {s : State} {n : Nat} (hflag : (applyEnv s).flag 7 = true)
    (hirq : (applyEnv s).irqInhibit = false) (h : leastPending (applyEnv s) = some n) :
    step s = interruptEntry n (applyEnv s) := by
  have haccept : acceptable (applyEnv s) = some n := by simp [acceptable, hflag, hirq, h]
  simp only [step, plan, haccept]

/-! The entry, in the words of the claims. -/

/-- The acknowledgement is recorded, and withdraws the request where the member says so (R346). -/
theorem acknowledge_eq (n : Nat) (s : State) :
    acknowledge n s =
      { s with events := s.events ++ [OutEvent.ack n],
               pending := if n ∈ s.cfg.ackClears then s.pending.erase n else s.pending } := by
  simp only [acknowledge, State.emit_cfg, mem_of_contains]
  split <;> rfl

/-- An interrupt entry behind its push: I cleared, the environment told, the program counter at the vector (R350). -/
theorem interruptEntry_eq {n : Nat} {s t : State} (h : pushPc s.pc { s with sleeping := false } = .ok t)
    (hcfg : t.cfg = s.cfg) :
    interruptEntry n s =
      .next ({ t with sreg := putBit t.sreg 7 false, events := t.events ++ [OutEvent.ack n],
                      pending := if n ∈ t.cfg.ackClears then t.pending.erase n else t.pending }.goTo
        (n * t.cfg.vectorStride) t.cfg.irqEntryCycles) := by
  rw [interruptEntry_of_pushed h, acknowledge_eq, hcfg]
  push_cast
  rfl

/-- A push takes no part in whether the core sleeps (R29). -/
theorem ReturnPushed.withSleeping {ra : PcWord} {s t : State} (b : Bool) (h : ReturnPushed ra { s with sleeping := b } t) :
    ReturnPushed ra s { t with sleeping := s.sleeping } ∧ t = { t with sleeping := b } := by
  obtain ⟨hframe, hbytes, hother⟩ := h
  refine ⟨⟨?_, hbytes, hother⟩, ?_⟩ <;> rw [hframe]

/-- Settles O47: the request with the lowest number is entered, and the stack in SRAM takes the program counter. -/
theorem interruptIsAccepted : Obligations.InterruptIsAccepted := by
  intro s n hflag hirq hpos hn hmem hleast hroom
  have hstep := step_of_leastPending hflag hirq (leastPending_eq hpos hn hmem hleast)
  obtain ⟨t, hpush, ht⟩ := pushPc_sram (s := { applyEnv s with sleeping := false }) (applyEnv s).pc hroom
  have hentry := interruptEntry_eq (n := n) hpush ht.cfg
  obtain ⟨hpushed, hawake⟩ := ht.withSleeping
  have hsreg : t.sreg = (applyEnv s).sreg := by
    obtain ⟨hframe, -⟩ := ht
    rw [hframe]
  refine ⟨_, _, hpushed, flagWritten_putBit (applyEnv s).sreg 7 false, ?_⟩
  rw [hstep, hentry, hsreg, hawake]

/-- Settles O48: the request with the lowest number is entered, and its push completes or stops at the first address that
holds nothing. -/
theorem interruptEntryWithStackAnywhere : Obligations.InterruptEntryWithStackAnywhere := by
  intro s n hflag hirq hpos hn hmem hleast
  have hstep := step_of_leastPending hflag hirq (leastPending_eq hpos hn hmem hleast)
  refine ⟨fun hmapped => ?_, fun b hb => ?_⟩
  · obtain ⟨t, hpush, ht⟩ := pushPc_mapped (s := { applyEnv s with sleeping := false }) (applyEnv s).pc hmapped
    exact ⟨t, _, ht, flagWritten_putBit t.sreg 7 false, hstep.trans (interruptEntry_eq hpush ht.cfg)⟩
  · rw [hstep, interruptEntry, pushPc_unmapped (s := { applyEnv s with sleeping := false }) (applyEnv s).pc hb, finish]

end Sys2Proof.Machine
end

section
/-! PROOFS. The reset (O1): the two counters it writes wrap as the numbers of the claims, it changes nothing of the reset
state, and program memory that lists no byte is erased. -/

namespace Sys2Proof.Machine

/-- Both counters are assigned modulo their widths (R26, R27, R370); every other field is written outright or kept. -/
theorem applyReset_eq (s : State) : applyReset s =
    { s with pc := pcOf s.cfg s.cfg.resetPc.toNat, sreg := 0, sp := spOf s.cfg s.cfg.resetSp.toNat, rampz := 0, eind := 0,
             irqInhibit := false, sleeping := false } := by
  rw [← wrapPc_eq, ← wrapSp_eq]
  rfl

/-- The reset values of the default member fit their widths, so that assigning them again loses no bit. -/
theorem applyReset_reset : applyReset State.reset = State.reset := by
  have hpc : wrapPc State.reset.cfg State.reset.cfg.resetPc = State.reset.pc := by decide
  have hsp : wrapSp State.reset.cfg State.reset.cfg.resetSp = State.reset.sp := by decide
  rw [applyReset_eq, ← wrapPc_eq, ← wrapSp_eq, hpc, hsp]
  rfl

/-- An unlisted byte of program memory reads as erased (R52, R372). -/
theorem flashByte_of_unlisted {s : State} {b : Nat} (h : Memory.lookup s.flash b = none) : flashByte s b = 0xFF := by
  rw [flashByte, Memory.read, h]
  rfl

/-- A word of two unlisted bytes is erased (R69, R372). -/
theorem progWord_of_unlisted {s : State} {a : PcWord} (hin : a.toNat < s.cfg.flashWords)
    (hlow : Memory.lookup s.flash (2 * a.toNat) = none) (hhigh : Memory.lookup s.flash (2 * a.toNat + 1) = none) :
    progWord s a = some 0xFFFF := by
  rw [progWord_inside hin, flashByte_of_unlisted hlow, flashByte_of_unlisted hhigh]
  rfl

/-- Settles O1: the equation of the reset, and the reset state as one that it keeps and that lists no byte of program
memory. -/
theorem resetAssignsItsRegisters : Obligations.ResetAssignsItsRegisters :=
  ⟨applyReset_eq, applyReset_reset, rfl, rfl, fun _ hin => progWord_of_unlisted hin rfl rfl⟩

end Sys2Proof.Machine
end
